-- ==== Sys2Proof/Word.lean ====
section
/-! DEFINITION. The words of FOGPAD-CORE: the 32-bit register word and the 41-bit transaction word
(spec/00_scope.md R8, spec/30_encoding.md R80). -/

namespace Sys2Proof

/-- A word is 32 bits, bit 0 least significant (R8). It is read as `U32`, `F32` or `BITS` where it is used. -/
abbrev Word := BitVec 32

/-- A register word address in the register space REG (R61). -/
abbrev RegAddr := BitVec 8

/-- One transaction, `XACT[40:0]` (R80): W in bit 40, ADDR in bits 39:32, DATA in bits 31:0. -/
abbrev Xact := BitVec 41

end Sys2Proof
end

