-- ==== Sys2Proof/Config.lean ====
section
/-! DEFINITION. The parameters of the block as named fields of one configuration record, as spec/00_scope.md R6 and
R7 ask, and the one value the spec leaves open. The record's value for this hardware is
`Sys2Proof.Machine.fogpad` (Machine/Constants.lean); the operations of the signal path take the record as an
argument, so that a claim may quantify over it. -/

namespace Sys2Proof

/-- The parameters of R6 (fixed by the source), of R7 (fixed by the spec's decisions) and the two ROMs (R56). -/
structure Config where
  /-- COMB_TUNING (R6); NUM_COMBS is the length. -/
  combTuning : Vector Nat 8
  /-- AP_TUNING (R6); NUM_ALLPASS is the length. -/
  apTuning : Vector Nat 4
  /-- REF_RATE (R6), in hertz. -/
  refRate : Nat
  /-- AP_FB (R6). -/
  apFb : Word
  /-- FILTER_MIN_FREQ (R6). -/
  filterMinFreq : Word
  /-- FILTER_MAX_FREQ (R6). -/
  filterMaxFreq : Word
  /-- FILTER_MIN_RES (R6). -/
  filterMinRes : Word
  /-- FILTER_MAX_RES (R6). -/
  filterMaxRes : Word
  /-- BC_MIN_BITS (R6). -/
  bcMinBits : Nat
  /-- BC_MAX_BITS (R6). -/
  bcMaxBits : Nat
  /-- DEC_MAX_BITS (R6); DEC_MIN_BITS is 0, the least unsigned word. -/
  decMaxBits : Nat
  /-- FB_MIN (R6): the least feedback of a comb that is not frozen (R59 f). -/
  fbMin : Word
  /-- FB_MAX (R6): the greatest feedback of a comb that is not frozen (R59 f). -/
  fbMax : Word
  /-- MAXCH (R7): the lanes the hardware builds; channel counts saturate to it (R248). -/
  maxCh : Nat
  /-- FS_MIN (R7), in hertz. -/
  fsMin : Nat
  /-- FS_MAX (R7), in hertz. -/
  fsMax : Nat
  /-- DAMP (R7). -/
  damp : Word
  /-- COMB_GAIN (R7). -/
  combGain : Word
  /-- ROOM_SCALE (R7). -/
  roomScale : Word
  /-- ROOM_OFFSET (R7). -/
  roomOffset : Word
  /-- FREEZE_FB (R7). -/
  freezeFb : Word
  /-- FREEZE_DAMP (R7). -/
  freezeDamp : Word
  /-- TAIL_LEN (R7), in words. -/
  tailLen : Nat
  /-- RATE_EPS (R7). -/
  rateEps : Word
  /-- TABLE_LEN (R7), in words. -/
  tableLen : Nat
  /-- MIN_LFO_RATE (R7). -/
  minLfoRate : Word
  /-- MAX_LFO_RATE (R7). -/
  maxLfoRate : Word
  /-- BC_MOD_SPAN (R7). -/
  bcModSpan : Word
  /-- MAX_HOLD (R7), in frames. -/
  maxHold : Nat
  /-- FILTER_MOD_RANGE (R7). -/
  filterModRange : Word
  /-- LIM_THRESHOLD (R7). -/
  limThreshold : Word
  /-- LIM_ATTACK_S (R7), in seconds. -/
  limAttackS : Word
  /-- LIM_RELEASE_S (R7), in seconds. -/
  limReleaseS : Word
  /-- ID_WORD (R7, R26). -/
  idWord : Word
  /-- The first quadrant of the ROM SINE, entries 0 to TABLE_LEN / 4 (R101). -/
  sineQuadrant : List Word
  /-- The ROM SCALE, entries 1 to 32 (R183). -/
  scale : List Word
deriving DecidableEq, Repr

/-- What `f2i` gives for a finite operand that is not integral. R12 defines `f2i` on integral values only and no
rule applies it to another (R59 g). No value is chosen: log 9. -/
opaque Config.f2iNonIntegral : Word → Int

end Sys2Proof
end

