-- ==== Sys2Proof/Machine/Constants.lean ====
section
/-! DEFINITION. The value of the configuration record for this hardware: the parameters of spec/00_scope.md R6 and R7,
the ROM SINE (spec/40_lfo.md R101) and the ROM SCALE (spec/44_bitcrusher.md R183). -/

namespace Sys2Proof.Machine

/-- The first quadrant of SINE, entries 0 to 64 (R101). -/
def sineFirstQuadrant : List Word :=
  [ 0x00000000, 0x3CC90AB0, 0x3D48FB30, 0x3D96A905, 0x3DC8BD36, 0x3DFAB273, 0x3E164083, 0x3E2F10A2,
    0x3E47C5C2, 0x3E605C13, 0x3E78CFCC, 0x3E888E93, 0x3E94A031, 0x3EA09AE5, 0x3EAC7CD4, 0x3EB8442A ] ++
  [ 0x3EC3EF15, 0x3ECF7BCA, 0x3EDAE880, 0x3EE63375, 0x3EF15AEA, 0x3EFC5D27, 0x3F039C3D, 0x3F08F59B,
    0x3F0E39DA, 0x3F13682A, 0x3F187FC0, 0x3F1D7FD1, 0x3F226799, 0x3F273656, 0x3F2BEB4A, 0x3F3085BB ] ++
  [ 0x3F3504F3, 0x3F396842, 0x3F3DAEF9, 0x3F41D870, 0x3F45E403, 0x3F49D112, 0x3F4D9F02, 0x3F514D3D,
    0x3F54DB31, 0x3F584853, 0x3F5B941A, 0x3F5EBE05, 0x3F61C598, 0x3F64AA59, 0x3F676BD8, 0x3F6A09A7 ] ++
  [ 0x3F6C835E, 0x3F6ED89E, 0x3F710908, 0x3F731447, 0x3F74FA0B, 0x3F76BA07, 0x3F7853F8, 0x3F79C79D,
    0x3F7B14BE, 0x3F7C3B28, 0x3F7D3AAC, 0x3F7E1324, 0x3F7EC46D, 0x3F7F4E6D, 0x3F7FB10F, 0x3F7FEC43 ] ++
  [ 0x3F800000 ]

/-- SCALE, entries 1 to 32 (R183). -/
def scaleWords : List Word :=
  [ 0x00000000, 0x3F800000, 0x40400000, 0x40E00000, 0x41700000, 0x41F80000, 0x427C0000, 0x42FE0000,
    0x437F0000, 0x43FF8000, 0x447FC000, 0x44FFE000, 0x457FF000, 0x45FFF800, 0x467FFC00, 0x46FFFE00 ] ++
  [ 0x477FFF00, 0x47FFFF80, 0x487FFFC0, 0x48FFFFE0, 0x497FFFF0, 0x49FFFFF8, 0x4A7FFFFC, 0x4AFFFFFE,
    0x4B7FFFFF, 0x4C000000, 0x4C800000, 0x4D000000, 0x4D800000, 0x4E000000, 0x4E800000, 0x4F000000 ]

/-- FOGPAD-CORE's parameters (R6, R7). -/
def fogpad : Config where
  combTuning := #v[1116, 1188, 1277, 1356, 1422, 1491, 1557, 1617]
  apTuning := #v[556, 441, 341, 225]
  refRate := 44100
  apFb := 0x3F000000#32
  filterMinFreq := 0x41F00000#32
  filterMaxFreq := 0x469C4000#32
  filterMinRes := 0x3DCCCCCD#32
  filterMaxRes := 0x3F350481#32
  bcMinBits := 1
  bcMaxBits := 16
  decMaxBits := 32
  fbMin := 0x3F333333#32
  fbMax := 0x3F7AE148#32
  maxCh := 2
  fsMin := 44100
  fsMax := 192000
  damp := 0x3F000000#32
  combGain := 0x3E000000#32
  roomScale := 0x3E8F5C29#32
  roomOffset := 0x3F333333#32
  freezeFb := 0x3F800000#32
  freezeDamp := 0x00000000#32
  tailLen := 4096
  rateEps := 0x3A800000#32
  tableLen := 256
  minLfoRate := 0x3DCCCCCD#32
  maxLfoRate := 0x41200000#32
  bcModSpan := 0x40F00000#32
  maxHold := 64
  filterModRange := 0x461C0400#32
  limThreshold := 0x3F800000#32
  limAttackS := 0x3A83126F#32
  limReleaseS := 0x3DCCCCCD#32
  idWord := 0x46475031#32
  sineQuadrant := sineFirstQuadrant
  scale := scaleWords

end Sys2Proof.Machine
end

