-- ==== Sys2Proof/Machine/Float.lean ====
section
/-! DEFINITION. Binary32 arithmetic on words (spec/00_scope.md R9 to R12). Every finite binary32 value is an integer
number of units of 2^-149, the least subnormal; a value is computed exactly in those units, or as an exact quotient of
them, and rounded once at the end, to nearest, ties to even. -/

namespace Sys2Proof.Machine

/-! ### Fields and values -/

/-- Bit 31, the sign (R9). -/
def signBit (a : Word) : Bool := a.getLsbD 31

/-- Bits 30:23, the biased exponent (R9). -/
def expField (a : Word) : Nat := (a.extractLsb' 23 8).toNat

/-- Bits 22:0, the fraction (R9). -/
def fracField (a : Word) : Nat := (a.extractLsb' 0 23).toNat

/-- `isfinite(w)`: `w[30:23] != 0xFF` (R10). -/
def isFinite (a : Word) : Bool := expField a != 255

def isNaN (a : Word) : Bool := expField a == 255 && fracField a != 0

def isInf (a : Word) : Bool := expField a == 255 && fracField a == 0

/-- The number of units of 2^-149 in 1.0. -/
def unitsPerOne : Nat := 2 ^ 149

/-- The magnitude in units of 2^-149. Of an infinity it is 2^277, above every finite magnitude, so that values order as
R10 asks. -/
def mag (a : Word) : Nat :=
  if expField a = 0 then fracField a else (2 ^ 23 + fracField a) * 2 ^ (expField a - 1)

/-- The signed value in units of 2^-149. -/
def value (a : Word) : Int := if signBit a then -(mag a : Int) else (mag a : Int)

/-! ### Named words -/

/-- The one canonical quiet NaN (R9). -/
def nanWord : Word := 0x7FC00000#32

def posZero : Word := 0x00000000#32
def fHalf : Word := 0x3F000000#32
def fQuarter : Word := 0x3E800000#32
def fOne : Word := 0x3F800000#32
def fTwo : Word := 0x40000000#32
def fMinusOne : Word := 0xBF800000#32

/-- The magnitude bits of an infinity. -/
def infBits : Nat := 0x7F800000

/-! ### Rounding -/

/-- The word with a given sign and magnitude bits. -/
def pack (neg : Bool) (bits : Nat) : Word := BitVec.ofNat 32 ((if neg then 2 ^ 31 else 0) + bits)

/-- The magnitude bits of `num / den` units of 2^-149, rounded once, to nearest, ties to even, to an infinity above the
range (R9). With a 24-bit significand `m` in steps of `2^sh` units, the bits are `sh * 2^23 + m`: a carry out of the
significand moves to the next exponent, and `sh = 0` with `m < 2^23` is a subnormal. -/
def roundBits (num den : Nat) : Nat :=
  let sh := (num / den).log2 - 23
  let step := den * 2 ^ sh
  let m := num / step
  let r := num % step
  let up := decide (step < 2 * r) || (decide (2 * r = step) && decide (m % 2 = 1))
  min (sh * 2 ^ 23 + (if up then m + 1 else m)) infBits

/-- The word of sign `neg` nearest to `num / den` units of 2^-149. -/
def roundTo (neg : Bool) (num den : Nat) : Word := pack neg (roundBits num den)

/-! ### The four primitives and the sign operations (R9) -/

def fneg (a : Word) : Word := if isNaN a then nanWord else a ^^^ 0x80000000#32

def fabs (a : Word) : Word := if isNaN a then nanWord else a &&& 0x7FFFFFFF#32

def fadd (a b : Word) : Word :=
  if isNaN a || isNaN b then nanWord
  else if isInf a then (if isInf b && signBit a != signBit b then nanWord else a)
  else if isInf b then b
  else
    let v := value a + value b
    if v = 0 then pack (signBit a && signBit b) 0
    else roundTo (decide (v < 0)) v.natAbs 1

def fsub (a b : Word) : Word := fadd a (fneg b)

def fmul (a b : Word) : Word :=
  let neg := signBit a != signBit b
  if isNaN a || isNaN b then nanWord
  else if isInf a || isInf b then (if mag a = 0 || mag b = 0 then nanWord else pack neg infBits)
  else roundTo neg (mag a * mag b) unitsPerOne

def fdiv (a b : Word) : Word :=
  let neg := signBit a != signBit b
  if isNaN a || isNaN b then nanWord
  else if isInf a then (if isInf b then nanWord else pack neg infBits)
  else if isInf b then pack neg 0
  else if mag b = 0 then (if mag a = 0 then nanWord else pack neg infBits)
  else roundTo neg (mag a * unitsPerOne) (mag b)

/-! ### Comparisons (R10) and clamps (R10, R11) -/

def flt (a b : Word) : Bool := !isNaN a && !isNaN b && decide (value a < value b)

def fle (a b : Word) : Bool := !isNaN a && !isNaN b && decide (value a ≤ value b)

def fgt (a b : Word) : Bool := flt b a

def fge (a b : Word) : Bool := fle b a

def feq (a b : Word) : Bool := !isNaN a && !isNaN b && decide (value a = value b)

/-- `fmin1(a, hi)` (R10). -/
def fmin1 (a hi : Word) : Word := if fle a hi then a else hi

/-- `fmax1(a, lo)` (R10). -/
def fmax1 (a lo : Word) : Word := if fge a lo then a else lo

/-- `clamp(v, lo, hi)` (R11): NaN goes to the lower bound. -/
def clamp (v lo hi : Word) : Word := if fge v lo then (if fle v hi then v else hi) else lo

/-- `clampi(n, lo, hi)` (R11). -/
def clampi (n lo hi : Int) : Int := if lo ≤ n then (if n ≤ hi then n else hi) else lo

/-! ### Rounding to integers and conversions (R12) -/

/-- `ffloor(a)`: the greatest integral value at most `a`, of `a`'s sign where it is zero; NaN and infinities are
returned as they are. -/
def ffloor (a : Word) : Word :=
  if isFinite a then roundTo (signBit a) ((value a / (unitsPerOne : Int)).natAbs * unitsPerOne) 1 else a

/-- `round_haz(a)`: round half away from zero, `sign(a) × floor(|a| + 1/2)` for `|a| < 2^23`; any other `a` is returned
as it is. -/
def roundHaz (a : Word) : Word :=
  if isFinite a && decide (mag a < 2 ^ 23 * unitsPerOne) then
    roundTo (signBit a) ((2 * mag a + unitsPerOne) / (2 * unitsPerOne) * unitsPerOne) 1
  else a

/-- `f2i(a)`: the integer of an integral value, saturated to the 32-bit signed range, 0 for NaN. A finite operand that
is not integral is outside R12's definition and gives the free value (log 9). -/
def f2i (a : Word) : Int :=
  if isNaN a then 0
  else if mag a % unitsPerOne = 0 then
    max (-(2 ^ 31)) (min (2 ^ 31 - 1) (value a / (unitsPerOne : Int)))
  else Config.f2iNonIntegral a

/-- `i2f(n)`: exact below 2^24 in magnitude, which is every integer the rules convert (log 11). -/
def i2f (n : Int) : Word := roundTo (decide (n < 0)) (n.natAbs * unitsPerOne) 1

end Sys2Proof.Machine
end

