-- ==== Sys2Proof/Machine/Operands.lean ====
section
/-! DEFINITION. The operand forms of a write's DATA word (spec/30_encoding.md R82) and the value each parameter register
stores of it (spec/10_state.md R47). -/

namespace Sys2Proof.Machine

/-! ### F32 operands: any word may be written, its clamp is stored (R11, R47) -/

/-- A normalised control: clamped to [0.0, 1.0]. -/
def unitOperand (w : Word) : Word := clamp w posZero fOne

/-- An oscillator rate in hertz: clamped to [MIN_LFO_RATE, MAX_LFO_RATE] (R105). -/
def rateOperand (cfg : Config) (w : Word) : Word := clamp w cfg.minLfoRate cfg.maxLfoRate

/-- A cutoff in hertz: clamped to [FILTER_MIN_FREQ, FILTER_MAX_FREQ] (R210). -/
def cutoffOperand (cfg : Config) (w : Word) : Word := clamp w cfg.filterMinFreq cfg.filterMaxFreq

/-- A resonance: clamped to [FILTER_MIN_RES, FILTER_MAX_RES] (R212). -/
def resonanceOperand (cfg : Config) (w : Word) : Word := clamp w cfg.filterMinRes cfg.filterMaxRes

/-! ### U32 operand -/

/-- A bit count: the unsigned word, saturated at DEC_MAX_BITS (R193). -/
def bitsOperand (cfg : Config) (w : Word) : Word :=
  if cfg.decMaxBits < w.toNat then BitVec.ofNat 32 cfg.decMaxBits else w

/-! ### BITS operands (R82) -/

/-- FREEZE of MODE and POST of BC_POSTMIX: `w[0]` (R127, R181). -/
def flagOperand (w : Word) : BitVec 1 := w.extractLsb' 0 1

/-- FS of CONFIG: `w[23:0]`. -/
def configFs (w : Word) : BitVec 24 := w.extractLsb' 0 24

/-- NCH of CONFIG: `w[25:24]`. -/
def configNch (w : Word) : BitVec 2 := w.extractLsb' 24 2

/-- FRAMES of BLOCK: `w[15:0]`. -/
def blockFrames (w : Word) : BitVec 16 := w.extractLsb' 0 16

/-- A channel count of BLOCK, saturated at MAXCH (R248). -/
def channelCount (cfg : Config) (n : BitVec 4) : BitVec 2 :=
  if cfg.maxCh < n.toNat then BitVec.ofNat 2 cfg.maxCh else n.setWidth 2

/-- NUMIN of BLOCK: `w[19:16]`, saturated. -/
def blockNumin (cfg : Config) (w : Word) : BitVec 2 := channelCount cfg (w.extractLsb' 16 4)

/-- NUMOUT of BLOCK: `w[23:20]`, saturated. -/
def blockNumout (cfg : Config) (w : Word) : BitVec 2 := channelCount cfg (w.extractLsb' 20 4)

/-- The clear mask of ERR: `w[3:0]` (R265). -/
def errMaskOperand (w : Word) : BitVec 4 := w.extractLsb' 0 4

end Sys2Proof.Machine
end

