-- ==== Sys2Proof/Syntax.lean ====
section
/-! DEFINITION. The operations of the block: one constructor per row of spec/opcode_table.json, in the table's order
(spec/30_encoding.md R84). A read has no operand (its DATA field is not examined, R81); every write carries its one
DATA word, raw (R82). -/

namespace Sys2Proof

inductive Instr where
  /-- `RD.ID`, R262. -/
  | rdId
  /-- `RD.STATUS`, R263. -/
  | rdStatus
  /-- `RD.ERR`, R264. -/
  | rdErr
  /-- `WR.ERR`, R265. -/
  | wrErr (w : Word)
  /-- `RD.CONFIG`, R247. -/
  | rdConfig
  /-- `WR.CONFIG`, R246. -/
  | wrConfig (w : Word)
  /-- `RD.REM`, R266. -/
  | rdRem
  /-- `WR.BLOCK`, R248. -/
  | wrBlock (w : Word)
  /-- `WR.FRAME`, R253. -/
  | wrFrame (w : Word)
  /-- `RD.IN0`, R250. -/
  | rdIn0
  /-- `WR.IN0`, R249. -/
  | wrIn0 (w : Word)
  /-- `RD.IN1`, R252. -/
  | rdIn1
  /-- `WR.IN1`, R251. -/
  | wrIn1 (w : Word)
  /-- `RD.OUT0`, R260. -/
  | rdOut0
  /-- `RD.OUT1`, R261. -/
  | rdOut1
  /-- `RD.GR`, R232. -/
  | rdGr
  /-- `RD.ROOMSIZE`, R126. -/
  | rdRoomsize
  /-- `WR.ROOMSIZE`, R125. -/
  | wrRoomsize (w : Word)
  /-- `RD.WIDTH`, R153. -/
  | rdWidth
  /-- `WR.WIDTH`, R152. -/
  | wrWidth (w : Word)
  /-- `RD.DRY`, R155. -/
  | rdDry
  /-- `WR.DRY`, R154. -/
  | wrDry (w : Word)
  /-- `RD.WET`, R157. -/
  | rdWet
  /-- `WR.WET`, R156. -/
  | wrWet (w : Word)
  /-- `RD.MODE`, R128. -/
  | rdMode
  /-- `WR.MODE`, R127. -/
  | wrMode (w : Word)
  /-- `RD.PLAYRATE`, R159. -/
  | rdPlayrate
  /-- `WR.PLAYRATE`, R158. -/
  | wrPlayrate (w : Word)
  /-- `RD.BC_AMOUNT`, R176. -/
  | rdBcAmount
  /-- `WR.BC_AMOUNT`, R175. -/
  | wrBcAmount (w : Word)
  /-- `RD.BC_LFORATE`, R178. -/
  | rdBcLfoRate
  /-- `WR.BC_LFORATE`, R177. -/
  | wrBcLfoRate (w : Word)
  /-- `RD.BC_LFODEPTH`, R180. -/
  | rdBcLfoDepth
  /-- `WR.BC_LFODEPTH`, R179. -/
  | wrBcLfoDepth (w : Word)
  /-- `RD.BC_POSTMIX`, R182. -/
  | rdBcPostmix
  /-- `WR.BC_POSTMIX`, R181. -/
  | wrBcPostmix (w : Word)
  /-- `WR.BC_LFORST`, R106. -/
  | wrBcLfoRst (w : Word)
  /-- `RD.DEC_BITS`, R194. -/
  | rdDecBits
  /-- `WR.DEC_BITS`, R193. -/
  | wrDecBits (w : Word)
  /-- `RD.DEC_RATE`, R196. -/
  | rdDecRate
  /-- `WR.DEC_RATE`, R195. -/
  | wrDecRate (w : Word)
  /-- `RD.FLT_CUTOFF`, R211. -/
  | rdFltCutoff
  /-- `WR.FLT_CUTOFF`, R210. -/
  | wrFltCutoff (w : Word)
  /-- `RD.FLT_RES`, R213. -/
  | rdFltRes
  /-- `WR.FLT_RES`, R212. -/
  | wrFltRes (w : Word)
  /-- `RD.FLT_LFORATE`, R215. -/
  | rdFltLfoRate
  /-- `WR.FLT_LFORATE`, R214. -/
  | wrFltLfoRate (w : Word)
  /-- `RD.FLT_LFODEPTH`, R217. -/
  | rdFltLfoDepth
  /-- `WR.FLT_LFODEPTH`, R216. -/
  | wrFltLfoDepth (w : Word)
  /-- `WR.FLT_LFORST`, R107. -/
  | wrFltLfoRst (w : Word)
deriving DecidableEq, Repr

end Sys2Proof
end

