-- ==== Sys2Proof/WellFormed.lean ====
section
/-! DEFINITION. What makes a transaction, as a host writes it, a well-formed one: its fields fit the format
(spec/30_encoding.md R80), its address is one of the thirty of the register map (spec/10_state.md R29) and its kind is
one that the register's access column allows (R81, R86). No operand value is ever ill-formed (R87). -/

namespace Sys2Proof

/-- The access column of the register map (R29). -/
inductive Access where
  /-- read-only -/
  | ro
  /-- read and write -/
  | rw
  /-- write-only -/
  | wo
  /-- read and write-one-to-clear -/
  | w1c
deriving DecidableEq, Repr

/-- Whether a register of this access may be read. -/
def Access.readable : Access → Bool
  | .wo => false
  | _ => true

/-- Whether a register of this access may be written. -/
def Access.writable : Access → Bool
  | .ro => false
  | _ => true

/-- The register map (R29): address and access of each of the thirty registers. -/
def registerMap : List (Nat × Access) :=
  [ (0x00, .ro), (0x01, .ro), (0x02, .w1c), (0x03, .rw), (0x04, .ro), (0x08, .wo),
    (0x09, .wo), (0x0A, .rw), (0x0B, .rw), (0x0C, .ro), (0x0D, .ro), (0x0E, .ro) ] ++
  [ (0x10, .rw), (0x11, .rw), (0x12, .rw), (0x13, .rw), (0x14, .rw), (0x15, .rw) ] ++
  [ (0x20, .rw), (0x21, .rw), (0x22, .rw), (0x23, .rw), (0x24, .wo), (0x28, .rw),
    (0x29, .rw), (0x30, .rw), (0x31, .rw), (0x32, .rw), (0x33, .rw), (0x34, .wo) ]

/-- One line of a transaction listing (R89): kind, register address and operand, before they are known to fit. -/
structure Line where
  write : Bool
  addr : Nat
  operand : Nat
deriving DecidableEq, Repr

/-- ADDR is an 8-bit field (R80). -/
def Line.addrFits (l : Line) : Bool := decide (l.addr < 2 ^ 8)

/-- DATA is a 32-bit field (R80). -/
def Line.operandFits (l : Line) : Bool := decide (l.operand < 2 ^ 32)

/-- The address is defined by the register map (R29, R85). -/
def Line.addrDefined (l : Line) : Bool := (registerMap.lookup l.addr).isSome

/-- The register's access column allows the kind (R86); nothing is said here of an address that is not defined. -/
def Line.kindAllowed (l : Line) : Bool :=
  match registerMap.lookup l.addr with
  | some acc => if l.write then acc.writable else acc.readable
  | none => true

/-- All four checks. -/
def Line.wellFormed (l : Line) : Bool :=
  l.addrFits && l.operandFits && l.addrDefined && l.kindAllowed

/-- The line of a read. -/
def readLine (a : Nat) : Line := ⟨false, a, 0⟩

/-- The line of a write. -/
def writeLine (a : Nat) (w : Word) : Line := ⟨true, a, w.toNat⟩

/-- The line that each operation is written as (R84, R89). -/
def Instr.line : Instr → Line
  | .rdId => readLine 0x00
  | .rdStatus => readLine 0x01
  | .rdErr => readLine 0x02
  | .wrErr w => writeLine 0x02 w
  | .rdConfig => readLine 0x03
  | .wrConfig w => writeLine 0x03 w
  | .rdRem => readLine 0x04
  | .wrBlock w => writeLine 0x08 w
  | .wrFrame w => writeLine 0x09 w
  | .rdIn0 => readLine 0x0A
  | .wrIn0 w => writeLine 0x0A w
  | .rdIn1 => readLine 0x0B
  | .wrIn1 w => writeLine 0x0B w
  | .rdOut0 => readLine 0x0C
  | .rdOut1 => readLine 0x0D
  | .rdGr => readLine 0x0E
  | .rdRoomsize => readLine 0x10
  | .wrRoomsize w => writeLine 0x10 w
  | .rdWidth => readLine 0x11
  | .wrWidth w => writeLine 0x11 w
  | .rdDry => readLine 0x12
  | .wrDry w => writeLine 0x12 w
  | .rdWet => readLine 0x13
  | .wrWet w => writeLine 0x13 w
  | .rdMode => readLine 0x14
  | .wrMode w => writeLine 0x14 w
  | .rdPlayrate => readLine 0x15
  | .wrPlayrate w => writeLine 0x15 w
  | .rdBcAmount => readLine 0x20
  | .wrBcAmount w => writeLine 0x20 w
  | .rdBcLfoRate => readLine 0x21
  | .wrBcLfoRate w => writeLine 0x21 w
  | .rdBcLfoDepth => readLine 0x22
  | .wrBcLfoDepth w => writeLine 0x22 w
  | .rdBcPostmix => readLine 0x23
  | .wrBcPostmix w => writeLine 0x23 w
  | .wrBcLfoRst w => writeLine 0x24 w
  | .rdDecBits => readLine 0x28
  | .wrDecBits w => writeLine 0x28 w
  | .rdDecRate => readLine 0x29
  | .wrDecRate w => writeLine 0x29 w
  | .rdFltCutoff => readLine 0x30
  | .wrFltCutoff w => writeLine 0x30 w
  | .rdFltRes => readLine 0x31
  | .wrFltRes w => writeLine 0x31 w
  | .rdFltLfoRate => readLine 0x32
  | .wrFltLfoRate w => writeLine 0x32 w
  | .rdFltLfoDepth => readLine 0x33
  | .wrFltLfoDepth w => writeLine 0x33 w
  | .wrFltLfoRst w => writeLine 0x34 w

/-- A well-formed instruction: its line passes every check. -/
def Instr.wellFormed (i : Instr) : Bool := i.line.wellFormed

end Sys2Proof
end

