-- ==== Sys2Proof/Decode.lean ====
section
/-! DEFINITION. The decoder, total on every 41-bit transaction, and after it the encoder (spec/30_encoding.md R80 to
R86, spec/60_exceptions.md R291). -/

namespace Sys2Proof

/-- Why a transaction spells no operation. Each is raised as E_ADDR by the machine (R291); none stops it. -/
inductive DecodeError where
  /-- ADDR is not one of the thirty defined addresses (R85). -/
  | reservedAddress
  /-- A write of a read-only register (R86). -/
  | writeOfReadOnly
  /-- A read of a write-only register (R86). -/
  | readOfWriteOnly
deriving DecidableEq, Repr

/-- Bit 40, W: true for a write (R80). -/
def xactWrite (x : Xact) : Bool := x.getLsbD 40

/-- Bits 39:32, ADDR (R80). -/
def xactAddr (x : Xact) : RegAddr := x.extractLsb' 32 8

/-- Bits 31:0, DATA (R80). -/
def xactData (x : Xact) : Word := x.extractLsb' 0 32

/-- Bits 40:32, all that a decoder needs to know the operation (R80). -/
def xactOpcode (x : Xact) : BitVec 9 := x.extractLsb' 32 9

/-- `ro(a)` of R291: ID, STATUS, REM, OUT0, OUT1, GR. -/
def isReadOnlyAddr (a : RegAddr) : Bool :=
  [0x00#8, 0x01#8, 0x04#8, 0x0C#8, 0x0D#8, 0x0E#8].contains a

/-- `wo(a)` of R291: BLOCK, FRAME, BC_LFORST, FLT_LFORST. -/
def isWriteOnlyAddr (a : RegAddr) : Bool :=
  [0x08#8, 0x09#8, 0x24#8, 0x34#8].contains a

/-- `reserved(a)` of R291, by the ranges of R85. -/
def isReservedAddr (a : RegAddr) : Bool :=
  let n := a.toNat
  (0x05 ≤ n && n ≤ 0x07) || n == 0x0F || (0x16 ≤ n && n ≤ 0x1F) || (0x25 ≤ n && n ≤ 0x27) ||
    (0x2A ≤ n && n ≤ 0x2F) || (0x35 ≤ n && n ≤ 0xFF)

/-- Which refusal a transaction outside the opcode map meets (R85, R86). -/
def decodeErrorOf (x : Xact) : DecodeError :=
  if isReservedAddr (xactAddr x) then .reservedAddress
  else if xactWrite x then .writeOfReadOnly
  else .readOfWriteOnly

/-- The opcode map (R84): the operation that an opcode `{W, ADDR}` and a DATA word spell. -/
def opcodeMap (opcode : Nat) (w : Word) : Option Instr :=
  match opcode with
  | 0x000 => some .rdId
  | 0x001 => some .rdStatus
  | 0x002 => some .rdErr
  | 0x102 => some (.wrErr w)
  | 0x003 => some .rdConfig
  | 0x103 => some (.wrConfig w)
  | 0x004 => some .rdRem
  | 0x108 => some (.wrBlock w)
  | 0x109 => some (.wrFrame w)
  | 0x00A => some .rdIn0
  | 0x10A => some (.wrIn0 w)
  | 0x00B => some .rdIn1
  | 0x10B => some (.wrIn1 w)
  | 0x00C => some .rdOut0
  | 0x00D => some .rdOut1
  | 0x00E => some .rdGr
  | 0x010 => some .rdRoomsize
  | 0x110 => some (.wrRoomsize w)
  | 0x011 => some .rdWidth
  | 0x111 => some (.wrWidth w)
  | 0x012 => some .rdDry
  | 0x112 => some (.wrDry w)
  | 0x013 => some .rdWet
  | 0x113 => some (.wrWet w)
  | 0x014 => some .rdMode
  | 0x114 => some (.wrMode w)
  | 0x015 => some .rdPlayrate
  | 0x115 => some (.wrPlayrate w)
  | 0x020 => some .rdBcAmount
  | 0x120 => some (.wrBcAmount w)
  | 0x021 => some .rdBcLfoRate
  | 0x121 => some (.wrBcLfoRate w)
  | 0x022 => some .rdBcLfoDepth
  | 0x122 => some (.wrBcLfoDepth w)
  | 0x023 => some .rdBcPostmix
  | 0x123 => some (.wrBcPostmix w)
  | 0x124 => some (.wrBcLfoRst w)
  | 0x028 => some .rdDecBits
  | 0x128 => some (.wrDecBits w)
  | 0x029 => some .rdDecRate
  | 0x129 => some (.wrDecRate w)
  | 0x030 => some .rdFltCutoff
  | 0x130 => some (.wrFltCutoff w)
  | 0x031 => some .rdFltRes
  | 0x131 => some (.wrFltRes w)
  | 0x032 => some .rdFltLfoRate
  | 0x132 => some (.wrFltLfoRate w)
  | 0x033 => some .rdFltLfoDepth
  | 0x133 => some (.wrFltLfoDepth w)
  | 0x134 => some (.wrFltLfoRst w)
  | _ => none

/-- The decoder (R81): DATA is the operand of a write and is not examined on a read. -/
def decode (x : Xact) : Except DecodeError Instr :=
  match opcodeMap (xactOpcode x).toNat (xactData x) with
  | some i => .ok i
  | none => .error (decodeErrorOf x)

/-- The opcode `XACT[40:32]` of each operation (R84). -/
def Instr.opcode : Instr → BitVec 9
  | .rdId => 0x000#9
  | .rdStatus => 0x001#9
  | .rdErr => 0x002#9
  | .wrErr _ => 0x102#9
  | .rdConfig => 0x003#9
  | .wrConfig _ => 0x103#9
  | .rdRem => 0x004#9
  | .wrBlock _ => 0x108#9
  | .wrFrame _ => 0x109#9
  | .rdIn0 => 0x00A#9
  | .wrIn0 _ => 0x10A#9
  | .rdIn1 => 0x00B#9
  | .wrIn1 _ => 0x10B#9
  | .rdOut0 => 0x00C#9
  | .rdOut1 => 0x00D#9
  | .rdGr => 0x00E#9
  | .rdRoomsize => 0x010#9
  | .wrRoomsize _ => 0x110#9
  | .rdWidth => 0x011#9
  | .wrWidth _ => 0x111#9
  | .rdDry => 0x012#9
  | .wrDry _ => 0x112#9
  | .rdWet => 0x013#9
  | .wrWet _ => 0x113#9
  | .rdMode => 0x014#9
  | .wrMode _ => 0x114#9
  | .rdPlayrate => 0x015#9
  | .wrPlayrate _ => 0x115#9
  | .rdBcAmount => 0x020#9
  | .wrBcAmount _ => 0x120#9
  | .rdBcLfoRate => 0x021#9
  | .wrBcLfoRate _ => 0x121#9
  | .rdBcLfoDepth => 0x022#9
  | .wrBcLfoDepth _ => 0x122#9
  | .rdBcPostmix => 0x023#9
  | .wrBcPostmix _ => 0x123#9
  | .wrBcLfoRst _ => 0x124#9
  | .rdDecBits => 0x028#9
  | .wrDecBits _ => 0x128#9
  | .rdDecRate => 0x029#9
  | .wrDecRate _ => 0x129#9
  | .rdFltCutoff => 0x030#9
  | .wrFltCutoff _ => 0x130#9
  | .rdFltRes => 0x031#9
  | .wrFltRes _ => 0x131#9
  | .rdFltLfoRate => 0x032#9
  | .wrFltLfoRate _ => 0x132#9
  | .rdFltLfoDepth => 0x033#9
  | .wrFltLfoDepth _ => 0x133#9
  | .wrFltLfoRst _ => 0x134#9

/-- The DATA word of each operation: the operand of a write; a read is written with DATA zero (R90). -/
def Instr.operand : Instr → Word
  | .rdId => 0#32
  | .rdStatus => 0#32
  | .rdErr => 0#32
  | .wrErr w => w
  | .rdConfig => 0#32
  | .wrConfig w => w
  | .rdRem => 0#32
  | .wrBlock w => w
  | .wrFrame w => w
  | .rdIn0 => 0#32
  | .wrIn0 w => w
  | .rdIn1 => 0#32
  | .wrIn1 w => w
  | .rdOut0 => 0#32
  | .rdOut1 => 0#32
  | .rdGr => 0#32
  | .rdRoomsize => 0#32
  | .wrRoomsize w => w
  | .rdWidth => 0#32
  | .wrWidth w => w
  | .rdDry => 0#32
  | .wrDry w => w
  | .rdWet => 0#32
  | .wrWet w => w
  | .rdMode => 0#32
  | .wrMode w => w
  | .rdPlayrate => 0#32
  | .wrPlayrate w => w
  | .rdBcAmount => 0#32
  | .wrBcAmount w => w
  | .rdBcLfoRate => 0#32
  | .wrBcLfoRate w => w
  | .rdBcLfoDepth => 0#32
  | .wrBcLfoDepth w => w
  | .rdBcPostmix => 0#32
  | .wrBcPostmix w => w
  | .wrBcLfoRst w => w
  | .rdDecBits => 0#32
  | .wrDecBits w => w
  | .rdDecRate => 0#32
  | .wrDecRate w => w
  | .rdFltCutoff => 0#32
  | .wrFltCutoff w => w
  | .rdFltRes => 0#32
  | .wrFltRes w => w
  | .rdFltLfoRate => 0#32
  | .wrFltLfoRate w => w
  | .rdFltLfoDepth => 0#32
  | .wrFltLfoDepth w => w
  | .wrFltLfoRst w => w

/-- The encoder (R80): `{W, ADDR, DATA}`. -/
def encode (i : Instr) : Xact := i.opcode ++ i.operand

/-- The transaction that a table word of `nbits` bits spells: one word, bit 0 least significant, 41 bits wide. A word
with a bit above bit 40 is no transaction (log 13). -/
def tableXact (nbits w : Nat) : Option Xact :=
  if w % 2 ^ nbits < 2 ^ 41 then some (BitVec.ofNat 41 (w % 2 ^ nbits)) else none

/-- The instruction the decoder reads from a word of spec/opcode_table.json. -/
def decodeTableWord (nbits w : Nat) : Option Instr :=
  match tableXact nbits w with
  | none => none
  | some x =>
    match decode x with
    | .ok i => some i
    | .error _ => none

end Sys2Proof
end

