-- ==== Sys2Proof/Machine/State.lean ====
section
/-! DEFINITION. The state of the block as plain data (spec/10_state.md R20), the reasons a step can stop, and the
state after hardware reset (R57, spec/70_reset_and_hazards.md R320). -/

namespace Sys2Proof.Machine

/-- The lifecycle state `S.life` (R21). -/
inductive Life where
  | idle
  | active
deriving DecidableEq, Repr

/-- The four error causes, in the order of their codes (R290). -/
inductive ErrCause where
  /-- E_ADDR, code 0 (R291) -/
  | addr
  /-- E_SEQ, code 1 (R292) -/
  | seq
  /-- E_CFG, code 2 (R293) -/
  | cfg
  /-- E_NONFIN, code 3 (R294) -/
  | nonfin
deriving DecidableEq, Repr

/-- One word of an internal memory: its index and its contents. The unit is the 32-bit word: the block has no byte
addresses and no byte order (R61, R62; log 7). -/
abbrev WordCell := Nat × Word

/-- An internal memory (R60), sparse: an index that is not listed reads as `Memory.unlisted`. -/
structure Memory where
  cells : List WordCell
deriving DecidableEq, Repr

/-- What an unlisted word reads as: the word `0x00000000` that an accepted CONFIG writes everywhere (R75, R246). Between
hardware reset and CONFIG the contents are unspecified and never read (log 5). -/
def Memory.unlisted : Word := 0#32

/-- The canonical form: indices strictly rising, no listed word equal to what an unlisted one reads as. -/
abbrev Memory.wf (m : Memory) : Prop :=
  m.cells.Pairwise (fun p q => p.1 < q.1) ∧ ∀ p ∈ m.cells, p.2 ≠ Memory.unlisted

/-- A memory with every word at `Memory.unlisted`. -/
def Memory.cleared : Memory := ⟨[]⟩

/-- One comb filter of one lane (R48): COMB(k,c), `S.cidx[k][c]`, `S.cstore[k][c]`. -/
structure Comb where
  mem : Memory
  idx : Nat
  store : Word
deriving DecidableEq, Repr

/-- One allpass filter of one lane (R49): AP(j,c), `S.aidx[j][c]`. -/
structure Allpass where
  mem : Memory
  idx : Nat
deriving DecidableEq, Repr

/-- One lane's copy of the per-channel state (R17): combs and allpasses in the order of their numbers, TAIL(c) (R50),
`S.dcnt[c]`, `S.dheld[c]` (R52), `S.ic1[c]`, `S.ic2[c]` (R53). -/
structure Lane where
  combs : Vector Comb 8
  aps : Vector Allpass 4
  tail : Memory
  dcnt : Nat
  dheld : Word
  ic1 : Word
  ic2 : Word
deriving DecidableEq, Repr

/-- A lane with every memory word, index, store, counter and integrator zero: what CONFIG writes (R246). -/
def Lane.cleared : Lane :=
  let c : Comb := ⟨.cleared, 0, 0#32⟩
  let a : Allpass := ⟨.cleared, 0⟩
  ⟨#v[c, c, c, c, c, c, c, c], #v[a, a, a, a], .cleared, 0, 0#32, 0#32, 0#32⟩

/-- The sixteen parameter registers (R30 to R45). MODE and BC_POSTMIX hold one bit; their reserved bits are not held
(R34, R39, R47). -/
structure Params where
  roomsize : Word
  width : Word
  dry : Word
  wet : Word
  mode : BitVec 1
  playrate : Word
  bcAmount : Word
  bcLfoRate : Word
  bcLfoDepth : Word
  bcPostmix : BitVec 1
  decBits : Word
  decRate : Word
  fltCutoff : Word
  fltRes : Word
  fltLfoRate : Word
  fltLfoDepth : Word
deriving DecidableEq, Repr

/-- The three latched filter coefficients `S.a1`, `S.a2`, `S.a3` (R53). -/
structure Coef where
  a1 : Word
  a2 : Word
  a3 : Word
deriving DecidableEq, Repr

/-- What can happen at the block's boundary (R80, R320; log 1, log 12). -/
inductive PortEvent where
  /-- the host presents a transaction on the port -/
  | xact (x : Xact)
  /-- the hardware reset input is pulsed -/
  | hardwareReset
deriving DecidableEq, Repr

/-- The one reason a step can stop with a fault. The hardware has none (R299): no state of the block reached from
hardware reset raises it. -/
inductive Fault where
  /-- An accepted WR.FRAME would read or write a word at or beyond the length of a delay or tail memory, which R66
  says is never read or written. Raised by `execWrFrame` alone, before any change of state. Safe (log 8). -/
  | noSuchMemoryWord
deriving DecidableEq, Repr

/-- The reasons a step can be refused. -/
inductive Refusal where
  /-- No meaning has been written for the instruction. Raised by `exec` alone; no arm of it raises it now. Safe. -/
  | notModelled (mnemonic : String)
deriving DecidableEq, Repr

/-- The complete state (R20). -/
structure State where
  /-- `S.life` (R21) -/
  life : Life
  /-- `S.fs`, sample rate in hertz (R27) -/
  fs : BitVec 24
  /-- `S.nch`, channel count (R27) -/
  nch : BitVec 2
  /-- REM, frames still to be processed in the open block (R22) -/
  rem : BitVec 16
  /-- `S.numin` (R22) -/
  numin : BitVec 2
  /-- `S.numout` (R22) -/
  numout : BitVec 2
  /-- IN0 (R23) -/
  in0 : Word
  /-- IN1 (R23) -/
  in1 : Word
  /-- OUT0 (R23) -/
  out0 : Word
  /-- OUT1 (R23) -/
  out1 : Word
  /-- ERR bits 3:0: E_NONFIN, E_CFG, E_SEQ, E_ADDR (R25); bits 31:4 hold nothing -/
  err : BitVec 4
  /-- the parameter registers (R30 to R45) -/
  params : Params
  /-- `S.bcph`, phase of LFO_BC (R51) -/
  bcph : Word
  /-- `S.flph`, phase of LFO_FLT (R51) -/
  flph : Word
  /-- the latched filter coefficients (R53) -/
  coef : Coef
  /-- `S.env`, limiter envelope (R54) -/
  env : Word
  /-- `S.tw`, tail write index (R50) -/
  tw : Nat
  /-- `S.trp`, tail read position (R50) -/
  trp : Word
  /-- the state of lane 0 (R48 to R53) -/
  lane0 : Lane
  /-- the state of lane 1 (R48 to R53) -/
  lane1 : Lane
  /-- THE MODEL'S OWN: the events presented and not yet performed, oldest first (R16, R69; log 1) -/
  port : List PortEvent
  /-- THE MODEL'S OWN: the answer to the last event, RDATA for a read and nothing otherwise (R80, R83; log 2) -/
  resp : Option Word
deriving DecidableEq, Repr

/-- The parameter registers while they hold no value (R57); zero is the model's choice (log 3). -/
def Params.unset : Params :=
  ⟨0#32, 0#32, 0#32, 0#32, 0#1, 0#32, 0#32, 0#32, 0#32, 0#1, 0#32, 0#32, 0#32, 0#32, 0#32, 0#32⟩

/-- The machine right after hardware reset (R57, R320). `fs`, `nch`, the parameter registers and the internal
signal-processing state have no value there and cannot be read; the model's zeros are log 3, log 4 and log 5. -/
def State.reset : State where
  life := .idle
  fs := 0#24
  nch := 0#2
  rem := 0#16
  numin := 0#2
  numout := 0#2
  in0 := 0#32
  in1 := 0#32
  out0 := 0#32
  out1 := 0#32
  err := 0#4
  params := .unset
  bcph := 0#32
  flph := 0#32
  coef := ⟨0#32, 0#32, 0#32⟩
  env := 0#32
  tw := 0
  trp := 0#32
  lane0 := .cleared
  lane1 := .cleared
  port := []
  resp := none

end Sys2Proof.Machine
end

