-- ==== Sys2Proof/Machine/Flags.lean ====
section
/-! DEFINITION. The error flags and the words that are views of other state (spec/10_state.md R24, R25, R27;
spec/60_exceptions.md R290, R297). -/

namespace Sys2Proof.Machine

/-- The code of a cause, which is its bit of ERR (R290). -/
def ErrCause.code : ErrCause → Nat
  | .addr => 0
  | .seq => 1
  | .cfg => 2
  | .nonfin => 3

/-- `1 << code` on ERR's four flags (R297). -/
def ErrCause.mask (c : ErrCause) : BitVec 4 := 1#4 <<< c.code

/-- `x[ERR] or (1 << code)` (R297). -/
def errSet (c : ErrCause) (err : BitVec 4) : BitVec 4 := err ||| c.mask

/-- `x[ERR] and not zext_32(w[3:0])` on ERR's four flags (R265). -/
def errClear (mask err : BitVec 4) : BitVec 4 := err &&& ~~~mask

/-- The word that a read of ERR answers: bits 31:4 are zero (R25, R264). -/
def errView (s : State) : Word := s.err.setWidth 32

/-- STATUS (R24, R263): bit 0 ACTIVE, bit 1 INBLOCK, bits 3:2 NCH, bit 4 FREEZE; zero in IDLE. -/
def statusView (s : State) : Word :=
  match s.life with
  | .idle => 0#32
  | .active =>
    let inblock : BitVec 1 := if s.rem = 0#16 then 0#1 else 1#1
    (s.params.mode ++ s.nch ++ inblock ++ 1#1 : BitVec 5).setWidth 32

/-- What a read of CONFIG answers (R27, R247): `{0b000000, nch, fs}` when ACTIVE, zero in IDLE. -/
def configView (s : State) : Word :=
  match s.life with
  | .idle => 0#32
  | .active => (s.nch ++ s.fs : BitVec 26).setWidth 32

/-- What a read of REM answers (R22, R266): bits 31:16 are zero. -/
def remView (s : State) : Word := s.rem.setWidth 32

/-- Whether a WR.CONFIG is rejected: FS or NCH out of range (R246, R293). -/
def configRejected (cfg : Config) (fs : BitVec 24) (nch : BitVec 2) : Bool :=
  decide (fs.toNat < cfg.fsMin) || decide (cfg.fsMax < fs.toNat) || decide (nch.toNat = 0) ||
    decide (cfg.maxCh < nch.toNat)

end Sys2Proof.Machine
end

