-- ==== Sys2Proof/Machine/Ops.lean ====
section
/-! DEFINITION. The named operations over the internal memories, the port and the error flags. Raising an error
(spec/00_scope.md R15, spec/60_exceptions.md R297) is the block's whole exception entry and is written once, here; its
return is the acknowledge of R298, `acknowledge`. -/

namespace Sys2Proof.Machine

/-! ### Internal memories (R14, R60, R67) -/

/-- The word a list of cells holds at an index; an index not listed reads as `Memory.unlisted`. -/
def readCells : List WordCell → Nat → Word
  | [], _ => Memory.unlisted
  | (k, v) :: rest, a => if a = k then v else readCells rest a

/-- The cells after one word is stored: sorted insertion that never lists a word equal to `Memory.unlisted`. -/
def writeCells : List WordCell → Nat → Word → List WordCell
  | [], a, w => if w = Memory.unlisted then [] else [(a, w)]
  | (k, v) :: rest, a, w =>
    if a < k then (if w = Memory.unlisted then (k, v) :: rest else (a, w) :: (k, v) :: rest)
    else if a = k then (if w = Memory.unlisted then rest else (a, w) :: rest)
    else (k, v) :: writeCells rest a w

/-- `MemRead(M + i, 4)` (R14). -/
def Memory.read (m : Memory) (i : Nat) : Word := readCells m.cells i

/-- `MemWrite(M + i, 4, w)` (R14). -/
def Memory.write (m : Memory) (i : Nat) (w : Word) : Memory := ⟨writeCells m.cells i w⟩

/-- Index advance, `(i + 1) mod L` (R13). -/
def nextIndex (i len : Nat) : Nat := (i + 1) % len

/-- `DLEN(t, fs) = floor((2 t fs + 44100) / 88200)` (R13): a tuning constant scaled to the sample rate. -/
def dlen (cfg : Config) (tuning : Nat) (fs : BitVec 24) : Nat :=
  (2 * tuning * fs.toNat + cfg.refRate) / (2 * cfg.refRate)

/-- `FS_F = i2f(S.fs)` (R27). -/
def fsF (fs : BitVec 24) : Word := i2f fs.toNat

/-- Combines two vectors place by place. -/
def zipPlaces {α β γ : Type} {n : Nat} (f : α → β → γ) (a : Vector α n) (b : Vector β n) : Vector γ n :=
  ⟨(List.zipWith f a.toList b.toList).toArray, by simp⟩

/-- Applies a function at every place of a vector. -/
def mapPlaces {α β : Type} {n : Nat} (f : α → β) (a : Vector α n) : Vector β n :=
  ⟨(a.toList.map f).toArray, by simp⟩

/-! ### The port's answers (R80, R83) -/

/-- A read answers one word. -/
def answer (d : Word) (s : State) : State := { s with resp := some d }

/-- A write answers nothing. -/
def acknowledge (s : State) : State := { s with resp := none }

/-! ### Errors (R15, R297) -/

/-- `flag E_X`: sets the sticky bit and lets the transaction continue (R15). -/
def flagError (c : ErrCause) (s : State) : State := { s with err := errSet c s.err }

/-- `raise E_X`: sets the sticky bit and ends the transaction with no other change; a read answers zero (R15, R297). -/
def raiseError (c : ErrCause) (isRead : Bool) (s : State) : State :=
  if isRead then answer 0#32 (flagError c s) else acknowledge (flagError c s)

/-- The error acknowledge, the block's only "return" (R298, R265): clears the flags written as one. -/
def clearErrors (mask : BitVec 4) (s : State) : State := { s with err := errClear mask s.err }

/-! ### Admission of a transaction (R292, R296) -/

/-- A read of a register at or above `0x08`: refused with E_SEQ in IDLE (R292 a), else it answers the register's word
and changes nothing (R64). -/
def readActive (v : State → Word) (s : State) : State :=
  match s.life with
  | .idle => raiseError .seq true s
  | .active => answer (v s) s

/-- A write of a register at or above `0x08`: refused with E_SEQ in IDLE (R292 a), else it has its effect. -/
def writeActive (effect : State → State) (s : State) : State :=
  match s.life with
  | .idle => raiseError .seq false s
  | .active => acknowledge (effect s)

/-- Stores into the parameter registers, nothing else. -/
def setParams (p : Params) (s : State) : State := { s with params := p }

/-! ### The port (R16, R69, R320) -/

/-- Presents a transaction as the next one to be performed. -/
def present (x : Xact) (s : State) : State := { s with port := .xact x :: s.port }

/-- Takes the oldest event off the port. -/
def takeEvent (s : State) : Option (PortEvent × State) :=
  match s.port with
  | [] => none
  | e :: rest => some (e, { s with port := rest })

/-- A transaction outside the opcode map: E_ADDR, and nothing else (R85, R86, R291). -/
def refuseXact (x : Xact) (s : State) : State := raiseError .addr (!xactWrite x) s

/-- Hardware reset (R320): the state right after reset, with the events still waiting on the port. -/
def hardwareReset (s : State) : State := { State.reset with port := s.port }

end Sys2Proof.Machine
end

