-- ==== Sys2Proof/Machine/BitCrusher.lean ====
section
/-! DEFINITION. The BitCrusher (spec/44_bitcrusher.md) and the operations on its four registers. -/

namespace Sys2Proof.Machine

/-- `BCBITS` (R170): the target bit depth of an amount. -/
def bcBits (cfg : Config) (amount : Word) : Int :=
  cfg.bcMaxBits - f2i (roundHaz (fmul amount (i2f ((cfg.bcMaxBits : Int) - cfg.bcMinBits))))

/-- `SCALE[n]`, 1 ≤ n ≤ 32 (R183). -/
def scaleRom (cfg : Config) (n : Nat) : Word := cfg.scale.getD (n - 1) posZero

/-- `QUANT(x, n)` (R171), shared with the Decimator. -/
def quant (cfg : Config) (x : Word) (n : Nat) : Word :=
  if n = 0 then x
  else if n = 1 then (if fge x posZero then fOne else fMinusOne)
  else
    let sc := scaleRom cfg n
    clamp (fdiv (roundHaz (fmul x sc)) sc) fMinusOne fOne

/-- `bm` (R172): the modulated depth of a frame, from the value `lb` of LFO_BC. -/
def modulatedDepth (cfg : Config) (p : Params) (lb : Word) : Nat :=
  let t := fmul (fmul p.bcLfoDepth lb) cfg.bcModSpan
  (clampi (f2i (roundHaz (fadd (i2f (bcBits cfg p.bcAmount)) t))) cfg.bcMinBits cfg.bcMaxBits).toNat

/-- `BC(x)` (R173). -/
def crush (cfg : Config) (bm : Nat) (x : Word) : Word := quant cfg x bm

/-- WR.BC_AMOUNT (R175). -/
def execWrBcAmount (w : Word) (s : State) : Host.Outcome State Fault Refusal :=
  .next (writeActive (fun s => setParams { s.params with bcAmount := unitOperand w } s) s)

/-- RD.BC_AMOUNT (R176). -/
def execRdBcAmount (s : State) : Host.Outcome State Fault Refusal :=
  .next (readActive (fun s => s.params.bcAmount) s)

/-- WR.BC_LFORATE (R177): does not touch the phase. -/
def execWrBcLfoRate (w : Word) (s : State) : Host.Outcome State Fault Refusal :=
  .next (writeActive (fun s => setParams { s.params with bcLfoRate := rateOperand fogpad w } s) s)

/-- RD.BC_LFORATE (R178). -/
def execRdBcLfoRate (s : State) : Host.Outcome State Fault Refusal :=
  .next (readActive (fun s => s.params.bcLfoRate) s)

/-- WR.BC_LFODEPTH (R179). -/
def execWrBcLfoDepth (w : Word) (s : State) : Host.Outcome State Fault Refusal :=
  .next (writeActive (fun s => setParams { s.params with bcLfoDepth := unitOperand w } s) s)

/-- RD.BC_LFODEPTH (R180). -/
def execRdBcLfoDepth (s : State) : Host.Outcome State Fault Refusal :=
  .next (readActive (fun s => s.params.bcLfoDepth) s)

/-- WR.BC_POSTMIX (R181). -/
def execWrBcPostmix (w : Word) (s : State) : Host.Outcome State Fault Refusal :=
  .next (writeActive (fun s => setParams { s.params with bcPostmix := flagOperand w } s) s)

/-- RD.BC_POSTMIX (R182). -/
def execRdBcPostmix (s : State) : Host.Outcome State Fault Refusal :=
  .next (readActive (fun s => s.params.bcPostmix.setWidth 32) s)

end Sys2Proof.Machine
end

