-- ==== Sys2Proof/Machine/Decimator.lean ====
section
/-! DEFINITION. The Decimator (spec/45_decimator.md) and the operations on DEC_BITS and DEC_RATE. -/

namespace Sys2Proof.Machine

/-- `HOLDFOR` (R190). -/
def holdFor (cfg : Config) (rate : Word) : Nat := (f2i (roundHaz (fmul rate (i2f cfg.maxHold)))).toNat

/-- `DEC(c, x)` (R191), with the requantiser of R192: its output and the lane after it. -/
def decimate (cfg : Config) (p : Params) (x : Word) (l : Lane) : Word × Lane :=
  let hold := holdFor cfg p.decRate
  if hold = 0 then (x, { l with dcnt := 0 })
  else if l.dcnt = 0 then
    let held := quant cfg x p.decBits.toNat
    (held, { l with dheld := held, dcnt := hold })
  else (l.dheld, { l with dcnt := l.dcnt - 1 })

/-- WR.DEC_BITS (R193): the word is an unsigned integer. -/
def execWrDecBits (w : Word) (s : State) : Host.Outcome State Fault Refusal :=
  .next (writeActive (fun s => setParams { s.params with decBits := bitsOperand fogpad w } s) s)

/-- RD.DEC_BITS (R194). -/
def execRdDecBits (s : State) : Host.Outcome State Fault Refusal :=
  .next (readActive (fun s => s.params.decBits) s)

/-- WR.DEC_RATE (R195): touches no counter and no held sample. -/
def execWrDecRate (w : Word) (s : State) : Host.Outcome State Fault Refusal :=
  .next (writeActive (fun s => setParams { s.params with decRate := unitOperand w } s) s)

/-- RD.DEC_RATE (R196). -/
def execRdDecRate (s : State) : Host.Outcome State Fault Refusal :=
  .next (readActive (fun s => s.params.decRate) s)

end Sys2Proof.Machine
end

