-- ==== Sys2Proof/Machine/Lfo.lean ====
section
/-! DEFINITION. The modulation oscillators (spec/40_lfo.md): the sine ROM, its interpolated lookup, the phase step, and
the operations WR.BC_LFORST and WR.FLT_LFORST. -/

namespace Sys2Proof.Machine

/-- `SINE[i]` for `i` below TABLE_LEN, from the first quadrant by symmetry (R101). -/
def sineRom (cfg : Config) (i : Nat) : Word :=
  let quarter := cfg.tableLen / 4
  let half (j : Nat) : Word := cfg.sineQuadrant.getD (if j ≤ quarter then j else 2 * quarter - j) posZero
  if i ≤ 2 * quarter then half i else fneg (half (i - 2 * quarter))

/-- `SINLOOKUP(p)` (R102). -/
def sinLookup (cfg : Config) (p : Word) : Word :=
  let pos := fmul p (i2f cfg.tableLen)
  let fl := ffloor pos
  let i := f2i fl
  let fr := fsub pos fl
  let a := sineRom cfg (i % (cfg.tableLen : Int)).toNat
  let b := sineRom cfg ((i + 1) % (cfg.tableLen : Int)).toNat
  fadd a (fmul fr (fsub b a))

/-- `LFO_VALUE(ph)` (R103). -/
def lfoValue (cfg : Config) (ph : Word) : Word := sinLookup cfg ph

/-- `LFO_STEP(ph, rate)` (R104). -/
def lfoStep (fs : BitVec 24) (ph rate : Word) : Word :=
  let p := fadd ph (fdiv rate (fsF fs))
  if fge p fOne then fsub p (ffloor p) else p

/-- WR.BC_LFORST (R106): DATA is ignored; restarts the phase of LFO_BC. -/
def execWrBcLfoRst (_w : Word) (s : State) : Host.Outcome State Fault Refusal :=
  .next (writeActive (fun s => { s with bcph := posZero }) s)

/-- WR.FLT_LFORST (R107): DATA is ignored; restarts the phase of LFO_FLT and leaves the latched coefficients. -/
def execWrFltLfoRst (_w : Word) (s : State) : Host.Outcome State Fault Refusal :=
  .next (writeActive (fun s => { s with flph := posZero }) s)

end Sys2Proof.Machine
end

