-- ==== Sys2Proof/Machine/Filter.lean ====
section
/-! DEFINITION. The modulated resonant filter (spec/46_filter.md) and the operations on its four registers. -/

namespace Sys2Proof.Machine

/-- `fc` of R206: the modulated cutoff, clamped. -/
def modulatedCutoff (cfg : Config) (p : Params) (flph : Word) : Word :=
  let lv := lfoValue cfg flph
  clamp (fadd p.fltCutoff (fmul (fmul p.fltLfoDepth lv) cfg.filterModRange)) cfg.filterMinFreq cfg.filterMaxFreq

/-- `FLT_COEF` (R206): the coefficients from the parameters, the phase of LFO_FLT and the sample rate. -/
def filterCoef (cfg : Config) (fs : BitVec 24) (p : Params) (flph : Word) : Coef :=
  let fc := modulatedCutoff cfg p flph
  let ph := fdiv fc (fmul fTwo (fsF fs))
  let s := sinLookup cfg ph
  let c := sinLookup cfg (fadd ph fQuarter)
  let g := fdiv s c
  let k := fdiv fOne p.fltRes
  let a1 := fdiv fOne (fadd fOne (fmul g (fadd g k)))
  let a2 := fmul g a1
  ⟨a1, a2, fmul g a2⟩

/-- Latches the coefficients of the state's own parameters, phase and rate (R207). -/
def latchCoef (cfg : Config) (s : State) : State := { s with coef := filterCoef cfg s.fs s.params s.flph }

/-- `FLT(c, x)` (R208): the low-pass output and the lane after the two integrator updates. -/
def filterStep (k : Coef) (x : Word) (l : Lane) : Word × Lane :=
  let v3 := fsub x l.ic2
  let v1 := fadd (fmul k.a1 l.ic1) (fmul k.a2 v3)
  let v2 := fadd l.ic2 (fadd (fmul k.a2 l.ic1) (fmul k.a3 v3))
  (v2, { l with ic1 := fsub (fmul fTwo v1) l.ic1, ic2 := fsub (fmul fTwo v2) l.ic2 })

/-- WR.FLT_CUTOFF (R210): the latched coefficients stay. -/
def execWrFltCutoff (w : Word) (s : State) : Host.Outcome State Fault Refusal :=
  .next (writeActive (fun s => setParams { s.params with fltCutoff := cutoffOperand fogpad w } s) s)

/-- RD.FLT_CUTOFF (R211): the base cutoff. -/
def execRdFltCutoff (s : State) : Host.Outcome State Fault Refusal :=
  .next (readActive (fun s => s.params.fltCutoff) s)

/-- WR.FLT_RES (R212). -/
def execWrFltRes (w : Word) (s : State) : Host.Outcome State Fault Refusal :=
  .next (writeActive (fun s => setParams { s.params with fltRes := resonanceOperand fogpad w } s) s)

/-- RD.FLT_RES (R213). -/
def execRdFltRes (s : State) : Host.Outcome State Fault Refusal :=
  .next (readActive (fun s => s.params.fltRes) s)

/-- WR.FLT_LFORATE (R214): does not touch the phase. -/
def execWrFltLfoRate (w : Word) (s : State) : Host.Outcome State Fault Refusal :=
  .next (writeActive (fun s => setParams { s.params with fltLfoRate := rateOperand fogpad w } s) s)

/-- RD.FLT_LFORATE (R215). -/
def execRdFltLfoRate (s : State) : Host.Outcome State Fault Refusal :=
  .next (readActive (fun s => s.params.fltLfoRate) s)

/-- WR.FLT_LFODEPTH (R216). -/
def execWrFltLfoDepth (w : Word) (s : State) : Host.Outcome State Fault Refusal :=
  .next (writeActive (fun s => setParams { s.params with fltLfoDepth := unitOperand w } s) s)

/-- RD.FLT_LFODEPTH (R217). -/
def execRdFltLfoDepth (s : State) : Host.Outcome State Fault Refusal :=
  .next (readActive (fun s => s.params.fltLfoDepth) s)

end Sys2Proof.Machine
end

