-- ==== Sys2Proof/Machine/Limiter.lean ====
section
/-! DEFINITION. The limiter (spec/47_limiter.md) and the operation RD.GR. -/

namespace Sys2Proof.Machine

/-- The smoothing coefficient of a time constant of `tau` seconds (R230). -/
def smoothing (fs : BitVec 24) (tau : Word) : Word := fmin1 (fdiv fOne (fmul tau (fsF fs))) fOne

/-- `LIM_ATT` (R230). -/
def attackCoef (cfg : Config) (fs : BitVec 24) : Word := smoothing fs cfg.limAttackS

/-- `LIM_REL` (R230). -/
def releaseCoef (cfg : Config) (fs : BitVec 24) : Word := smoothing fs cfg.limReleaseS

/-- `peak` with one lane (R231). -/
def peakMono (mix0 : Word) : Word := fabs mix0

/-- `peak` with two lanes (R231): the larger magnitude. -/
def peakStereo (mix0 mix1 : Word) : Word := if fgt (fabs mix1) (fabs mix0) then fabs mix1 else fabs mix0

/-- The gain of a frame and the envelope after it, from the peak of the mix (R231). -/
def limiterGain (cfg : Config) (fs : BitVec 24) (peak env : Word) : Word × Word :=
  if fgt peak cfg.limThreshold then
    let tgt := fdiv cfg.limThreshold peak
    let env' := if flt tgt env then fadd env (fmul (attackCoef cfg fs) (fsub tgt env)) else env
    (if flt tgt env' then tgt else env', env')
  else
    let e := fadd env (fmul (releaseCoef cfg fs) (fsub fOne env))
    let env' := if fle e fOne then e else fOne
    (env', env')

/-- RD.GR (R232): the smoothed envelope. -/
def execRdGr (s : State) : Host.Outcome State Fault Refusal := .next (readActive (fun s => s.env) s)

end Sys2Proof.Machine
end

