-- ==== Sys2Proof/Machine/Allpass.lean ====
section
/-! DEFINITION. The allpass chain (spec/42_allpass.md). -/

namespace Sys2Proof.Machine

/-- `AP_STEP(j, c, a)` on one allpass of length `len` (R136): its output and its new state. -/
def apStep (cfg : Config) (len : Nat) (a : Word) (u : Allpass) : Word × Allpass :=
  let d := u.mem.read u.idx
  (fsub d a, { mem := u.mem.write u.idx (fadd a (fmul d cfg.apFb)), idx := nextIndex u.idx len })

/-- `ALEN[j]` for every `j` (R49, R135). -/
def apLens (cfg : Config) (fs : BitVec 24) : Vector Nat 4 := mapPlaces (fun t => dlen cfg t fs) cfg.apTuning

/-- `AP_CHAIN(c, a0)` (R137): the output of allpass 3, and the four allpasses after the step. -/
def apChain (cfg : Config) (fs : BitVec 24) (a0 : Word) (us : Vector Allpass 4) : Word × Vector Allpass 4 :=
  let lens := apLens cfg fs
  let r0 := apStep cfg lens[0] a0 us[0]
  let r1 := apStep cfg lens[1] r0.1 us[1]
  let r2 := apStep cfg lens[2] r1.1 us[2]
  let r3 := apStep cfg lens[3] r2.1 us[3]
  (r3.1, #v[r0.2, r1.2, r2.2, r3.2])

end Sys2Proof.Machine
end

