-- ==== Sys2Proof/Machine/Comb.lean ====
section
/-! DEFINITION. The comb filter bank, room size and freeze (spec/41_comb.md), and the operations on ROOMSIZE and MODE. -/

namespace Sys2Proof.Machine

/-- `COMB_STEP(k, c, tin, fb, dmp)` on one comb of length `len` (R121): its output and its new state. -/
def combStep (len : Nat) (tin fb dmp : Word) (u : Comb) : Word × Comb :=
  let d := u.mem.read u.idx
  let st := fadd (fmul d (fsub fOne dmp)) (fmul u.store dmp)
  (d, { mem := u.mem.write u.idx (fadd tin (fmul st fb)), idx := nextIndex u.idx len, store := st })

/-- `CLEN[k]` for every `k` (R48, R120). -/
def combLens (cfg : Config) (fs : BitVec 24) : Vector Nat 8 := mapPlaces (fun t => dlen cfg t fs) cfg.combTuning

/-- The sum of R122, from comb 0 on, left to right. -/
def sumInOrder : List Word → Word
  | [] => posZero
  | o :: os => os.foldl fadd o

/-- `COMB_BANK(c, tin, fb, dmp)` (R122): the scaled sum of the eight outputs, and the eight combs after the step. -/
def combBank (cfg : Config) (fs : BitVec 24) (tin fb dmp : Word) (us : Vector Comb 8) : Word × Vector Comb 8 :=
  let rs := zipPlaces (fun len u => combStep len tin fb dmp u) (combLens cfg fs) us
  (fmul (sumInOrder (rs.toList.map Prod.fst)) cfg.combGain, mapPlaces Prod.snd rs)

/-- `FB` (R123): the comb feedback of a room size. -/
def feedback (cfg : Config) (roomsize : Word) : Word := fadd (fmul roomsize cfg.roomScale) cfg.roomOffset

/-- What the comb bank is given in a frame: `tin`, `fb`, `dmp` (R124). -/
structure CombDrive where
  tin : Word
  fb : Word
  dmp : Word
deriving DecidableEq, Repr

/-- The choice of R124: frozen when MODE's bit 0 is one. -/
def combDrive (cfg : Config) (p : Params) (xin : Word) : CombDrive :=
  if p.mode = 1#1 then ⟨posZero, cfg.freezeFb, cfg.freezeDamp⟩ else ⟨xin, feedback cfg p.roomsize, cfg.damp⟩

/-- WR.ROOMSIZE (R125). -/
def execWrRoomsize (w : Word) (s : State) : Host.Outcome State Fault Refusal :=
  .next (writeActive (fun s => setParams { s.params with roomsize := unitOperand w } s) s)

/-- RD.ROOMSIZE (R126). -/
def execRdRoomsize (s : State) : Host.Outcome State Fault Refusal :=
  .next (readActive (fun s => s.params.roomsize) s)

/-- WR.MODE (R127). -/
def execWrMode (w : Word) (s : State) : Host.Outcome State Fault Refusal :=
  .next (writeActive (fun s => setParams { s.params with mode := flagOperand w } s) s)

/-- RD.MODE (R128): only bit 0 can read as one. -/
def execRdMode (s : State) : Host.Outcome State Fault Refusal :=
  .next (readActive (fun s => s.params.mode.setWidth 32) s)

end Sys2Proof.Machine
end

