-- ==== Sys2Proof/Machine/Tank.lean ====
section
/-! DEFINITION. The reverb tank, the wobble tap, the width and dry/wet mix (spec/43_tank_wobble.md), and the operations
on WIDTH, DRY, WET and PLAYRATE. -/

namespace Sys2Proof.Machine

/-- `TANK(c, x)` (R145): the wet signal of a lane before the tap, and the lane after its combs and allpasses. -/
def tank (cfg : Config) (fs : BitVec 24) (p : Params) (xin : Word) (l : Lane) : Word × Lane :=
  let drv := combDrive cfg p xin
  let bank := combBank cfg fs drv.tin drv.fb drv.dmp l.combs
  let chain := apChain cfg fs bank.1 l.aps
  (chain.1, { l with combs := bank.2, aps := chain.2 })

/-- `i0` of R146: the integer part of the read position. -/
def tapIndex (trp : Word) : Int := f2i (ffloor trp)

/-- The interpolated read of R146, from a tail memory already written in this frame. -/
def tapRead (cfg : Config) (trp : Word) (m : Memory) : Word :=
  let fr := fsub trp (ffloor trp)
  let i0 := (tapIndex trp).toNat
  let a := m.read i0
  let b := m.read (nextIndex i0 cfg.tailLen)
  if feq fr posZero then a else fadd a (fmul fr (fsub b a))

/-- `TAP(c, ap)` (R146): write at `S.tw`, then read at `S.trp`. -/
def tap (cfg : Config) (tw : Nat) (trp : Word) (ap : Word) (l : Lane) : Word × Lane :=
  let m := l.tail.write tw ap
  (tapRead cfg trp m, { l with tail := m })

/-- `MRATE` (R148). -/
def playMultiplier (cfg : Config) (playrate : Word) : Word := fmax1 (fmul fTwo playrate) cfg.rateEps

/-- The advance of `S.trp` (R147). -/
def advanceReadPos (cfg : Config) (playrate trp : Word) : Word :=
  let rp := fadd trp (playMultiplier cfg playrate)
  if fge rp (i2f cfg.tailLen) then fsub rp (i2f cfg.tailLen) else rp

/-- `G1` (R149). -/
def widthGain1 (width : Word) : Word := fadd fHalf (fmul fHalf width)

/-- `G2` (R149). -/
def widthGain2 (width : Word) : Word := fsub fHalf (fmul fHalf width)

/-- One output of `WIDTHMIX` with two lanes (R150): a lane's own sample by G1 and the other lane's by G2. -/
def widthMix (width own other : Word) : Word :=
  fadd (fmul own (widthGain1 width)) (fmul other (widthGain2 width))

/-- `DRYWET(c)` (R151). -/
def dryWet (p : Params) (xin pw : Word) : Word := fadd (fmul p.dry xin) (fmul p.wet pw)

/-- WR.WIDTH (R152). -/
def execWrWidth (w : Word) (s : State) : Host.Outcome State Fault Refusal :=
  .next (writeActive (fun s => setParams { s.params with width := unitOperand w } s) s)

/-- RD.WIDTH (R153). -/
def execRdWidth (s : State) : Host.Outcome State Fault Refusal :=
  .next (readActive (fun s => s.params.width) s)

/-- WR.DRY (R154). -/
def execWrDry (w : Word) (s : State) : Host.Outcome State Fault Refusal :=
  .next (writeActive (fun s => setParams { s.params with dry := unitOperand w } s) s)

/-- RD.DRY (R155). -/
def execRdDry (s : State) : Host.Outcome State Fault Refusal :=
  .next (readActive (fun s => s.params.dry) s)

/-- WR.WET (R156). -/
def execWrWet (w : Word) (s : State) : Host.Outcome State Fault Refusal :=
  .next (writeActive (fun s => setParams { s.params with wet := unitOperand w } s) s)

/-- RD.WET (R157). -/
def execRdWet (s : State) : Host.Outcome State Fault Refusal :=
  .next (readActive (fun s => s.params.wet) s)

/-- WR.PLAYRATE (R158): does not move the read position. -/
def execWrPlayrate (w : Word) (s : State) : Host.Outcome State Fault Refusal :=
  .next (writeActive (fun s => setParams { s.params with playrate := unitOperand w } s) s)

/-- RD.PLAYRATE (R159). -/
def execRdPlayrate (s : State) : Host.Outcome State Fault Refusal :=
  .next (readActive (fun s => s.params.playrate) s)

end Sys2Proof.Machine
end

