-- ==== Sys2Proof/Machine/Orchestrator.lean ====
section
/-! DEFINITION. The orchestrator (spec/48_orchestrator.md): construction, the block protocol, the frame operation and the
system registers. -/

namespace Sys2Proof.Machine

/-! ### Construction (R246) -/

/-- The parameter registers after an accepted CONFIG (R30 to R45, R57). -/
def paramsAtConfig : Params where
  roomsize := 0x3F000000#32
  width := 0x3F800000#32
  dry := 0x3F000000#32
  wet := 0x3F000000#32
  mode := 0#1
  playrate := 0x3F000000#32
  bcAmount := 0x00000000#32
  bcLfoRate := 0x3DCCCCCD#32
  bcLfoDepth := 0x00000000#32
  bcPostmix := 0#1
  decBits := 0x00000020#32
  decRate := 0x00000000#32
  fltCutoff := 0x461C4000#32
  fltRes := 0x3DCCCCCD#32
  fltLfoRate := 0x3DCCCCCD#32
  fltLfoDepth := 0x00000000#32

/-- The state an accepted CONFIG constructs (R246, R321): all of it but ERR and the port is a function of FS and NCH. -/
def construct (cfg : Config) (fs : BitVec 24) (nch : BitVec 2) (s : State) : State :=
  latchCoef cfg
    { life := .active
      fs := fs
      nch := nch
      rem := 0#16
      numin := 0#2
      numout := 0#2
      in0 := 0#32
      in1 := 0#32
      out0 := 0#32
      out1 := 0#32
      err := s.err
      params := paramsAtConfig
      bcph := posZero
      flph := posZero
      coef := s.coef
      env := fOne
      tw := 0
      trp := posZero
      lane0 := .cleared
      lane1 := .cleared
      port := s.port
      resp := none }

/-- The state a rejected CONFIG leaves (R246, R293): the hardware-reset column of R57, with E_CFG set beside the flags
that stood (log 6). -/
def rejectConfig (s : State) : State :=
  flagError .cfg { State.reset with err := s.err, port := s.port }

/-- WR.CONFIG (R246). -/
def execWrConfig (w : Word) (s : State) : Host.Outcome State Fault Refusal :=
  if configRejected fogpad (configFs w) (configNch w) then .next (rejectConfig s)
  else .next (construct fogpad (configFs w) (configNch w) s)

/-- RD.CONFIG (R247): legal in IDLE. -/
def execRdConfig (s : State) : Host.Outcome State Fault Refusal := .next (answer (configView s) s)

/-! ### The block protocol (R248 to R252) -/

/-- The E_SEQ note of a BLOCK written while a block is open (R248, R292 c). -/
def noteOpenBlock (s : State) : State := if s.rem = 0#16 then s else flagError .seq s

/-- What an admitted BLOCK does (R248). -/
def openBlock (cfg : Config) (w : Word) (s : State) : State :=
  latchCoef cfg
    { noteOpenBlock s with
      numin := blockNumin cfg w, numout := blockNumout cfg w, rem := blockFrames w }

/-- WR.BLOCK (R248). -/
def execWrBlock (w : Word) (s : State) : Host.Outcome State Fault Refusal :=
  .next (writeActive (openBlock fogpad w) s)

/-- WR.IN0 (R249): the raw word. -/
def execWrIn0 (w : Word) (s : State) : Host.Outcome State Fault Refusal :=
  .next (writeActive (fun s => { s with in0 := w }) s)

/-- RD.IN0 (R250). -/
def execRdIn0 (s : State) : Host.Outcome State Fault Refusal := .next (readActive (fun s => s.in0) s)

/-- WR.IN1 (R251): the raw word. -/
def execWrIn1 (w : Word) (s : State) : Host.Outcome State Fault Refusal :=
  .next (writeActive (fun s => { s with in1 := w }) s)

/-- RD.IN1 (R252). -/
def execRdIn1 (s : State) : Host.Outcome State Fault Refusal := .next (readActive (fun s => s.in1) s)

/-! ### The frame operation (R253 to R259) -/

/-- Whether lane 1 is in use: NCH is 2 (R17). -/
def stereo (s : State) : Bool := s.nch == 2#2

/-- The word the input mapping selects for lane `c` (R254). -/
def inputWord (s : State) (c : Nat) : Word :=
  if s.numin = 0#2 then 0#32
  else if c < s.numin.toNat then (if c = 0 then s.in0 else s.in1)
  else s.in0

/-- `xin[c]` of R254: the selected word, or +0.0 where it is not finite. -/
def inputSample (s : State) (c : Nat) : Word := if isFinite (inputWord s c) then inputWord s c else posZero

/-- Whether a lane in use selects a word that is not finite (R254, R294). -/
def nonFiniteInput (s : State) : Bool := !isFinite (inputWord s 0) || (stereo s && !isFinite (inputWord s 1))

/-- The wet chain of R174 on a tap sample: BitCrusher first or last. -/
def wetChain (cfg : Config) (p : Params) (k : Coef) (bm : Nat) (x : Word) (l : Lane) : Word × Lane :=
  if p.bcPostmix = 0#1 then
    let d := decimate cfg p (crush cfg bm x) l
    filterStep k d.1 d.2
  else
    let d := decimate cfg p x l
    let f := filterStep k d.1 d.2
    (crush cfg bm f.1, f.2)

/-- `bm` of a frame (R255, R172): from the phase of LFO_BC before its step. -/
def frameDepth (cfg : Config) (s : State) : Nat := modulatedDepth cfg s.params (lfoValue cfg s.bcph)

/-- The wet path of a lane (R256): its filtered wet sample and the lane after the frame. -/
def wetPath (cfg : Config) (s : State) (xin : Word) (l : Lane) : Word × Lane :=
  let t := tank cfg s.fs s.params xin l
  let p := tap cfg s.tw s.trp t.1 t.2
  wetChain cfg s.params s.coef (frameDepth cfg s) p.1 p.2

/-- The wet path of lane 0. -/
def wet0 (cfg : Config) (s : State) : Word × Lane := wetPath cfg s (inputSample s 0) s.lane0

/-- The wet path of lane 1. With one lane it is absent: its state is neither read nor written (R268), and the sample
here is used by nothing. -/
def wet1 (cfg : Config) (s : State) : Word × Lane :=
  if stereo s then wetPath cfg s (inputSample s 1) s.lane1 else (posZero, s.lane1)

/-- `pw[0]` (R150), from the filtered wet samples of the lanes. -/
def processed0 (s : State) (wf0 wf1 : Word) : Word :=
  if stereo s then widthMix s.params.width wf0 wf1 else wf0

/-- `pw[1]` (R150); used with two lanes only. -/
def processed1 (s : State) (wf0 wf1 : Word) : Word := widthMix s.params.width wf1 wf0

/-- `mix[0]` (R257), from the filtered wet samples. -/
def mix0 (s : State) (wf0 wf1 : Word) : Word := dryWet s.params (inputSample s 0) (processed0 s wf0 wf1)

/-- `mix[1]` (R257), from the filtered wet samples; used with two lanes only. -/
def mix1 (s : State) (wf0 wf1 : Word) : Word := dryWet s.params (inputSample s 1) (processed1 s wf0 wf1)

/-- `peak` of a frame (R231), from its mixed samples. -/
def framePeak (s : State) (m0 m1 : Word) : Word := if stereo s then peakStereo m0 m1 else peakMono m0

/-- OUT0 after a frame (R258), from `y[0]`. -/
def output0 (s : State) (y0 : Word) : Word := if 0 < s.numout.toNat then y0 else 0#32

/-- OUT1 after a frame (R258), from `y[0]` and `y[1]`: lane 1 with two lanes, lane 0 again with one. -/
def output1 (s : State) (y0 y1 : Word) : Word :=
  if 1 < s.numout.toNat then (if stereo s then y1 else y0) else 0#32

/-- The end of a frame (R255, R257 to R259, R147) from the wet paths of its lanes: the filtered wet samples and the lanes
after the frame. -/
def finishFrame (cfg : Config) (s : State) (w0 w1 : Word × Lane) : State :=
  let m0 := mix0 s w0.1 w1.1
  let m1 := mix1 s w0.1 w1.1
  let g := limiterGain cfg s.fs (framePeak s m0 m1) s.env
  let y0 := fmul m0 g.1
  let y1 := fmul m1 g.1
  { s with
    err := if nonFiniteInput s then errSet .nonfin s.err else s.err
    bcph := lfoStep s.fs s.bcph s.params.bcLfoRate
    flph := lfoStep s.fs s.flph s.params.fltLfoRate
    lane0 := w0.2
    lane1 := w1.2
    tw := nextIndex s.tw cfg.tailLen
    trp := advanceReadPos cfg s.params.playrate s.trp
    env := g.2
    out0 := output0 s y0
    out1 := output1 s y0 y1
    rem := s.rem - 1#16 }

/-- What an admitted FRAME does (R254 to R259). -/
def frame (cfg : Config) (s : State) : State := finishFrame cfg s (wet0 cfg s) (wet1 cfg s)

/-- Whether every index of a lane is inside its memory (R48, R49). -/
def laneIndicesInRange (cfg : Config) (fs : BitVec 24) (l : Lane) : Bool :=
  (zipPlaces (fun len (u : Comb) => decide (u.idx < len)) (combLens cfg fs) l.combs).toList.all id &&
    (zipPlaces (fun len (u : Allpass) => decide (u.idx < len)) (apLens cfg fs) l.aps).toList.all id

/-- Whether every memory word that a FRAME of this state reads or writes exists (R48 to R50, R66). -/
def frameIndicesInRange (cfg : Config) (s : State) : Bool :=
  laneIndicesInRange cfg s.fs s.lane0 && (!stereo s || laneIndicesInRange cfg s.fs s.lane1) &&
    decide (s.tw < cfg.tailLen) && decide (0 ≤ tapIndex s.trp) && decide (tapIndex s.trp < cfg.tailLen)

/-- WR.FRAME (R253): refused with E_SEQ in IDLE and with no block open; otherwise the frame. An index outside its memory,
which no reachable state holds (R59 b), is the fault `noSuchMemoryWord` (log 8). -/
def execWrFrame (_w : Word) (s : State) : Host.Outcome State Fault Refusal :=
  if s.life = .idle ∨ s.rem = 0#16 then .next (raiseError .seq false s)
  else if frameIndicesInRange fogpad s then .next (acknowledge (frame fogpad s))
  else .fault .noSuchMemoryWord

/-- RD.OUT0 (R260). -/
def execRdOut0 (s : State) : Host.Outcome State Fault Refusal := .next (readActive (fun s => s.out0) s)

/-- RD.OUT1 (R261). -/
def execRdOut1 (s : State) : Host.Outcome State Fault Refusal := .next (readActive (fun s => s.out1) s)

/-! ### System registers (R262 to R266), legal in IDLE -/

/-- RD.ID (R262). -/
def execRdId (s : State) : Host.Outcome State Fault Refusal := .next (answer fogpad.idWord s)

/-- RD.STATUS (R263). -/
def execRdStatus (s : State) : Host.Outcome State Fault Refusal := .next (answer (statusView s) s)

/-- RD.ERR (R264): reading clears nothing. -/
def execRdErr (s : State) : Host.Outcome State Fault Refusal := .next (answer (errView s) s)

/-- WR.ERR (R265): write-one-to-clear. -/
def execWrErr (w : Word) (s : State) : Host.Outcome State Fault Refusal :=
  .next (acknowledge (clearErrors (errMaskOperand w) s))

/-- RD.REM (R266). -/
def execRdRem (s : State) : Host.Outcome State Fault Refusal := .next (answer (remView s) s)

end Sys2Proof.Machine
end

