-- ==== Sys2Proof/Machine/Dispatch.lean ====
section
/-! DEFINITION. The meaning of every operation, one arm per constructor (spec/30_encoding.md R84). -/

namespace Sys2Proof.Machine

def exec (i : Instr) (s : State) : Host.Outcome State Fault Refusal :=
  match i with
  | .rdId => Sys2Proof.Machine.execRdId s
  | .rdStatus => Sys2Proof.Machine.execRdStatus s
  | .rdErr => Sys2Proof.Machine.execRdErr s
  | .wrErr w => Sys2Proof.Machine.execWrErr w s
  | .rdConfig => Sys2Proof.Machine.execRdConfig s
  | .wrConfig w => Sys2Proof.Machine.execWrConfig w s
  | .rdRem => Sys2Proof.Machine.execRdRem s
  | .wrBlock w => Sys2Proof.Machine.execWrBlock w s
  | .wrFrame w => Sys2Proof.Machine.execWrFrame w s
  | .rdIn0 => Sys2Proof.Machine.execRdIn0 s
  | .wrIn0 w => Sys2Proof.Machine.execWrIn0 w s
  | .rdIn1 => Sys2Proof.Machine.execRdIn1 s
  | .wrIn1 w => Sys2Proof.Machine.execWrIn1 w s
  | .rdOut0 => Sys2Proof.Machine.execRdOut0 s
  | .rdOut1 => Sys2Proof.Machine.execRdOut1 s
  | .rdGr => Sys2Proof.Machine.execRdGr s
  | .rdRoomsize => Sys2Proof.Machine.execRdRoomsize s
  | .wrRoomsize w => Sys2Proof.Machine.execWrRoomsize w s
  | .rdWidth => Sys2Proof.Machine.execRdWidth s
  | .wrWidth w => Sys2Proof.Machine.execWrWidth w s
  | .rdDry => Sys2Proof.Machine.execRdDry s
  | .wrDry w => Sys2Proof.Machine.execWrDry w s
  | .rdWet => Sys2Proof.Machine.execRdWet s
  | .wrWet w => Sys2Proof.Machine.execWrWet w s
  | .rdMode => Sys2Proof.Machine.execRdMode s
  | .wrMode w => Sys2Proof.Machine.execWrMode w s
  | .rdPlayrate => Sys2Proof.Machine.execRdPlayrate s
  | .wrPlayrate w => Sys2Proof.Machine.execWrPlayrate w s
  | .rdBcAmount => Sys2Proof.Machine.execRdBcAmount s
  | .wrBcAmount w => Sys2Proof.Machine.execWrBcAmount w s
  | .rdBcLfoRate => Sys2Proof.Machine.execRdBcLfoRate s
  | .wrBcLfoRate w => Sys2Proof.Machine.execWrBcLfoRate w s
  | .rdBcLfoDepth => Sys2Proof.Machine.execRdBcLfoDepth s
  | .wrBcLfoDepth w => Sys2Proof.Machine.execWrBcLfoDepth w s
  | .rdBcPostmix => Sys2Proof.Machine.execRdBcPostmix s
  | .wrBcPostmix w => Sys2Proof.Machine.execWrBcPostmix w s
  | .wrBcLfoRst w => Sys2Proof.Machine.execWrBcLfoRst w s
  | .rdDecBits => Sys2Proof.Machine.execRdDecBits s
  | .wrDecBits w => Sys2Proof.Machine.execWrDecBits w s
  | .rdDecRate => Sys2Proof.Machine.execRdDecRate s
  | .wrDecRate w => Sys2Proof.Machine.execWrDecRate w s
  | .rdFltCutoff => Sys2Proof.Machine.execRdFltCutoff s
  | .wrFltCutoff w => Sys2Proof.Machine.execWrFltCutoff w s
  | .rdFltRes => Sys2Proof.Machine.execRdFltRes s
  | .wrFltRes w => Sys2Proof.Machine.execWrFltRes w s
  | .rdFltLfoRate => Sys2Proof.Machine.execRdFltLfoRate s
  | .wrFltLfoRate w => Sys2Proof.Machine.execWrFltLfoRate w s
  | .rdFltLfoDepth => Sys2Proof.Machine.execRdFltLfoDepth s
  | .wrFltLfoDepth w => Sys2Proof.Machine.execWrFltLfoDepth w s
  | .wrFltLfoRst w => Sys2Proof.Machine.execWrFltLfoRst w s

end Sys2Proof.Machine
end

