-- ==== Sys2Proof/Machine/Step.lean ====
section
/-! DEFINITION. One step: the oldest event on the port is performed whole (spec/20_memory.md R69). -/

namespace Sys2Proof.Machine

/-- One step. With nothing presented the block does nothing (R305, R320). A transaction outside the opcode map is refused
with E_ADDR (R291). -/
def step (s : State) : Host.Outcome State Fault Refusal :=
  match takeEvent s with
  | none => .next s
  | some (.hardwareReset, s') => .next (hardwareReset s')
  | some (.xact x, s') =>
    match decode x with
    | .ok i => exec i s'
    | .error _ => .next (refuseXact x s')

/-- Presents a word of spec/opcode_table.json as the next transaction; a word that is no transaction presents nothing
(log 13). -/
def State.withFetchWord (s : State) (nbits w : Nat) : State :=
  match tableXact nbits w with
  | some x => present x s
  | none => s

end Sys2Proof.Machine
end

