-- ==== Sys2Proof/Safety.lean ====
section
/-! DEFINITION. What the claims speak in: the legal ranges of the registers, the bounds of the internal state and the
invariant of spec/10_state.md R59. -/

namespace Sys2Proof.Machine

/-- A binary32 word that is no NaN and lies between two others by value. -/
abbrev within (lo hi w : Word) : Prop := isNaN w = false ∧ value lo ≤ value w ∧ value w ≤ value hi

/-- A control in [0.0, 1.0]. -/
abbrev inUnit (w : Word) : Prop := within posZero fOne w

/-- A binary32 word that is no NaN and lies in [0, hi) by value. -/
abbrev belowFrom0 (hi w : Word) : Prop := isNaN w = false ∧ 0 ≤ value w ∧ value w < value hi

/-- A comb feedback in the safe stable range [FB_MIN, FB_MAX] (R6, R59 f, R123). -/
abbrev stableFeedback (cfg : Config) (w : Word) : Prop := within cfg.fbMin cfg.fbMax w

/-- Every parameter register holds a legal stored value (R30 to R45, R59 a). -/
structure Params.Legal (cfg : Config) (p : Params) : Prop where
  roomsize : inUnit p.roomsize
  width : inUnit p.width
  dry : inUnit p.dry
  wet : inUnit p.wet
  playrate : inUnit p.playrate
  bcAmount : inUnit p.bcAmount
  bcLfoRate : within cfg.minLfoRate cfg.maxLfoRate p.bcLfoRate
  bcLfoDepth : inUnit p.bcLfoDepth
  decBits : p.decBits.toNat ≤ cfg.decMaxBits
  decRate : inUnit p.decRate
  fltCutoff : within cfg.filterMinFreq cfg.filterMaxFreq p.fltCutoff
  fltRes : within cfg.filterMinRes cfg.filterMaxRes p.fltRes
  fltLfoRate : within cfg.minLfoRate cfg.maxLfoRate p.fltLfoRate
  fltLfoDepth : inUnit p.fltLfoDepth

/-- Every listed word of a memory has an index below `len`. -/
abbrev Memory.below (len : Nat) (m : Memory) : Prop := ∀ p ∈ m.cells, p.1 < len

/-- Every memory of a lane is in canonical form. -/
structure Lane.MemoriesWf (l : Lane) : Prop where
  combs : ∀ k : Fin 8, l.combs[k].mem.wf
  aps : ∀ j : Fin 4, l.aps[j].mem.wf
  tail : l.tail.wf

/-- Every index of a lane is inside its memory, no memory holds a word beyond its length, and the hold counter is at
most MAX_HOLD (R48, R49, R52, R59 b and d). -/
structure Lane.Bounded (cfg : Config) (fs : BitVec 24) (l : Lane) : Prop where
  combIdx : ∀ k : Fin 8, l.combs[k].idx < (combLens cfg fs)[k]
  combMem : ∀ k : Fin 8, l.combs[k].mem.below (combLens cfg fs)[k]
  apIdx : ∀ j : Fin 4, l.aps[j].idx < (apLens cfg fs)[j]
  apMem : ∀ j : Fin 4, l.aps[j].mem.below (apLens cfg fs)[j]
  tailMem : l.tail.below cfg.tailLen
  dcnt : l.dcnt ≤ cfg.maxHold

/-- Every internal memory is in canonical form, in every state. -/
structure State.MemoriesWf (s : State) : Prop where
  lane0 : s.lane0.MemoriesWf
  lane1 : s.lane1.MemoriesWf

/-- What holds of an ACTIVE state (R59): (a) the parameters, (b) indices and positions, (c) phases, (d) hold counters,
(e) the envelope, and the accepted configuration (R27). -/
structure State.ActiveInv (cfg : Config) (s : State) : Prop where
  fsLow : cfg.fsMin ≤ s.fs.toNat
  fsHigh : s.fs.toNat ≤ cfg.fsMax
  nch : s.nch = 1#2 ∨ s.nch = 2#2
  params : s.params.Legal cfg
  lane0 : s.lane0.Bounded cfg s.fs
  lane1 : s.lane1.Bounded cfg s.fs
  tw : s.tw < cfg.tailLen
  trp : belowFrom0 (i2f cfg.tailLen) s.trp
  bcph : belowFrom0 fOne s.bcph
  flph : belowFrom0 fOne s.flph
  env : inUnit s.env

/-- What holds of an IDLE state: no block is open and the data registers are zero (R57, R300). -/
structure State.IdleInv (s : State) : Prop where
  rem : s.rem = 0#16
  numin : s.numin = 0#2
  numout : s.numout = 0#2
  in0 : s.in0 = 0#32
  in1 : s.in1 = 0#32
  out0 : s.out0 = 0#32
  out1 : s.out1 = 0#32

/-- The invariant of the block (R22, R57, R59). -/
structure State.Inv (s : State) : Prop where
  memories : s.MemoriesWf
  numin : s.numin.toNat ≤ 2
  numout : s.numout.toNat ≤ 2
  idle : s.life = .idle → s.IdleInv
  active : s.life = .active → s.ActiveInv fogpad

/-- Whether an operation is a read (R80). -/
def isReadInstr (i : Instr) : Bool := !i.line.write

/-- The register address of an operation (R84). -/
def instrAddr (i : Instr) : Nat := i.line.addr

end Sys2Proof.Machine
end

