-- ==== Sys2Proof/Certificates/Slice0/Obligations.lean ====
section
/-! DEFINITION. The statements put to the provers. Each docstring names the rule of spec/ that the statement formalises;
where a clause is the model's own choice it says so and names the log entry. Throughout, `resp` is the model's latch of the
port's answer (R80, R83; log 2) and `port` the events presented and not yet performed (R69; log 1). -/

open Sys2Proof Sys2Proof.Machine

namespace Sys2Proof.Claims

/-- A register read: in ACTIVE it answers `v s` and changes nothing else; in IDLE it is refused with E_SEQ and answers
zero (R292 a). -/
def ReadsActive (i : Instr) (v : State → Word) : Prop :=
  ∀ s : State,
    (s.life = .active → exec i s = .next { s with resp := some (v s) }) ∧
      (s.life = .idle → exec i s = .next { s with err := s.err ||| 0b0010#4, resp := some 0x00000000#32 })

/-- A register write: in ACTIVE it has the effect `f` and answers nothing; in IDLE it is refused with E_SEQ (R292 a). -/
def WritesActive (i : Instr) (f : State → State) : Prop :=
  ∀ s : State,
    (s.life = .active → exec i s = .next { f s with resp := none }) ∧
      (s.life = .idle → exec i s = .next { s with err := s.err ||| 0b0010#4, resp := none })

/-- A CONFIG word that is accepted (R246): FS from 44100 to 192000, NCH 1 or 2. -/
def Accepted (w : Word) : Prop :=
  44100 ≤ (w.extractLsb' 0 24).toNat ∧ (w.extractLsb' 0 24).toNat ≤ 192000 ∧
    (w.extractLsb' 24 2 = 1#2 ∨ w.extractLsb' 24 2 = 2#2)

/-- A channel count of BLOCK, above MAXCH saturated to 2 (R248). -/
def saturatedCount (n : BitVec 4) : BitVec 2 := if 2 < n.toNat then 2#2 else n.setWidth 2

/-- The parameter registers after an accepted CONFIG, in the words of R30 to R45. -/
def resetParams : Params where
  roomsize := 0x3F000000#32
  width := 0x3F800000#32
  dry := 0x3F000000#32
  wet := 0x3F000000#32
  mode := 0#1
  playrate := 0x3F000000#32
  bcAmount := 0x00000000#32
  bcLfoRate := 0x3DCCCCCD#32
  bcLfoDepth := 0x00000000#32
  bcPostmix := 0#1
  decBits := 0x00000020#32
  decRate := 0x00000000#32
  fltCutoff := 0x461C4000#32
  fltRes := 0x3DCCCCCD#32
  fltLfoRate := 0x3DCCCCCD#32
  fltLfoDepth := 0x00000000#32

/-- A WR.FRAME of this state is admitted: ACTIVE, a block open (R253), NCH 1 or 2 as CONFIG accepts it (R27), and every index
inside its memory (R59 b, R66). It holds in every ACTIVE state of the invariant with a block open
(`Obligations.FrameIsPerformedUnderTheInvariant`); what the model does with another NCH or index is log 8 and is claimed
nowhere. -/
def Admitted (s : State) : Prop :=
  s.life = .active ∧ s.rem ≠ 0#16 ∧ (s.nch = 1#2 ∨ s.nch = 2#2) ∧ frameIndicesInRange fogpad s = true

/-- The lanes in use before and after a frame: lane 0, and lane 1 when NCH is 2 (R17). -/
def LaneInUse (s t : State) (c : Nat) (l l' : Lane) : Prop :=
  (c = 0 ∧ l = s.lane0 ∧ l' = t.lane0) ∨ (c = 1 ∧ s.nch = 2#2 ∧ l = s.lane1 ∧ l' = t.lane1)

/-- The input word R254 selects for lane `c`. -/
def selectedWord (s : State) (c : Nat) : Word :=
  if s.numin = 0#2 then 0x00000000#32
  else if c < s.numin.toNat then (if c = 0 then s.in0 else s.in1)
  else s.in0

/-- A word whose exponent field is 0xFF: a NaN or an infinity (R294). -/
def NonFinite (w : Word) : Prop := w.extractLsb' 23 8 = 0xFF#8

end Sys2Proof.Claims

open Sys2Proof.Claims

/-! ### Encoding -/

/-- R80, R81, R84: the decoder reads back every operation from its encoding, with every operand; also through the numbering
of spec/opcode_table.json. -/
def Obligations.DecodeOfEncodeIsTheInstruction : Prop :=
  ∀ i : Instr, i.wellFormed = true ∧ decode (encode i) = .ok i ∧ decodeTableWord 48 (encode i).toNat = some i

/-- R81: a decoded transaction has the opcode of its operation; a write is exactly its encoding, and of a read the DATA
field is not examined. -/
def Obligations.EncodeOfDecodeIsTheTransaction : Prop :=
  (∀ (x : Xact) (i : Instr), decode x = .ok i →
      xactOpcode (encode i) = xactOpcode x ∧ (xactWrite x = true → encode i = x)) ∧
    ∀ x y : Xact, xactWrite x = false → xactOpcode x = xactOpcode y → decode x = decode y

/-- Words written out in the spec's own rules (R90, R246, R248, R249, R251, R260, R261, R265), and one per remaining family from
the fields of R80. -/
def Obligations.SpecWordsDecode : Prop :=
  decode 0x1123F800000#41 = .ok (.wrDry 0x3F800000#32) ∧
    decode 0x00C00000000#41 = .ok .rdOut0 ∧
    decode 0x00D00000000#41 = .ok .rdOut1 ∧
    decode 0x1030200AC44#41 = .ok (.wrConfig 0x0200AC44#32) ∧
    decode 0x10800220400#41 = .ok (.wrBlock 0x00220400#32) ∧
    decode 0x10A3F800000#41 = .ok (.wrIn0 0x3F800000#32) ∧
    decode 0x10BBF000000#41 = .ok (.wrIn1 0xBF000000#32) ∧
    decode 0x1020000000F#41 = .ok (.wrErr 0x0000000F#32) ∧
    decode 0x11400000001#41 = .ok (.wrMode 0x00000001#32) ∧
    decode 0x12400000000#41 = .ok (.wrBcLfoRst 0x00000000#32) ∧
    decode 0x12800000008#41 = .ok (.wrDecBits 0x00000008#32) ∧
    decode 0x13041F00000#41 = .ok (.wrFltCutoff 0x41F00000#32) ∧
    decode 0x00E12345678#41 = .ok .rdGr

/-- R291, R85, R86: E_ADDR is raised on exactly the reserved addresses, writes of read-only and reads of write-only
registers, in every state, with no other effect, and a read answers zero. Every other transaction spells an operation
(R81, R84) and leaves ERR bit 0 alone, but that WR.ERR clears it where it is written as one (R265, R296). The forms of the
port and of the answer are log 1 and log 2. -/
def Obligations.EAddrExactlyOutsideTheOpcodeMap : Prop :=
  ∀ (s : State) (x : Xact) (rest : List PortEvent), s.port = .xact x :: rest →
    let a := x.extractLsb' 32 8
    let kind := x.getLsbD 40
    let reserved := a ∉ [0x00#8, 0x01#8, 0x02#8, 0x03#8, 0x04#8, 0x08#8, 0x09#8, 0x0A#8, 0x0B#8, 0x0C#8, 0x0D#8, 0x0E#8,
      0x10#8, 0x11#8, 0x12#8, 0x13#8, 0x14#8, 0x15#8, 0x20#8, 0x21#8, 0x22#8, 0x23#8, 0x24#8, 0x28#8, 0x29#8, 0x30#8,
      0x31#8, 0x32#8, 0x33#8, 0x34#8]
    let ro := a ∈ [0x00#8, 0x01#8, 0x04#8, 0x0C#8, 0x0D#8, 0x0E#8]
    let wo := a ∈ [0x08#8, 0x09#8, 0x24#8, 0x34#8]
    let refused := reserved ∨ (kind = true ∧ ro) ∨ (kind = false ∧ wo)
    (refused → step s = .next { s with
        port := rest
        err := s.err ||| 0b0001#4
        resp := if kind then none else some 0x00000000#32 }) ∧
      (¬refused → ∃ i, decode x = .ok i ∧ ∀ t, step s = .next t →
        ((∀ w, i ≠ .wrErr w) → t.err.getLsbD 0 = s.err.getLsbD 0) ∧
        ∀ w, i = .wrErr w → t.err.getLsbD 0 = (s.err.getLsbD 0 && !w.getLsbD 0))

/-! ### The step -/

/-- R69, R81: the step performs the operation the oldest presented transaction decodes to, on the state with that
transaction taken off the port. -/
def Obligations.StepRunsTheDecodedInstruction : Prop :=
  ∀ (s : State) (x : Xact) (rest : List PortEvent) (i : Instr),
    s.port = .xact x :: rest → decode x = .ok i → step s = exec i { s with port := rest }

/-- R69: events are taken one at a time, in the order presented, and no operation presents or drops one; with nothing
presented the block does nothing (R305; log 1). -/
def Obligations.EventsAreTakenInOrder : Prop :=
  (∀ s t : State, step s = .next t → t.port = s.port.tail) ∧ ∀ s : State, s.port = [] → step s = .next s

/-- R320 and the hardware-reset column of R57, the values the spec gives, after a reset pulse and in `State.reset`. That a
reset is an event taken between transactions is the model's reading (log 12). -/
def Obligations.HardwareResetLeavesTheSpecsValues : Prop :=
  (∀ (s : State) (rest : List PortEvent), s.port = .hardwareReset :: rest →
      ∃ t, step s = .next t ∧ t = { State.reset with port := rest }) ∧
    State.reset.life = .idle ∧ State.reset.err = 0#4 ∧ State.reset.rem = 0#16 ∧
    State.reset.numin = 0#2 ∧ State.reset.numout = 0#2 ∧
    State.reset.in0 = 0#32 ∧ State.reset.in1 = 0#32 ∧ State.reset.out0 = 0#32 ∧ State.reset.out1 = 0#32 ∧
    (∀ t : State, t = { State.reset with port := t.port } →
      exec .rdStatus t = .next { t with resp := some 0x00000000#32 } ∧
      exec .rdConfig t = .next { t with resp := some 0x00000000#32 } ∧
      exec .rdId t = .next { t with resp := some 0x46475031#32 })

/-! ### The machine as a whole -/

/-- R57, R59: the invariant holds right after hardware reset. -/
def Obligations.InvariantHoldsAtReset : Prop := State.reset.Inv

/-- R59 (a) to (e), R57, R22: every step keeps the invariant: parameters legal, indices and positions inside their
memories, phases in [0, 1), hold counters at most 64, the envelope in [0, 1], an IDLE block with no block open and its data
registers zero, memories in canonical form (the last is the model's own form, log 7). Of R59 (e) the lower bound is 0
inclusive, which holds without its proviso. -/
def Obligations.EveryStepKeepsTheInvariant : Prop :=
  ∀ s t : State, s.Inv → step s = .next t → t.Inv

/-- R299: there is no state from which the block stops answering: from the invariant any number of steps completes. -/
def Obligations.RunsNeverStopUnderTheInvariant : Prop :=
  ∀ (k : Nat) (s : State), s.Inv → ∃ t : State, Sys2Proof.core.run k s = .next t ∧ t.Inv

/-- The model's own form of an internal memory (log 7) is kept by every step, from every state. -/
def Obligations.MemoriesKeepTheirCanonicalForm : Prop :=
  ∀ s t : State, s.MemoriesWf → step s = .next t → t.MemoriesWf

/-- R21: hardware reset and a rejected CONFIG put the block in IDLE, an accepted CONFIG in ACTIVE, nothing else changes
the lifecycle state, and STATUS bit 0 shows it. -/
def Obligations.OnlyConfigAndResetChangeTheLifecycle : Prop :=
  ∀ s t : State, step s = .next t →
    exec .rdStatus t = .next { t with resp := some (statusView t) } ∧
    (statusView t).getLsbD 0 = decide (t.life = .active) ∧
    (s.port = [] → t.life = s.life) ∧
    (∀ rest, s.port = .hardwareReset :: rest → t.life = .idle) ∧
    ∀ x rest, s.port = .xact x :: rest →
      (∀ w, decode x = .ok (.wrConfig w) →
        (Accepted w → t.life = .active) ∧ (¬Accepted w → t.life = .idle)) ∧
      ((∀ w, decode x ≠ .ok (.wrConfig w)) → t.life = s.life)

/-- R25: a flag once set is cleared only by a write of ERR with a one in its bit or by hardware reset. -/
def Obligations.ErrorFlagsAreSticky : Prop :=
  ∀ (s t : State) (k : Nat), step s = .next t → s.err.getLsbD k = true → t.err.getLsbD k = false →
    (∃ rest, s.port = .hardwareReset :: rest) ∨
      ∃ x rest w, s.port = .xact x :: rest ∧ decode x = .ok (.wrErr w) ∧ w.getLsbD k = true

/-- R296, R297: one transaction sets at most one flag, and only WR.ERR clears any. -/
def Obligations.OneTransactionSetsAtMostOneFlag : Prop :=
  ∀ (s t : State) (x : Xact) (rest : List PortEvent), s.port = .xact x :: rest → step s = .next t →
    (∀ w, decode x ≠ .ok (.wrErr w)) →
    t.err = s.err ∨ ∃ k, k < 4 ∧ t.err = s.err ||| (1#4 <<< k)

/-- R25: no flag changes what any later transaction does: two states that differ in ERR alone step alike, ERR aside; RD.ERR,
which answers the flags, is left out. -/
def Obligations.ErrorFlagsInfluenceNothing : Prop :=
  ∀ (s : State) (e : BitVec 4), (∀ x rest, s.port = .xact x :: rest → decode x ≠ .ok .rdErr) →
    (∃ t t' : State, step s = .next t ∧ step { s with err := e } = .next t' ∧
        { t with err := 0#4 } = { t' with err := 0#4 }) ∨
      ∃ f, step s = .fault f ∧ step { s with err := e } = .fault f

/-- R64: a read changes no state but the answer, and repeated it answers the same; a refused read sets E_SEQ and that is
its only effect. -/
def Obligations.ReadsHaveNoSideEffect : Prop :=
  ∀ (i : Instr) (s : State), i.line.write = false →
    ∃ d : Word,
      let t : State := { s with
        err := if s.life = .idle ∧ 8 ≤ i.line.addr then s.err ||| 0b0010#4 else s.err
        resp := some d }
      exec i s = .next t ∧ exec i t = .next t

/-- R64, R207, R248, R325: what the operations other than WR.FRAME and WR.CONFIG leave alone: the signal state and the
outputs always; the coefficients and the sequencer but for WR.BLOCK; each phase but for its restart. -/
def Obligations.OnlyCommandsTouchTheSignalState : Prop :=
  ∀ (i : Instr) (s t : State), exec i s = .next t → (∀ w, i ≠ .wrFrame w) → (∀ w, i ≠ .wrConfig w) →
    t.lane0 = s.lane0 ∧ t.lane1 = s.lane1 ∧ t.env = s.env ∧ t.tw = s.tw ∧ t.trp = s.trp ∧
    t.out0 = s.out0 ∧ t.out1 = s.out1 ∧ t.fs = s.fs ∧ t.nch = s.nch ∧ t.life = s.life ∧
    ((∀ w, i ≠ .wrBlock w) →
      t.coef = s.coef ∧ t.rem = s.rem ∧ t.numin = s.numin ∧ t.numout = s.numout) ∧
    ((∀ w, i ≠ .wrBcLfoRst w) → t.bcph = s.bcph) ∧ ((∀ w, i ≠ .wrFltLfoRst w) → t.flph = s.flph)

/-- R321: the state after an accepted CONFIG is a function of the CONFIG word alone, ERR aside (and the model's port, which
holds the transactions to come, log 1). -/
def Obligations.ConfigIsAFunctionOfItsWord : Prop :=
  ∀ (w : Word) (s s' t t' : State), Accepted w →
    exec (.wrConfig w) s = .next t → exec (.wrConfig w) s' = .next t' →
    t = { t' with err := t.err, port := t.port } ∧ t.err = s.err ∧ t.port = s.port

/-! ### Errors and system registers -/

/-- R292, its three conditions: (a) an access at or above 0x08 in IDLE and (b) a FRAME with no block open are refused,
nothing but ERR bit 1 changing; (c) a BLOCK while a block is open sets the bit and is performed. -/
def Obligations.OutOfSequenceTransactions : Prop :=
  (∀ (i : Instr) (s : State), s.life = .idle → 0x08 ≤ i.line.addr →
      exec i s = .next { s with
        err := s.err ||| 0b0010#4
        resp := if i.line.write then none else some 0x00000000#32 }) ∧
    (∀ (w : Word) (s : State), s.life = .active → s.rem = 0#16 →
      exec (.wrFrame w) s = .next { s with err := s.err ||| 0b0010#4, resp := none }) ∧
    ∀ (w : Word) (s : State), s.life = .active → s.rem ≠ 0#16 →
      exec (.wrBlock w) s = .next { s with
        err := s.err ||| 0b0010#4
        numin := saturatedCount (w.extractLsb' 16 4)
        numout := saturatedCount (w.extractLsb' 20 4)
        rem := w.extractLsb' 0 16
        coef := filterCoef fogpad s.fs s.params s.flph
        resp := none }

/-- R262, R263, R264, R266, R247: the system reads, legal in IDLE and in ACTIVE; a write of ID, STATUS or REM is a write of a
read-only register (`EAddrExactlyOutsideTheOpcodeMap` says what it does). -/
def Obligations.SystemReadsAnswer : Prop :=
  (∀ d : Word,
    decode (0x100#9 ++ d : Xact) = .error .writeOfReadOnly ∧ decode (0x101#9 ++ d : Xact) = .error .writeOfReadOnly ∧
    decode (0x104#9 ++ d : Xact) = .error .writeOfReadOnly) ∧
  ∀ s : State,
    exec .rdId s = .next { s with resp := some 0x46475031#32 } ∧
    exec .rdErr s = .next { s with resp := some (s.err.setWidth 32) } ∧
    exec .rdRem s = .next { s with resp := some (s.rem.setWidth 32) } ∧
    (s.life = .active →
      let inblock := if s.rem = 0#16 then 0#1 else 1#1
      exec .rdStatus s =
        .next { s with resp := some ((s.params.mode ++ s.nch ++ inblock ++ 1#1 : BitVec 5).setWidth 32) } ∧
      exec .rdConfig s = .next { s with resp := some (0#6 ++ s.nch ++ s.fs : BitVec 32) }) ∧
    (s.life = .idle →
      exec .rdStatus s = .next { s with resp := some 0x00000000#32 } ∧
      exec .rdConfig s = .next { s with resp := some 0x00000000#32 })

/-- R265: WR.ERR clears the flags written as one, in IDLE and in ACTIVE, and changes nothing else. -/
def Obligations.ErrWriteClearsTheWrittenOnes : Prop :=
  ∀ (w : Word) (s : State),
    exec (.wrErr w) s = .next { s with err := s.err &&& ~~~(w.extractLsb' 0 4), resp := none }

/-- R246, R293: an accepted CONFIG constructs the block, every piece of state at the value R246 gives it; a rejected one
sets E_CFG and leaves IDLE with the sequencer and the data registers cleared. -/
def Obligations.ConfigConstructsOrRejects : Prop :=
  (∀ (w : Word) (s : State), Accepted w →
      exec (.wrConfig w) s = .next
        { life := .active, fs := w.extractLsb' 0 24, nch := w.extractLsb' 24 2, rem := 0#16, numin := 0#2, numout := 0#2
          in0 := 0#32, in1 := 0#32, out0 := 0#32, out1 := 0#32, err := s.err, params := resetParams
          bcph := 0x00000000#32, flph := 0x00000000#32
          coef := filterCoef fogpad (w.extractLsb' 0 24) resetParams 0x00000000#32
          env := 0x3F800000#32, tw := 0, trp := 0x00000000#32, lane0 := .cleared, lane1 := .cleared
          port := s.port, resp := none }) ∧
    (∀ (k : Fin 8) (i : Nat), Lane.cleared.combs[k].mem.read i = 0#32 ∧ Lane.cleared.combs[k].idx = 0 ∧
      Lane.cleared.combs[k].store = 0x00000000#32) ∧
    (∀ (j : Fin 4) (i : Nat), Lane.cleared.aps[j].mem.read i = 0#32 ∧ Lane.cleared.aps[j].idx = 0) ∧
    (∀ i : Nat, Lane.cleared.tail.read i = 0#32) ∧
    (Lane.cleared.dcnt = 0 ∧ Lane.cleared.dheld = 0x00000000#32 ∧ Lane.cleared.ic1 = 0x00000000#32 ∧
      Lane.cleared.ic2 = 0x00000000#32) ∧
    ∀ (w : Word) (s : State), ¬Accepted w →
      ∃ t : State, exec (.wrConfig w) s = .next t ∧ t.life = .idle ∧ t.err = s.err ||| 0b0100#4 ∧ t.rem = 0#16 ∧
        t.numin = 0#2 ∧ t.numout = 0#2 ∧ t.in0 = 0#32 ∧ t.in1 = 0#32 ∧ t.out0 = 0#32 ∧ t.out1 = 0#32 ∧
        t.port = s.port ∧ t.resp = none

/-! ### The block protocol and the data registers -/

/-- R248: an admitted BLOCK opens a block, notes E_SEQ if one was open, and latches the coefficients; everything else stays. -/
def Obligations.BlockOpensABlock : Prop :=
  ∀ w : Word, WritesActive (.wrBlock w) fun s => { s with
    err := if s.rem = 0#16 then s.err else s.err ||| 0b0010#4
    numin := saturatedCount (w.extractLsb' 16 4)
    numout := saturatedCount (w.extractLsb' 20 4)
    rem := w.extractLsb' 0 16
    coef := filterCoef fogpad s.fs s.params s.flph }

/-- R249 to R252, R260, R261, R232: IN0 and IN1 store the raw word and read it back; OUT0, OUT1 and GR are read without an
effect. -/
def Obligations.DataRegistersAreRawWords : Prop :=
  (∀ w, WritesActive (.wrIn0 w) fun s => { s with in0 := w }) ∧
  (∀ w, WritesActive (.wrIn1 w) fun s => { s with in1 := w }) ∧
  ReadsActive .rdIn0 (fun s => s.in0) ∧ ReadsActive .rdIn1 (fun s => s.in1) ∧
  ReadsActive .rdOut0 (fun s => s.out0) ∧ ReadsActive .rdOut1 (fun s => s.out1) ∧
  ReadsActive .rdGr (fun s => s.env)

/-! ### The parameter registers -/

/-- R125, R127, R152, R154, R156, R158: the reverb writes. -/
def Obligations.ReverbParameterWrites : Prop :=
  ∀ w : Word,
    WritesActive (.wrRoomsize w)
      (fun s => { s with params := { s.params with roomsize := clamp w 0x00000000#32 0x3F800000#32 } }) ∧
    WritesActive (.wrWidth w)
      (fun s => { s with params := { s.params with width := clamp w 0x00000000#32 0x3F800000#32 } }) ∧
    WritesActive (.wrDry w)
      (fun s => { s with params := { s.params with dry := clamp w 0x00000000#32 0x3F800000#32 } }) ∧
    WritesActive (.wrWet w)
      (fun s => { s with params := { s.params with wet := clamp w 0x00000000#32 0x3F800000#32 } }) ∧
    WritesActive (.wrPlayrate w)
      (fun s => { s with params := { s.params with playrate := clamp w 0x00000000#32 0x3F800000#32 } }) ∧
    WritesActive (.wrMode w) (fun s => { s with params := { s.params with mode := w.extractLsb' 0 1 } })

/-- R175, R177, R179, R181, R193, R195: the BitCrusher and Decimator writes. -/
def Obligations.CrusherAndDecimatorWrites : Prop :=
  ∀ w : Word,
    WritesActive (.wrBcAmount w)
      (fun s => { s with params := { s.params with bcAmount := clamp w 0x00000000#32 0x3F800000#32 } }) ∧
    WritesActive (.wrBcLfoRate w)
      (fun s => { s with params := { s.params with bcLfoRate := clamp w 0x3DCCCCCD#32 0x41200000#32 } }) ∧
    WritesActive (.wrBcLfoDepth w)
      (fun s => { s with params := { s.params with bcLfoDepth := clamp w 0x00000000#32 0x3F800000#32 } }) ∧
    WritesActive (.wrBcPostmix w) (fun s => { s with params := { s.params with bcPostmix := w.extractLsb' 0 1 } }) ∧
    WritesActive (.wrDecBits w)
      (fun s => { s with params := { s.params with decBits := if 32 < w.toNat then 0x00000020#32 else w } }) ∧
    WritesActive (.wrDecRate w)
      (fun s => { s with params := { s.params with decRate := clamp w 0x00000000#32 0x3F800000#32 } })

/-- R210, R212, R214, R216: the filter writes; the latched coefficients and the phase stay. -/
def Obligations.FilterParameterWrites : Prop :=
  ∀ w : Word,
    WritesActive (.wrFltCutoff w)
      (fun s => { s with params := { s.params with fltCutoff := clamp w 0x41F00000#32 0x469C4000#32 } }) ∧
    WritesActive (.wrFltRes w)
      (fun s => { s with params := { s.params with fltRes := clamp w 0x3DCCCCCD#32 0x3F350481#32 } }) ∧
    WritesActive (.wrFltLfoRate w)
      (fun s => { s with params := { s.params with fltLfoRate := clamp w 0x3DCCCCCD#32 0x41200000#32 } }) ∧
    WritesActive (.wrFltLfoDepth w)
      (fun s => { s with params := { s.params with fltLfoDepth := clamp w 0x00000000#32 0x3F800000#32 } })

/-- R106, R107: an oscillator restart zeroes its phase and nothing else. -/
def Obligations.OscillatorRestarts : Prop :=
  ∀ w : Word,
    WritesActive (.wrBcLfoRst w) (fun s => { s with bcph := 0x00000000#32 }) ∧
    WritesActive (.wrFltLfoRst w) (fun s => { s with flph := 0x00000000#32 })

/-- R126, R128, R153, R155, R157, R159, R176, R178, R180, R182, R194, R196: the stored words of the reverb, BitCrusher and
Decimator parameters read back; of MODE and BC_POSTMIX only bit 0 can read as one. -/
def Obligations.ParametersReadBackTheStoredWord : Prop :=
  ReadsActive .rdRoomsize (fun s => s.params.roomsize) ∧
  ReadsActive .rdWidth (fun s => s.params.width) ∧
  ReadsActive .rdDry (fun s => s.params.dry) ∧
  ReadsActive .rdWet (fun s => s.params.wet) ∧
  ReadsActive .rdMode (fun s => s.params.mode.setWidth 32) ∧
  ReadsActive .rdPlayrate (fun s => s.params.playrate) ∧
  ReadsActive .rdBcAmount (fun s => s.params.bcAmount) ∧
  ReadsActive .rdBcLfoRate (fun s => s.params.bcLfoRate) ∧
  ReadsActive .rdBcLfoDepth (fun s => s.params.bcLfoDepth) ∧
  ReadsActive .rdBcPostmix (fun s => s.params.bcPostmix.setWidth 32) ∧
  ReadsActive .rdDecBits (fun s => s.params.decBits) ∧
  ReadsActive .rdDecRate (fun s => s.params.decRate)

/-- R211, R213, R215, R217: the stored words of the filter parameters read back; the cutoff is the base one. -/
def Obligations.FilterParametersReadBack : Prop :=
  ReadsActive .rdFltCutoff (fun s => s.params.fltCutoff) ∧
  ReadsActive .rdFltRes (fun s => s.params.fltRes) ∧
  ReadsActive .rdFltLfoRate (fun s => s.params.fltLfoRate) ∧
  ReadsActive .rdFltLfoDepth (fun s => s.params.fltLfoDepth)

/-- R11: what a clamp stores, on words and on integers. -/
def Obligations.ClampStoresTheNearestBound : Prop :=
  (∀ v lo hi : Word, isNaN lo = false → isNaN hi = false → value lo ≤ value hi →
      (isNaN v = true → clamp v lo hi = lo) ∧
      (isNaN v = false → value v < value lo → clamp v lo hi = lo) ∧
      (isNaN v = false → value hi < value v → clamp v lo hi = hi) ∧
      (isNaN v = false → value lo ≤ value v → value v ≤ value hi → clamp v lo hi = v)) ∧
    ∀ n lo hi : Int, lo ≤ hi → clampi n lo hi = max lo (min n hi)

/-! ### The frame operation -/

/-- R253, R255, R259, R104, R147, R59 (b): under the invariant an open block's FRAME is always performed (log 8's fault is
never met): REM counts down, both oscillators step, the tail pointers advance, and everything that is not signal state
stays. -/
def Obligations.FrameIsPerformedUnderTheInvariant : Prop :=
  ∀ (w : Word) (s : State), s.Inv → s.life = .active → s.rem ≠ 0#16 →
    Admitted s ∧
    ∃ t : State, exec (.wrFrame w) s = .next t ∧
      t.rem.toNat = s.rem.toNat - 1 ∧
      (let p := fadd s.bcph (fdiv s.params.bcLfoRate (i2f s.fs.toNat))
       t.bcph = if fge p 0x3F800000#32 then fsub p (ffloor p) else p) ∧
      (let p := fadd s.flph (fdiv s.params.fltLfoRate (i2f s.fs.toNat))
       t.flph = if fge p 0x3F800000#32 then fsub p (ffloor p) else p) ∧
      t.tw = (s.tw + 1) % 4096 ∧
      (let rp := fadd s.trp (fmax1 (fmul 0x40000000#32 s.params.playrate) 0x3A800000#32)
       t.trp = if fge rp 0x45800000#32 then fsub rp 0x45800000#32 else rp) ∧
      t.life = s.life ∧ t.fs = s.fs ∧ t.nch = s.nch ∧ t.numin = s.numin ∧ t.numout = s.numout ∧ t.in0 = s.in0 ∧
      t.in1 = s.in1 ∧ t.params = s.params ∧ t.coef = s.coef ∧ t.port = s.port ∧ t.resp = none

/-- R254, R294: the input a lane takes, and the note of a NaN or an infinity among the words actually used. -/
def Obligations.FrameInputIsMappedAndSanitised : Prop :=
  (∀ (s : State) (c : Nat),
      (NonFinite (selectedWord s c) → inputSample s c = 0x00000000#32) ∧
      (¬NonFinite (selectedWord s c) → inputSample s c = selectedWord s c)) ∧
    ∀ (w : Word) (s : State), Admitted s →
      ∃ t : State, exec (.wrFrame w) s = .next t ∧ t.in0 = s.in0 ∧ t.in1 = s.in1 ∧ t.rem = s.rem - 1#16 ∧
        ((NonFinite (selectedWord s 0) ∨ (s.nch = 2#2 ∧ NonFinite (selectedWord s 1))) →
          t.err = s.err ||| 0b1000#4) ∧
        (¬(NonFinite (selectedWord s 0) ∨ (s.nch = 2#2 ∧ NonFinite (selectedWord s 1))) → t.err = s.err)

/-- R256, R257, R150, R151, R258: the path of a frame with one lane and with two: wet path, width mix, dry/wet mix, one
limiter for both, the envelope kept. What the wet path composes is `WetPathComposesItsStages`; the limiter's gain and
envelope are `LimiterAttacksHoldsAndReleases`. -/
def Obligations.FrameComposesTheSignalPath : Prop :=
  ∀ (w : Word) (s : State), Admitted s →
    ∃ t : State, exec (.wrFrame w) s = .next t ∧
      let p := s.params
      let w0 := wetPath fogpad s (inputSample s 0) s.lane0
      let w1 := wetPath fogpad s (inputSample s 1) s.lane1
      t.lane0 = w0.2 ∧
      (s.nch = 1#2 →
        let m := fadd (fmul p.dry (inputSample s 0)) (fmul p.wet w0.1)
        let g := limiterGain fogpad s.fs (fabs m) s.env
        t.lane1 = s.lane1 ∧ t.env = g.2 ∧
        t.out0 = (if s.numout = 0#2 then 0x00000000#32 else fmul m g.1) ∧
        t.out1 = (if s.numout.toNat ≤ 1 then 0x00000000#32 else fmul m g.1)) ∧
      (s.nch = 2#2 →
        let g1 := fadd 0x3F000000#32 (fmul 0x3F000000#32 p.width)
        let g2 := fsub 0x3F000000#32 (fmul 0x3F000000#32 p.width)
        let m0 := fadd (fmul p.dry (inputSample s 0)) (fmul p.wet (fadd (fmul w0.1 g1) (fmul w1.1 g2)))
        let m1 := fadd (fmul p.dry (inputSample s 1)) (fmul p.wet (fadd (fmul w1.1 g1) (fmul w0.1 g2)))
        let peak := if flt (fabs m0) (fabs m1) then fabs m1 else fabs m0
        let g := limiterGain fogpad s.fs peak s.env
        t.lane1 = w1.2 ∧ t.env = g.2 ∧
        t.out0 = (if s.numout = 0#2 then 0x00000000#32 else fmul m0 g.1) ∧
        t.out1 = (if s.numout.toNat ≤ 1 then 0x00000000#32 else fmul m1 g.1))

/-- R66, R67, R136, R146, R268: the memory frame of WR.FRAME: each memory of a lane in use changes at its own index alone
(the tail at `S.tw`), each index advances by one modulo the length, and with one lane the other's state is untouched. -/
def Obligations.FrameWritesOneWordOfEachMemory : Prop :=
  ∀ (w : Word) (s : State), Admitted s →
    ∃ t : State, exec (.wrFrame w) s = .next t ∧ (s.nch = 1#2 → t.lane1 = s.lane1) ∧
      ∀ (c : Nat) (l l' : Lane), LaneInUse s t c l l' →
        (∀ k : Fin 8, l'.combs[k].idx = (l.combs[k].idx + 1) % (combLens fogpad s.fs)[k] ∧
          ∀ i, i ≠ l.combs[k].idx → l'.combs[k].mem.read i = l.combs[k].mem.read i) ∧
        (∀ j : Fin 4, l'.aps[j].idx = (l.aps[j].idx + 1) % (apLens fogpad s.fs)[j] ∧
          ∀ i, i ≠ l.aps[j].idx → l'.aps[j].mem.read i = l.aps[j].mem.read i) ∧
        ∀ i, i ≠ s.tw → l'.tail.read i = l.tail.read i

/-- R121, R123, R124: what each comb stores in a frame, with the drive that freeze selects; R122: the bank's output is the
delayed samples summed left to right from comb 0 and scaled by 0.125. -/
def Obligations.CombStepInAFrame : Prop :=
  (∀ (w : Word) (s : State), Admitted s → s.MemoriesWf →
    ∃ t : State, exec (.wrFrame w) s = .next t ∧
      ∀ (c : Nat) (l l' : Lane), LaneInUse s t c l l' → ∀ k : Fin 8,
        let d := l.combs[k].mem.read l.combs[k].idx
        let tin := if s.params.mode = 1#1 then 0x00000000#32 else inputSample s c
        let fb := if s.params.mode = 1#1 then 0x3F800000#32
          else fadd (fmul s.params.roomsize 0x3E8F5C29#32) 0x3F333333#32
        let dmp := if s.params.mode = 1#1 then 0x00000000#32 else 0x3F000000#32
        l'.combs[k].store = fadd (fmul d (fsub 0x3F800000#32 dmp)) (fmul l.combs[k].store dmp) ∧
        l'.combs[k].mem.read l.combs[k].idx = fadd tin (fmul l'.combs[k].store fb) ∧
        l'.combs[k].idx = (l.combs[k].idx + 1) % (combLens fogpad s.fs)[k]) ∧
    ∀ (fs : BitVec 24) (tin fb dmp : Word) (us : Vector Comb 8),
      let d (k : Fin 8) : Word := us[k].mem.read us[k].idx
      (combBank fogpad fs tin fb dmp us).1 =
        fmul (fadd (fadd (fadd (fadd (fadd (fadd (fadd (d 0) (d 1)) (d 2)) (d 3)) (d 4)) (d 5)) (d 6)) (d 7)) 0x3E000000#32

/-- R124, R330: while frozen every comb word is rewritten with its own value, a -0.0 becoming +0.0, as long as the word and
the damping store are finite. -/
def Obligations.FrozenCombsRepeatTheirContents : Prop :=
  ∀ (w : Word) (s : State), Admitted s → s.MemoriesWf → s.params.mode = 1#1 →
    ∃ t : State, exec (.wrFrame w) s = .next t ∧
      ∀ (c : Nat) (l l' : Lane), LaneInUse s t c l l' → ∀ k : Fin 8,
        isFinite (l.combs[k].mem.read l.combs[k].idx) = true → isFinite l.combs[k].store = true →
        ∀ i, l'.combs[k].mem.read i =
          if i = l.combs[k].idx ∧ l.combs[k].mem.read i = 0x80000000#32 then 0x00000000#32
          else l.combs[k].mem.read i

/-- R124, R330: input presented while freeze is on never enters the tank: the state of both lanes after the frame does not
depend on IN0 and IN1. -/
def Obligations.FrozenTankIgnoresTheInput : Prop :=
  ∀ (w : Word) (s : State) (a b : Word), Admitted s → s.params.mode = 1#1 →
    ∃ t t' : State, exec (.wrFrame w) s = .next t ∧ exec (.wrFrame w) { s with in0 := a, in1 := b } = .next t' ∧
      t.lane0 = t'.lane0 ∧ t.lane1 = t'.lane1 ∧ t.bcph = t'.bcph ∧ t.flph = t'.flph ∧ t.tw = t'.tw ∧ t.trp = t'.trp

/-- R254, R268: with one lane, lane 1 and IN1 influence nothing. -/
def Obligations.OneLaneIgnoresTheOther : Prop :=
  ∀ (w : Word) (s : State) (l : Lane) (b : Word), Admitted s → s.nch = 1#2 →
    ∃ t t' : State, exec (.wrFrame w) s = .next t ∧ exec (.wrFrame w) { s with lane1 := l, in1 := b } = .next t' ∧
      t' = { t with lane1 := l, in1 := b }

/-- R156, R256: the wet path runs in full whatever WET is, and whatever DRY and WIDTH are: none of them influences the state
of a lane. -/
def Obligations.WetPathIgnoresTheMixControls : Prop :=
  ∀ (w : Word) (s : State) (dry wet width : Word), Admitted s →
    ∃ t t' : State, exec (.wrFrame w) s = .next t ∧
      exec (.wrFrame w) { s with params := { s.params with dry := dry, wet := wet, width := width } } = .next t' ∧
      t.lane0 = t'.lane0 ∧ t.lane1 = t'.lane1 ∧ t.err = t'.err ∧ t.rem = t'.rem

/-- R191: the lanes always hold the same count: with two lanes, equal hold counters stay equal through every step. -/
def Obligations.LanesHoldTheSameCount : Prop :=
  ∀ s t : State, step s = .next t →
    (s.life = .active → s.nch = 2#2 → s.lane0.dcnt = s.lane1.dcnt) →
    t.life = .active → t.nch = 2#2 → t.lane0.dcnt = t.lane1.dcnt

/-- R22, R259, R329: in a block of `n` frames, `n` FRAME transactions are performed, close the block and take nothing else
off the port. -/
def Obligations.OpenBlockDrainsInItsNumberOfFrames : Prop :=
  ∀ (n : Nat) (s : State) (w : Word) (rest : List PortEvent),
    s.Inv → s.life = .active → s.rem.toNat = n →
    s.port = List.replicate n (.xact (encode (.wrFrame w))) ++ rest →
    ∃ t : State, Sys2Proof.core.run n s = .next t ∧ t.rem = 0#16 ∧ t.port = rest ∧ t.life = .active

/-! ### The units of the signal path -/

/-- R13, R66: the delay lengths at the common rates. -/
def Obligations.DelayLengthsAtTheCommonRates : Prop :=
  (combLens fogpad 44100#24).toList = [1116, 1188, 1277, 1356, 1422, 1491, 1557, 1617] ∧
  (apLens fogpad 44100#24).toList = [556, 441, 341, 225] ∧
  (combLens fogpad 48000#24).toList = [1215, 1293, 1390, 1476, 1548, 1623, 1695, 1760] ∧
  (apLens fogpad 48000#24).toList = [605, 480, 371, 245] ∧
  (combLens fogpad 88200#24).toList = [2232, 2376, 2554, 2712, 2844, 2982, 3114, 3234] ∧
  (apLens fogpad 88200#24).toList = [1112, 882, 682, 450] ∧
  (combLens fogpad 96000#24).toList = [2429, 2586, 2780, 2952, 3096, 3246, 3389, 3520] ∧
  (apLens fogpad 96000#24).toList = [1210, 960, 742, 490] ∧
  (combLens fogpad 192000#24).toList = [4859, 5172, 5560, 5904, 6191, 6491, 6779, 7040] ∧
  (apLens fogpad 192000#24).toList = [2421, 1920, 1485, 980]

/-- R13, R66, R120, R135: every delay length is DLEN of its tuning constant, and at every legal rate it is at least 225 and
within the built capacity. -/
def Obligations.DelayLengthsAreWithinTheBuiltCapacity : Prop :=
  (∀ fs : BitVec 24,
    (∀ k : Fin 8, (combLens fogpad fs)[k] =
      (2 * #v[1116, 1188, 1277, 1356, 1422, 1491, 1557, 1617][k] * fs.toNat + 44100) / 88200) ∧
    ∀ j : Fin 4, (apLens fogpad fs)[j] = (2 * #v[556, 441, 341, 225][j] * fs.toNat + 44100) / 88200) ∧
  ∀ fs : BitVec 24, 44100 ≤ fs.toNat → fs.toNat ≤ 192000 →
    (∀ k : Fin 8, 225 ≤ (combLens fogpad fs)[k] ∧
      (combLens fogpad fs)[k] ≤ #v[4859, 5172, 5560, 5904, 6191, 6491, 6779, 7040][k]) ∧
    ∀ j : Fin 4, 225 ≤ (apLens fogpad fs)[j] ∧ (apLens fogpad fs)[j] ≤ #v[2421, 1920, 1485, 980][j]

/-- R6, R123, R59 (f): the comb feedback is R123's formula, lies in [FB_MIN, FB_MAX] and below 1 for every legal room size, and
takes the rule's three values. -/
def Obligations.FeedbackStaysInTheStableRange : Prop :=
  fogpad.fbMin = 0x3F333333#32 ∧ fogpad.fbMax = 0x3F7AE148#32 ∧
    (∀ r : Word, feedback fogpad r = fadd (fmul r 0x3E8F5C29#32) 0x3F333333#32) ∧
    (∀ r : Word, inUnit r → stableFeedback fogpad (feedback fogpad r) ∧
      value (feedback fogpad r) < value 0x3F800000#32) ∧
    feedback fogpad 0x00000000#32 = 0x3F333333#32 ∧ feedback fogpad 0x3F000000#32 = 0x3F570A3D#32 ∧
    feedback fogpad 0x3F800000#32 = 0x3F7AE148#32

/-- R136, R137: the allpass chain, stage by stage, and that a cleared chain passes its input in the same frame (as a word, and
a zero as a value). -/
def Obligations.AllpassChainInSeries : Prop :=
  (∀ (fs : BitVec 24) (a0 : Word) (us : Vector Allpass 4),
      let d (j : Fin 4) : Word := us[j].mem.read us[j].idx
      let a1 := fsub (d 0) a0
      let a2 := fsub (d 1) a1
      let a3 := fsub (d 2) a2
      let a4 := fsub (d 3) a3
      let r := apChain fogpad fs a0 us
      r.1 = a4 ∧
      ∀ j : Fin 4, r.2[j].mem = us[j].mem.write us[j].idx (fadd #v[a0, a1, a2, a3][j] (fmul (d j) 0x3F000000#32)) ∧
        r.2[j].idx = (us[j].idx + 1) % (apLens fogpad fs)[j]) ∧
    ∀ (fs : BitVec 24) (a0 : Word), isNaN a0 = false →
      value (apChain fogpad fs a0 Lane.cleared.aps).1 = value a0 ∧
      (value a0 ≠ 0 → (apChain fogpad fs a0 Lane.cleared.aps).1 = a0)

/-- R101: every entry of the sine ROM is finite and of magnitude at most 1, and the symmetries hold. -/
def Obligations.SineRomIsBoundedAndSymmetric : Prop :=
  (∀ i : Fin 256, isFinite (sineRom fogpad i) = true ∧ mag (sineRom fogpad i) ≤ mag 0x3F800000#32) ∧
    (∀ i : Fin 65, sineRom fogpad (128 - i) = sineRom fogpad i) ∧
    (∀ i : Fin 127, sineRom fogpad (129 + i) = fneg (sineRom fogpad (1 + i))) ∧
    sineRom fogpad 0 = 0x00000000#32 ∧ sineRom fogpad 64 = 0x3F800000#32 ∧ sineRom fogpad 128 = 0x00000000#32 ∧
    sineRom fogpad 192 = 0xBF800000#32

/-- R102, R103, R104: the oscillator's value is interpolated between two entries of the ROM, the step adds rate/fs and takes
the integer part off, and at every phase in [0, 1) the value has magnitude at most 1 exactly. -/
def Obligations.OscillatorValueIsBounded : Prop :=
  (∀ p : Word,
    let pos := fmul p 0x43800000#32
    let i := f2i (ffloor pos)
    let fr := fsub pos (ffloor pos)
    let a := sineRom fogpad (i % 256).toNat
    let b := sineRom fogpad ((i + 1) % 256).toNat
    sinLookup fogpad p = fadd a (fmul fr (fsub b a)) ∧ lfoValue fogpad p = sinLookup fogpad p) ∧
  (∀ (fs : BitVec 24) (ph rate : Word),
    let p := fadd ph (fdiv rate (i2f fs.toNat))
    (fge p 0x3F800000#32 = false → lfoStep fs ph rate = p) ∧
    (fge p 0x3F800000#32 = true → lfoStep fs ph rate = fsub p (ffloor p))) ∧
  ∀ p : Word, belowFrom0 0x3F800000#32 p → within 0xBF800000#32 0x3F800000#32 (lfoValue fogpad p)

/-- R183: the ROM SCALE holds 2^(n-1) - 1 in binary32 at n = 1 to 32 (2^(n-1) is the word of exponent field 126 + n). -/
def Obligations.ScaleRomHoldsItsFormula : Prop :=
  ∀ n : Nat, 1 ≤ n → n ≤ 32 →
    scaleRom fogpad n = fsub (BitVec.ofNat 32 ((126 + n) * 2 ^ 23)) 0x3F800000#32

/-- R171: the quantiser, case by case: nothing at 0 bits, the sign at 1, a clamped quotient in [-1, 1] from 2 on; a NaN goes to
-1.0. -/
def Obligations.QuantiserCases : Prop :=
  ∀ (x : Word) (n : Nat), n ≤ 32 →
    (n = 0 → quant fogpad x n = x) ∧
    (n = 1 → isNaN x = false → 0 ≤ value x → quant fogpad x n = 0x3F800000#32) ∧
    (n = 1 → isNaN x = false → value x < 0 → quant fogpad x n = 0xBF800000#32) ∧
    (1 ≤ n → isNaN x = true → quant fogpad x n = 0xBF800000#32) ∧
    (2 ≤ n → quant fogpad x n = clamp (fdiv (roundHaz (fmul x (scaleRom fogpad n))) (scaleRom fogpad n))
      0xBF800000#32 0x3F800000#32) ∧
    (1 ≤ n → within 0xBF800000#32 0x3F800000#32 (quant fogpad x n))

/-- R170, R172: the target and the modulated depth are the rules' formulas; the target depth of a legal amount is 1 to 16,
the modulated depth always is, and with depth 0.0 it is the target depth; with R170's values. -/
def Obligations.BitDepthStaysInRange : Prop :=
  (∀ a : Word, bcBits fogpad a = 16 - f2i (roundHaz (fmul a 0x41700000#32))) ∧
    (∀ (p : Params) (lb : Word),
      let t := fmul (fmul p.bcLfoDepth lb) 0x40F00000#32
      (modulatedDepth fogpad p lb : Int) =
        max 1 (min 16 (f2i (roundHaz (fadd (i2f (bcBits fogpad p.bcAmount)) t))))) ∧
    (∀ a : Word, inUnit a → 1 ≤ bcBits fogpad a ∧ bcBits fogpad a ≤ 16) ∧
    (∀ (p : Params) (lb : Word), 1 ≤ modulatedDepth fogpad p lb ∧ modulatedDepth fogpad p lb ≤ 16) ∧
    (∀ (p : Params) (lb : Word), inUnit p.bcAmount → value p.bcLfoDepth = 0 → isFinite lb = true →
      (modulatedDepth fogpad p lb : Int) = bcBits fogpad p.bcAmount) ∧
    bcBits fogpad 0x00000000#32 = 16 ∧ bcBits fogpad 0x3F800000#32 = 1 ∧ bcBits fogpad 0x3F000000#32 = 8 ∧
    bcBits fogpad 0x3DCCCCCD#32 = 14

/-- R190, R191, R192: the decimator: bypassed whole at HOLDFOR 0, else a capture when the counter is zero and a hold
otherwise. -/
def Obligations.DecimatorBypassCaptureHold : Prop :=
  (∀ (p : Params) (x : Word) (l : Lane),
      (holdFor fogpad p.decRate = 0 → decimate fogpad p x l = (x, { l with dcnt := 0 })) ∧
      (holdFor fogpad p.decRate ≠ 0 → l.dcnt = 0 →
        decimate fogpad p x l = (quant fogpad x p.decBits.toNat,
          { l with dheld := quant fogpad x p.decBits.toNat, dcnt := holdFor fogpad p.decRate })) ∧
      (holdFor fogpad p.decRate ≠ 0 → l.dcnt ≠ 0 →
        decimate fogpad p x l = (l.dheld, { l with dcnt := l.dcnt - 1 }))) ∧
    (∀ r : Word, inUnit r →
      (holdFor fogpad r : Int) = f2i (roundHaz (fmul r 0x42800000#32)) ∧ holdFor fogpad r ≤ 64) ∧
    holdFor fogpad 0x00000000#32 = 0 ∧ holdFor fogpad 0x3F800000#32 = 64 ∧ holdFor fogpad 0x3F000000#32 = 32 ∧
    holdFor fogpad 0x3C000000#32 = 1 ∧
    ∀ r : Word, inUnit r → value r < value 0x3C000000#32 → holdFor fogpad r = 0

/-- R146, R147, R148: the speed, the advance of the read position and the interpolated tap, at every PLAYRATE and position;
and at unit speed with the read position equal to the write index, the positions stay equal and the tap is the identity. -/
def Obligations.UnitSpeedTapIsTheIdentity : Prop :=
  (∀ v : Word, playMultiplier fogpad v =
    if fge (fmul 0x40000000#32 v) 0x3A800000#32 then fmul 0x40000000#32 v else 0x3A800000#32) ∧
  (∀ v trp : Word,
    let rp := fadd trp (playMultiplier fogpad v)
    (fge rp 0x45800000#32 = false → advanceReadPos fogpad v trp = rp) ∧
    (fge rp 0x45800000#32 = true → advanceReadPos fogpad v trp = fsub rp 0x45800000#32)) ∧
  (∀ (tw : Nat) (trp ap : Word) (l : Lane),
    let m := l.tail.write tw ap
    let i0 := (f2i (ffloor trp)).toNat
    let fr := fsub trp (ffloor trp)
    let a := m.read i0
    let b := m.read ((i0 + 1) % 4096)
    (tap fogpad tw trp ap l).2 = { l with tail := m } ∧
    (feq fr 0x00000000#32 = true → (tap fogpad tw trp ap l).1 = a) ∧
    (feq fr 0x00000000#32 = false → (tap fogpad tw trp ap l).1 = fadd a (fmul fr (fsub b a)))) ∧
  ∀ (w : Word) (s : State), Admitted s → s.params.playrate = 0x3F000000#32 → s.trp = i2f s.tw →
    (∃ t : State, exec (.wrFrame w) s = .next t ∧ t.trp = i2f t.tw) ∧
    ∀ (ap : Word) (l : Lane), l.tail.wf → (tap fogpad s.tw s.trp ap l).1 = ap

/-- R149: the width gains: their formulas, the three examples, and 0 ≤ G2 ≤ 0.5 ≤ G1 ≤ 1 for every stored WIDTH. -/
def Obligations.WidthGainsAreOrdered : Prop :=
  (∀ v : Word, widthGain1 v = fadd 0x3F000000#32 (fmul 0x3F000000#32 v) ∧
      widthGain2 v = fsub 0x3F000000#32 (fmul 0x3F000000#32 v)) ∧
    (widthGain1 0x3F800000#32 = 0x3F800000#32 ∧ widthGain2 0x3F800000#32 = 0x00000000#32) ∧
    (widthGain1 0x00000000#32 = 0x3F000000#32 ∧ widthGain2 0x00000000#32 = 0x3F000000#32) ∧
    (widthGain1 0x3F000000#32 = 0x3F400000#32 ∧ widthGain2 0x3F000000#32 = 0x3E800000#32) ∧
    ∀ v : Word, inUnit v →
      within 0x00000000#32 0x3F000000#32 (widthGain2 v) ∧ within 0x3F000000#32 0x3F800000#32 (widthGain1 v)

/-- R151: with DRY 1.0 and WET 0.0 the mix is the input: the same value, and the same word unless it is a zero. -/
def Obligations.DryOnlyMixIsTheInput : Prop :=
  ∀ (p : Params) (xin pw : Word), p.dry = 0x3F800000#32 → p.wet = 0x00000000#32 →
    isFinite xin = true → isFinite pw = true →
    value (dryWet p xin pw) = value xin ∧ (value xin ≠ 0 → dryWet p xin pw = xin)

/-- R206, R208: the coefficients for every parameter, phase and rate, with the modulated and clamped cutoff; the filter's
recurrence; the coefficients at the reset parameters and 44100 Hz; the first output of a cleared lane. -/
def Obligations.FilterRecurrence : Prop :=
  (∀ (fs : BitVec 24) (p : Params) (flph : Word),
      let lv := sinLookup fogpad flph
      let fc := clamp (fadd p.fltCutoff (fmul (fmul p.fltLfoDepth lv) 0x461C0400#32)) 0x41F00000#32 0x469C4000#32
      let ph := fdiv fc (fmul 0x40000000#32 (i2f fs.toNat))
      let g := fdiv (sinLookup fogpad ph) (sinLookup fogpad (fadd ph 0x3E800000#32))
      let k := fdiv 0x3F800000#32 p.fltRes
      let a1 := fdiv 0x3F800000#32 (fadd 0x3F800000#32 (fmul g (fadd g k)))
      let a2 := fmul g a1
      filterCoef fogpad fs p flph = ⟨a1, a2, fmul g a2⟩) ∧
    (∀ (k : Coef) (x : Word) (l : Lane),
      let v3 := fsub x l.ic2
      let v1 := fadd (fmul k.a1 l.ic1) (fmul k.a2 v3)
      let v2 := fadd l.ic2 (fadd (fmul k.a2 l.ic1) (fmul k.a3 v3))
      filterStep k x l =
        (v2, { l with ic1 := fsub (fmul 0x40000000#32 v1) l.ic1, ic2 := fsub (fmul 0x40000000#32 v2) l.ic2 })) ∧
    filterCoef fogpad 44100#24 resetParams 0x00000000#32 = ⟨0x3DC5406F#32, 0x3DAA5C76#32, 0x3D9322F4#32⟩ ∧
    ∀ (k : Coef) (x : Word), isFinite k.a2 = true → isFinite k.a3 = true → isFinite x = true →
      isFinite k.a1 = true → value (filterStep k x Lane.cleared).1 = value (fmul k.a3 x)

/-- R233 (a), R257: the ceiling: as long as the mix of every lane is finite and at most 2^126, no output of a frame exceeds
1.0 in magnitude. -/
def Obligations.OutputsNeverExceedTheThreshold : Prop :=
  ∀ (w : Word) (s : State), s.Inv → s.life = .active → s.rem ≠ 0#16 →
    let wf0 := (wet0 fogpad s).1
    let wf1 := (wet1 fogpad s).1
    isNaN (mix0 s wf0 wf1) = false → mag (mix0 s wf0 wf1) ≤ mag 0x7E800000#32 →
    (s.nch = 2#2 → isNaN (mix1 s wf0 wf1) = false ∧ mag (mix1 s wf0 wf1) ≤ mag 0x7E800000#32) →
    ∃ t : State, exec (.wrFrame w) s = .next t ∧
      isNaN t.out0 = false ∧ mag t.out0 ≤ mag 0x3F800000#32 ∧ isNaN t.out1 = false ∧ mag t.out1 ≤ mag 0x3F800000#32

/-- R231, R233 (c), R258: an envelope of 1.0 stays 1.0 while the mix of every lane stays at or below the threshold, whatever
NUMOUT is, and the outputs are then the mixed samples themselves: OUT0 lane 0's, OUT1 lane 1's with two lanes and lane 0's
again with one. -/
def Obligations.QuietFramesPassTheLimiterUnchanged : Prop :=
  ∀ (w : Word) (s : State), s.Inv → s.life = .active → s.rem ≠ 0#16 → s.env = 0x3F800000#32 →
    let wf0 := (wet0 fogpad s).1
    let wf1 := (wet1 fogpad s).1
    let m0 := mix0 s wf0 wf1
    let m1 := mix1 s wf0 wf1
    isNaN m0 = false → mag m0 ≤ mag 0x3F800000#32 →
    (s.nch = 2#2 → isNaN m1 = false ∧ mag m1 ≤ mag 0x3F800000#32) →
    ∃ t : State, exec (.wrFrame w) s = .next t ∧ t.env = 0x3F800000#32 ∧
      t.out0 = (if s.numout = 0#2 then 0x00000000#32 else m0) ∧
      t.out1 = (if s.numout.toNat ≤ 1 then 0x00000000#32 else if s.nch = 2#2 then m1 else m0)

/-- R230, R231: the gain of a frame and the envelope after it. With a peak above 1.0: an attack where the target is below the
envelope, the envelope held where it is not. With any other peak, a NaN among them: a release. At every legal rate and
every envelope in [0, 1] an attack never raises the envelope and a release never lowers it; both coefficients are R230's
and have its values at 44100 Hz, and the two vectors V52 gives for an attack and a release move it. -/
def Obligations.LimiterAttacksHoldsAndReleases : Prop :=
  (∀ (fs : BitVec 24) (peak env : Word),
    let att := fmin1 (fdiv 0x3F800000#32 (fmul 0x3A83126F#32 (i2f fs.toNat))) 0x3F800000#32
    let rel := fmin1 (fdiv 0x3F800000#32 (fmul 0x3DCCCCCD#32 (i2f fs.toNat))) 0x3F800000#32
    let tgt := fdiv 0x3F800000#32 peak
    let tightened := fadd env (fmul att (fsub tgt env))
    let e := fadd env (fmul rel (fsub 0x3F800000#32 env))
    let relaxed := if fle e 0x3F800000#32 then e else 0x3F800000#32
    (fgt peak 0x3F800000#32 = true → flt tgt env = true →
      limiterGain fogpad fs peak env = (if flt tgt tightened then tgt else tightened, tightened)) ∧
    (fgt peak 0x3F800000#32 = true → flt tgt env = false → limiterGain fogpad fs peak env = (env, env)) ∧
    (fgt peak 0x3F800000#32 = false → limiterGain fogpad fs peak env = (relaxed, relaxed))) ∧
  (∀ (fs : BitVec 24) (peak env : Word), 44100 ≤ fs.toNat → fs.toNat ≤ 192000 → inUnit env →
    (fgt peak 0x3F800000#32 = true → value (limiterGain fogpad fs peak env).2 ≤ value env) ∧
    (fgt peak 0x3F800000#32 = false → value env ≤ value (limiterGain fogpad fs peak env).2)) ∧
  attackCoef fogpad 44100#24 = 0x3CB9C277#32 ∧ releaseCoef fogpad 44100#24 = 0x396DC5B8#32 ∧
  limiterGain fogpad 44100#24 0x40000000#32 0x3F800000#32 = (0x3F000000#32, 0x3F7D18F6#32) ∧
  limiterGain fogpad 44100#24 0x3F000000#32 0x3F777D0C#32 = (0x3F777D8A#32, 0x3F777D8A#32)

/-- R256, R145, R124, R146, R174, R172: the wet path of a lane: the comb bank with the drive freeze selects, the allpass
chain, the tap, and the wet chain in the order BC_POSTMIX selects, at the depth LFO_BC's value gives before its step. The
stages are `CombStepInAFrame`, `AllpassChainInSeries`, `UnitSpeedTapIsTheIdentity`, `QuantiserCases`,
`DecimatorBypassCaptureHold` and `FilterRecurrence`. -/
def Obligations.WetPathComposesItsStages : Prop :=
  ∀ (s : State) (x : Word) (l : Lane),
    let p := s.params
    let tin := if p.mode = 1#1 then 0x00000000#32 else x
    let fb := if p.mode = 1#1 then 0x3F800000#32 else fadd (fmul p.roomsize 0x3E8F5C29#32) 0x3F333333#32
    let dmp := if p.mode = 1#1 then 0x00000000#32 else 0x3F000000#32
    let bank := combBank fogpad s.fs tin fb dmp l.combs
    let chain := apChain fogpad s.fs bank.1 l.aps
    let tapped := tap fogpad s.tw s.trp chain.1 { l with combs := bank.2, aps := chain.2 }
    let bm := modulatedDepth fogpad p (lfoValue fogpad s.bcph)
    (p.bcPostmix = 0#1 →
      let d := decimate fogpad p (quant fogpad tapped.1 bm) tapped.2
      wetPath fogpad s x l = filterStep s.coef d.1 d.2) ∧
    (p.bcPostmix = 1#1 →
      let d := decimate fogpad p tapped.1 tapped.2
      let f := filterStep s.coef d.1 d.2
      wetPath fogpad s x l = (quant fogpad f.1 bm, f.2))
end

