-- ==== Sys2Proof/Laws/Float.lean ====
section
/-! SUPPORT. Laws of the binary32 operations: the magnitude of a word as a strictly increasing function of its bits, what
rounding can do (it never crosses a representable value), and the bounds of each operation that follow. -/

namespace Sys2Proof.Machine

/-! ### The magnitude as a function of the magnitude bits -/

/-- The magnitude, in units of 2^-149, of the magnitude bits `b`; defined past the infinity too. -/
def magOf (b : Nat) : Nat :=
  if b / 2 ^ 23 = 0 then b % 2 ^ 23 else (2 ^ 23 + b % 2 ^ 23) * 2 ^ (b / 2 ^ 23 - 1)

/-- The magnitude bits of a word, bits 30:0. -/
def magBits (a : Word) : Nat := a.toNat % 2 ^ 31

theorem expField_eq (a : Word) : expField a = magBits a / 2 ^ 23 := by
  simp only [expField, magBits, BitVec.extractLsb'_toNat, Nat.shiftRight_eq_div_pow]
  omega

theorem fracField_eq (a : Word) : fracField a = magBits a % 2 ^ 23 := by
  simp only [fracField, magBits, BitVec.extractLsb'_toNat, Nat.shiftRight_eq_div_pow]
  omega

theorem mag_eq_magOf (a : Word) : mag a = magOf (magBits a) := by
  simp only [mag, magOf, expField_eq, fracField_eq]

theorem magOf_lt_succ (b : Nat) : magOf b < magOf (b + 1) := by
  unfold magOf
  have hb := Nat.div_add_mod b (2 ^ 23)
  have hlt := Nat.mod_lt b (show 0 < 2 ^ 23 by decide)
  generalize hf : b % 2 ^ 23 = f at hb hlt
  generalize he : b / 2 ^ 23 = e at hb
  by_cases hc : f + 1 < 2 ^ 23
  · have h1 : (b + 1) / 2 ^ 23 = e := by omega
    have h2 : (b + 1) % 2 ^ 23 = f + 1 := by omega
    rw [h1, h2]
    split
    · omega
    · exact Nat.mul_lt_mul_of_pos_right (by omega) (Nat.two_pow_pos _)
  · have h1 : (b + 1) / 2 ^ 23 = e + 1 := by omega
    have h2 : (b + 1) % 2 ^ 23 = 0 := by omega
    rw [h1, h2]
    rcases Nat.eq_zero_or_pos e with h0 | hp
    · subst h0; norm_num; omega
    · rw [if_neg (by omega), if_neg (by omega)]
      obtain ⟨e', rfl⟩ : ∃ e', e = e' + 1 := ⟨e - 1, by omega⟩
      simp only [Nat.add_sub_cancel, Nat.pow_succ 2 e']
      have : 0 < 2 ^ e' := Nat.two_pow_pos _
      nlinarith

theorem magOf_strictMono : StrictMono magOf := strictMono_nat_of_lt_succ magOf_lt_succ

theorem magOf_le_magOf {b c : Nat} : magOf b ≤ magOf c ↔ b ≤ c := magOf_strictMono.le_iff_le

theorem magOf_lt_magOf {b c : Nat} : magOf b < magOf c ↔ b < c := magOf_strictMono.lt_iff_lt

theorem magOf_zero : magOf 0 = 0 := by decide

/-- The magnitude of a significand `m` in steps of `2^sh` units, up to and with the carry into the next exponent. -/
theorem magOf_significand (sh m : Nat) (h24 : m ≤ 2 ^ 24) (h23 : sh = 0 ∨ 2 ^ 23 ≤ m) :
    magOf (sh * 2 ^ 23 + m) = m * 2 ^ sh := by
  unfold magOf
  rcases Nat.lt_or_ge m (2 ^ 23) with hm | hm
  · have hs : sh = 0 := by omega
    subst hs
    have h1 : (0 * 2 ^ 23 + m) / 2 ^ 23 = 0 := by omega
    have h2 : (0 * 2 ^ 23 + m) % 2 ^ 23 = m := by omega
    simp only [h1, h2, if_true, Nat.pow_zero, Nat.mul_one]
  · rcases Nat.lt_or_ge m (2 ^ 24) with hl | hl
    · have h1 : (sh * 2 ^ 23 + m) / 2 ^ 23 = sh + 1 := by omega
      have h2 : (sh * 2 ^ 23 + m) % 2 ^ 23 = m - 2 ^ 23 := by omega
      rw [h1, h2, if_neg (by omega), Nat.add_sub_cancel, Nat.add_sub_cancel' hm]
    · have hm' : m = 2 ^ 24 := by omega
      subst hm'
      have h1 : (sh * 2 ^ 23 + 2 ^ 24) / 2 ^ 23 = sh + 2 := by omega
      have h2 : (sh * 2 ^ 23 + 2 ^ 24) % 2 ^ 23 = 0 := by omega
      rw [h1, h2, if_neg (by omega), show sh + 2 - 1 = sh + 1 from rfl, Nat.pow_succ]
      ring

/-! ### Rounding never crosses a representable magnitude -/

/-- The significand that rounding starts from. -/
theorem significand_bounds (num den : Nat) :
    let sh := (num / den).log2 - 23
    let m := num / (den * 2 ^ sh)
    m < 2 ^ 24 ∧ (sh = 0 ∨ 2 ^ 23 ≤ m) := by
  intro sh m
  have hm : m = num / den / 2 ^ sh := (Nat.div_div_eq_div_mul _ _ _).symm
  rw [hm]
  generalize hq : num / den = q
  have hsh : sh = q.log2 - 23 := by simp only [sh, hq]
  rcases Nat.eq_zero_or_pos q with h0 | hp
  · subst h0
    simp [hsh]
  · have hlo : 2 ^ q.log2 ≤ q := Nat.log2_self_le (by omega)
    have hhi : q < 2 ^ (q.log2 + 1) := Nat.lt_log2_self
    constructor
    · rw [Nat.div_lt_iff_lt_mul (Nat.two_pow_pos _), ← Nat.pow_add]
      exact lt_of_lt_of_le hhi (Nat.pow_le_pow_right (by decide) (by omega))
    · rcases Nat.lt_or_ge 23 q.log2 with h | h
      · right
        rw [Nat.le_div_iff_mul_le (Nat.two_pow_pos _), ← Nat.pow_add]
        exact le_trans (Nat.pow_le_pow_right (by decide) (by omega)) hlo
      · left; omega

/-- Rounding to at most a representable magnitude that is not below the exact one. -/
theorem roundBits_le {num den b : Nat} (hd : 0 < den) (h : num ≤ magOf b * den) : roundBits num den ≤ b := by
  obtain ⟨h24, h23⟩ := significand_bounds num den
  unfold roundBits
  generalize hsh : (num / den).log2 - 23 = sh at *
  have hstep : 0 < den * 2 ^ sh := Nat.mul_pos hd (Nat.two_pow_pos _)
  have hdm := Nat.div_add_mod num (den * 2 ^ sh)
  dsimp only
  generalize hm : num / (den * 2 ^ sh) = m at *
  generalize hr : num % (den * 2 ^ sh) = r at *
  have hM := magOf_significand sh m (by omega) h23
  refine le_trans (min_le_left _ _) ?_
  rcases Nat.eq_zero_or_pos r with h0 | hp
  · have hup : ¬ (den * 2 ^ sh < 2 * r) ∧ ¬ (2 * r = den * 2 ^ sh) := by omega
    simp only [hup.1, hup.2, decide_false, Bool.false_and, Bool.or_false, Bool.false_eq_true, if_false]
    rw [← magOf_le_magOf, hM]
    refine Nat.le_of_mul_le_mul_right ?_ hd
    calc m * 2 ^ sh * den = den * 2 ^ sh * m := by ring
      _ ≤ num := by omega
      _ ≤ _ := h
  · have hlt : sh * 2 ^ 23 + m < b := by
      rw [← magOf_lt_magOf, hM]
      refine Nat.lt_of_mul_lt_mul_right (a := den) ?_
      calc m * 2 ^ sh * den = den * 2 ^ sh * m := by ring
        _ < num := by omega
        _ ≤ _ := h
    split <;> omega

/-- Rounding to at least a representable magnitude that is not above the exact one, up to the infinity. -/
theorem le_roundBits {num den b : Nat} (hd : 0 < den) (hb : b ≤ infBits) (h : magOf b * den ≤ num) :
    b ≤ roundBits num den := by
  obtain ⟨h24, h23⟩ := significand_bounds num den
  unfold roundBits
  generalize hsh : (num / den).log2 - 23 = sh at *
  have hstep : 0 < den * 2 ^ sh := Nat.mul_pos hd (Nat.two_pow_pos _)
  have hdm := Nat.div_add_mod num (den * 2 ^ sh)
  have hml := Nat.mod_lt num hstep
  dsimp only
  generalize hm : num / (den * 2 ^ sh) = m at *
  have hM := magOf_significand sh (m + 1) (by omega) (by omega)
  have hle : b ≤ sh * 2 ^ 23 + m := by
    have : b < sh * 2 ^ 23 + (m + 1) := by
      rw [← magOf_lt_magOf, hM]
      refine Nat.lt_of_mul_lt_mul_right (a := den) ?_
      calc magOf b * den ≤ num := h
        _ < den * 2 ^ sh * (m + 1) := by rw [Nat.mul_add, Nat.mul_one]; omega
        _ = (m + 1) * 2 ^ sh * den := by ring
    omega
  refine le_min (le_trans hle ?_) hb
  split <;> omega

theorem roundBits_le_inf (num den : Nat) : roundBits num den ≤ infBits := min_le_right _ _

/-- A representable magnitude rounds to itself. -/
theorem roundBits_exact {num den b : Nat} (hd : 0 < den) (hb : b ≤ infBits) (h : num = magOf b * den) :
    roundBits num den = b :=
  le_antisymm (roundBits_le hd h.le) (le_roundBits hd hb h.ge)

/-! ### Words made of a sign and magnitude bits -/

theorem infBits_lt : infBits < 2 ^ 31 := by decide

theorem magBits_pack {b : Nat} (neg : Bool) (h : b ≤ infBits) : magBits (pack neg b) = b := by
  have := infBits_lt
  cases neg <;> simp only [magBits, pack, BitVec.toNat_ofNat] <;> simp <;> omega

theorem signBit_pack {b : Nat} (neg : Bool) (h : b ≤ infBits) : signBit (pack neg b) = neg := by
  have := infBits_lt
  have key : ∀ a : Word, signBit a = decide (2 ^ 31 ≤ a.toNat) := by
    intro a
    simp only [signBit, BitVec.getLsbD, Nat.testBit_eq_decide_div_mod_eq, decide_eq_decide]
    have := a.isLt
    omega
  rw [key]
  cases neg <;> simp only [pack, BitVec.toNat_ofNat] <;> simp <;> omega

theorem isNaN_iff (a : Word) : isNaN a = true ↔ infBits < magBits a := by
  have h : magBits a < 2 ^ 31 := Nat.mod_lt _ (by decide)
  simp only [isNaN, expField_eq, fracField_eq, Bool.and_eq_true, beq_iff_eq, bne_iff_ne, infBits]
  omega

theorem isInf_iff (a : Word) : isInf a = true ↔ magBits a = infBits := by
  have h : magBits a < 2 ^ 31 := Nat.mod_lt _ (by decide)
  simp only [isInf, expField_eq, fracField_eq, Bool.and_eq_true, beq_iff_eq, infBits]
  omega

theorem isFinite_iff (a : Word) : isFinite a = true ↔ magBits a < infBits := by
  have h : magBits a < 2 ^ 31 := Nat.mod_lt _ (by decide)
  simp only [isFinite, expField_eq, bne_iff_ne, infBits]
  omega

theorem isNaN_eq_false_iff (a : Word) : isNaN a = false ↔ magBits a ≤ infBits := by
  rw [← Bool.not_eq_true, isNaN_iff, not_lt]

theorem isNaN_pack {b : Nat} (neg : Bool) (h : b ≤ infBits) : isNaN (pack neg b) = false := by
  rw [isNaN_eq_false_iff, magBits_pack neg h]; exact h

theorem mag_pack {b : Nat} (neg : Bool) (h : b ≤ infBits) : mag (pack neg b) = magOf b := by
  rw [mag_eq_magOf, magBits_pack neg h]

/-! ### What `roundTo` answers -/

theorem isNaN_roundTo (neg : Bool) (num den : Nat) : isNaN (roundTo neg num den) = false :=
  isNaN_pack neg (roundBits_le_inf num den)

theorem signBit_roundTo (neg : Bool) (num den : Nat) : signBit (roundTo neg num den) = neg :=
  signBit_pack neg (roundBits_le_inf num den)

theorem mag_roundTo (neg : Bool) (num den : Nat) : mag (roundTo neg num den) = magOf (roundBits num den) :=
  mag_pack neg (roundBits_le_inf num den)

theorem value_roundTo (neg : Bool) (num den : Nat) :
    value (roundTo neg num den) = if neg then -(mag (roundTo neg num den) : Int) else mag (roundTo neg num den) := by
  rw [value, signBit_roundTo]

/-- A rounded magnitude is at most any representable one that the exact one is at most. -/
theorem mag_roundTo_le {neg : Bool} {num den : Nat} {c : Word} (hd : 0 < den) (h : num ≤ mag c * den) :
    mag (roundTo neg num den) ≤ mag c := by
  rw [mag_roundTo, mag_eq_magOf, magOf_le_magOf]
  exact roundBits_le hd (by rwa [← mag_eq_magOf])

/-- A rounded magnitude is at least any representable one that the exact one is at least. -/
theorem le_mag_roundTo {neg : Bool} {num den : Nat} {c : Word} (hd : 0 < den) (hc : isNaN c = false)
    (h : mag c * den ≤ num) : mag c ≤ mag (roundTo neg num den) := by
  rw [mag_roundTo, mag_eq_magOf, magOf_le_magOf]
  exact le_roundBits hd ((isNaN_eq_false_iff c).1 hc) (by rwa [← mag_eq_magOf])

/-- A representable value survives rounding. -/
theorem mag_roundTo_exact {neg : Bool} {num den : Nat} {c : Word} (hd : 0 < den) (hc : isNaN c = false)
    (h : num = mag c * den) : mag (roundTo neg num den) = mag c :=
  le_antisymm (mag_roundTo_le hd h.le) (le_mag_roundTo hd hc h.ge)

/-! ### The primitives on finite operands -/

theorem isNaN_of_isFinite {a : Word} (h : isFinite a = true) : isNaN a = false := by
  rw [isNaN_eq_false_iff]; exact ((isFinite_iff a).1 h).le

theorem isInf_of_isFinite {a : Word} (h : isFinite a = true) : isInf a = false := by
  have := (isFinite_iff a).1 h
  rw [← Bool.not_eq_true, isInf_iff]
  omega

theorem natAbs_value (a : Word) : (value a).natAbs = mag a := by
  unfold value; split <;> simp

theorem fadd_of_finite {a b : Word} (ha : isFinite a = true) (hb : isFinite b = true) :
    fadd a b = if value a + value b = 0 then pack (signBit a && signBit b) 0
      else roundTo (decide (value a + value b < 0)) (value a + value b).natAbs 1 := by
  simp [fadd, isNaN_of_isFinite ha, isNaN_of_isFinite hb, isInf_of_isFinite ha, isInf_of_isFinite hb]

theorem fmul_of_finite {a b : Word} (ha : isFinite a = true) (hb : isFinite b = true) :
    fmul a b = roundTo (signBit a != signBit b) (mag a * mag b) unitsPerOne := by
  simp [fmul, isNaN_of_isFinite ha, isNaN_of_isFinite hb, isInf_of_isFinite ha, isInf_of_isFinite hb]

theorem fdiv_of_finite {a b : Word} (ha : isFinite a = true) (hb : isFinite b = true) (h0 : mag b ≠ 0) :
    fdiv a b = roundTo (signBit a != signBit b) (mag a * unitsPerOne) (mag b) := by
  simp [fdiv, isNaN_of_isFinite ha, isNaN_of_isFinite hb, isInf_of_isFinite ha, isInf_of_isFinite hb, h0]

/-- A finite sum is no NaN. -/
theorem isNaN_fadd {a b : Word} (ha : isFinite a = true) (hb : isFinite b = true) : isNaN (fadd a b) = false := by
  rw [fadd_of_finite ha hb]
  split
  · exact isNaN_pack _ (Nat.zero_le _)
  · exact isNaN_roundTo _ _ _

/-- A rounded sum is at most any representable value that the exact sum is at most. -/
theorem value_fadd_le {a b c : Word} (ha : isFinite a = true) (hb : isFinite b = true) (hc : isNaN c = false)
    (h : value a + value b ≤ value c) : value (fadd a b) ≤ value c := by
  rw [fadd_of_finite ha hb]
  split
  · next h0 =>
    have : value (pack (signBit a && signBit b) 0) = 0 := by
      rw [value, mag_pack _ (Nat.zero_le _), magOf_zero]; split <;> rfl
    omega
  · next h0 =>
    rw [value_roundTo]
    by_cases hneg : value a + value b < 0
    · simp only [hneg, decide_true, if_true]
      rcases lt_or_ge (value c) 0 with hc0 | hc0
      · have hvc : value c = -(mag c : Int) := by
          have := natAbs_value c; omega
        have := le_mag_roundTo (neg := true) (num := (value a + value b).natAbs) (den := 1) Nat.one_pos hc (by omega)
        omega
      · omega
    · simp only [hneg, decide_false, Bool.false_eq_true, if_false]
      have hvc : value c = (mag c : Int) := by
        have := natAbs_value c; omega
      have := mag_roundTo_le (neg := false) (num := (value a + value b).natAbs) (den := 1) (c := c) Nat.one_pos (by omega)
      omega

/-- A rounded sum is at least any representable value that the exact sum is at least. -/
theorem le_value_fadd {a b c : Word} (ha : isFinite a = true) (hb : isFinite b = true) (hc : isNaN c = false)
    (h : value c ≤ value a + value b) : value c ≤ value (fadd a b) := by
  rw [fadd_of_finite ha hb]
  split
  · next h0 =>
    have : value (pack (signBit a && signBit b) 0) = 0 := by
      rw [value, mag_pack _ (Nat.zero_le _), magOf_zero]; split <;> rfl
    omega
  · next h0 =>
    rw [value_roundTo]
    by_cases hneg : value a + value b < 0
    · simp only [hneg, decide_true, if_true]
      have hvc : value c = -(mag c : Int) := by
        have := natAbs_value c; omega
      have := mag_roundTo_le (neg := true) (num := (value a + value b).natAbs) (den := 1) (c := c) Nat.one_pos (by omega)
      omega
    · simp only [hneg, decide_false, Bool.false_eq_true, if_false]
      rcases lt_or_ge (value c) 0 with hc0 | hc0
      · omega
      · have hvc : value c = (mag c : Int) := by
          have := natAbs_value c; omega
        have := le_mag_roundTo (neg := false) (num := (value a + value b).natAbs) (den := 1) Nat.one_pos hc (by omega)
        omega

/-! ### Sign operations -/

theorem magBits_fneg {a : Word} (h : isNaN a = false) : magBits (fneg a) = magBits a := by
  simp only [fneg, h, Bool.false_eq_true, if_false, magBits]
  rw [BitVec.toNat_xor, show (0x80000000#32 : Word).toNat = 2 ^ 31 from rfl, Nat.xor_mod_two_pow]
  simp

theorem signBit_fneg {a : Word} (h : isNaN a = false) : signBit (fneg a) = !signBit a := by
  simp [fneg, h, signBit]

theorem isNaN_fneg (a : Word) : isNaN (fneg a) = isNaN a := by
  cases h : isNaN a
  · rw [isNaN_eq_false_iff, magBits_fneg h, ← isNaN_eq_false_iff]; exact h
  · simp only [fneg, h, if_true]; decide

theorem value_fneg {a : Word} (h : isNaN a = false) : value (fneg a) = -value a := by
  simp only [value, signBit_fneg h, mag_eq_magOf, magBits_fneg h]
  cases signBit a <;> simp

theorem isFinite_fneg {a : Word} (h : isFinite a = true) : isFinite (fneg a) = true := by
  rw [isFinite_iff, magBits_fneg (isNaN_of_isFinite h)]; exact (isFinite_iff a).1 h

theorem magBits_fabs {a : Word} (h : isNaN a = false) : magBits (fabs a) = magBits a := by
  simp only [fabs, h, Bool.false_eq_true, if_false, magBits]
  rw [BitVec.toNat_and, show (0x7FFFFFFF#32 : Word).toNat = 2 ^ 31 - 1 from rfl, Nat.and_two_pow_sub_one_eq_mod,
    Nat.mod_mod]

theorem signBit_fabs {a : Word} (h : isNaN a = false) : signBit (fabs a) = false := by
  simp [fabs, h, signBit]

theorem isNaN_fabs (a : Word) : isNaN (fabs a) = isNaN a := by
  cases h : isNaN a
  · rw [isNaN_eq_false_iff, magBits_fabs h, ← isNaN_eq_false_iff]; exact h
  · simp only [fabs, h, if_true]; decide

theorem value_fabs {a : Word} (h : isNaN a = false) : value (fabs a) = mag a := by
  simp [value, signBit_fabs h, mag_eq_magOf, magBits_fabs h]

/-! ### Clamping -/

theorem clamp_cases (v lo hi : Word) :
    (clamp v lo hi = v ∧ fle lo v = true ∧ fle v hi = true) ∨ clamp v lo hi = hi ∧ fle lo v = true ∨ clamp v lo hi = lo := by
  unfold clamp fge
  split
  · split <;> simp_all
  · simp

/-- A clamped word lies between its bounds by value and is no NaN. -/
theorem clamp_between {v lo hi : Word} (hlo : isNaN lo = false) (hhi : isNaN hi = false) (h : value lo ≤ value hi) :
    isNaN (clamp v lo hi) = false ∧ value lo ≤ value (clamp v lo hi) ∧ value (clamp v lo hi) ≤ value hi := by
  rcases clamp_cases v lo hi with ⟨he, h1, h2⟩ | ⟨he, _⟩ | he
  · rw [he]
    simp only [fle, Bool.and_eq_true, Bool.not_eq_true', decide_eq_true_eq] at h1 h2
    exact ⟨h1.1.2, h1.2, h2.2⟩
  · rw [he]; exact ⟨hhi, h, le_refl _⟩
  · rw [he]; exact ⟨hlo, le_refl _, h⟩

/-- A word already between the bounds is stored as it is. -/
theorem clamp_of_between {v lo hi : Word} (hv : isNaN v = false) (hlo : isNaN lo = false) (hhi : isNaN hi = false)
    (h1 : value lo ≤ value v) (h2 : value v ≤ value hi) : clamp v lo hi = v := by
  simp [clamp, fge, fle, hv, hlo, hhi, h1, h2]

theorem clampi_between {n lo hi : Int} (h : lo ≤ hi) : lo ≤ clampi n lo hi ∧ clampi n lo hi ≤ hi := by
  unfold clampi; split <;> [split; skip] <;> omega

/-! ### Small integers and halves are exact -/

/-- An integer number `n` of units is the magnitude of a finite word when it has at most 24 significant bits. -/
theorem roundBits_significand (sh m : Nat) (h24 : m ≤ 2 ^ 24) (h23 : sh = 0 ∨ 2 ^ 23 ≤ m) (hsh : sh < 253) :
    magOf (roundBits (m * 2 ^ sh) 1) = m * 2 ^ sh := by
  have hM := magOf_significand sh m h24 h23
  rw [roundBits_exact (b := sh * 2 ^ 23 + m) Nat.one_pos (by simp only [infBits]; omega) (by omega), hM]

/-- Every integer below 2^24 is represented exactly (R12). -/
theorem magOf_roundBits_nat {n : Nat} (h : n < 2 ^ 24) :
    magOf (roundBits (n * unitsPerOne) 1) = n * unitsPerOne := by
  rcases Nat.eq_zero_or_pos n with h0 | hp
  · subst h0; decide
  · have hlog : n.log2 < 24 := (Nat.log2_lt (by omega)).2 h
    have hlo : 2 ^ n.log2 ≤ n := Nat.log2_self_le (by omega)
    have hhi : n < 2 ^ (n.log2 + 1) := Nat.lt_log2_self
    have key : n * unitsPerOne = n * 2 ^ (23 - n.log2) * 2 ^ (126 + n.log2) := by
      rw [unitsPerOne, Nat.mul_assoc, ← Nat.pow_add]; congr 2; omega
    rw [key]
    refine roundBits_significand _ _ ?_ (Or.inr ?_) (by omega)
    · calc n * 2 ^ (23 - n.log2) ≤ 2 ^ (n.log2 + 1) * 2 ^ (23 - n.log2) := Nat.mul_le_mul_right _ hhi.le
        _ = 2 ^ 24 := by rw [← Nat.pow_add]; congr 1; omega
    · calc 2 ^ 23 = 2 ^ n.log2 * 2 ^ (23 - n.log2) := by rw [← Nat.pow_add]; congr 1; omega
        _ ≤ _ := Nat.mul_le_mul_right _ hlo

/-- `i2f` is exact on every integer of magnitude below 2^24 (R12). -/
theorem value_i2f {n : Int} (h : n.natAbs < 2 ^ 24) : value (i2f n) = n * unitsPerOne := by
  rw [i2f, value_roundTo, mag_roundTo, magOf_roundBits_nat h]
  by_cases hn : n < 0
  · simp only [hn, decide_true, if_true]; push_cast; rw [abs_of_neg hn]; ring
  · simp only [hn, decide_false, Bool.false_eq_true, if_false]; push_cast; rw [abs_of_nonneg (by omega)]

end Sys2Proof.Machine
end

