-- ==== Sys2Proof/Laws/Arith.lean ====
section
/-! SUPPORT. Bounds and exactness of the binary32 operations, stated on values: each operation lies on the same side of
every representable value as the exact result does (spec/00_scope.md R9), and is exact where the result is
representable; the integer conversions on the ranges the rules use (R12). -/

namespace Sys2Proof.Machine

/-! ### Words and their values -/

theorem signBit_eq_decide (a : Word) : signBit a = decide (2 ^ 31 ≤ a.toNat) := by
  simp only [signBit, BitVec.getLsbD, Nat.testBit_eq_decide_div_mod_eq, decide_eq_decide]
  have := a.isLt
  omega

theorem pack_sign_magBits (a : Word) : pack (signBit a) (magBits a) = a := by
  apply BitVec.eq_of_toNat_eq
  rw [signBit_eq_decide]
  have := a.isLt
  simp only [pack, magBits, BitVec.toNat_ofNat, decide_eq_true_eq]
  split <;> omega

theorem value_eq (a : Word) : value a = if signBit a then -(mag a : Int) else mag a := rfl

theorem mag_le_natAbs_iff {a c : Word} : mag a ≤ mag c ↔ (value a).natAbs ≤ (value c).natAbs := by
  rw [natAbs_value, natAbs_value]

/-- Words of one sign and one magnitude are equal. -/
theorem eq_of_sign_mag {a b : Word} (hs : signBit a = signBit b) (hm : mag a = mag b) : a = b := by
  rw [← pack_sign_magBits a, ← pack_sign_magBits b, hs]
  rw [mag_eq_magOf, mag_eq_magOf] at hm
  rw [magOf_strictMono.injective hm]

/-- Words of one non-zero value are equal. -/
theorem eq_of_value_eq {a b : Word} (h : value a = value b) (h0 : value b ≠ 0) : a = b := by
  have ha := natAbs_value a
  have hb := natAbs_value b
  have hm : mag a = mag b := by rw [← ha, ← hb, h]
  refine eq_of_sign_mag ?_ hm
  rw [value_eq b] at h h0
  rw [value_eq a] at h
  cases hsa : signBit a <;> cases hsb : signBit b <;> rw [hsb] at h h0 <;> rw [hsa] at h <;> simp at h h0 ⊢ <;> omega

theorem signBit_of_value_neg {a : Word} (h : value a < 0) : signBit a = true := by
  rw [value_eq] at h; cases hs : signBit a <;> simp [hs] at h ⊢; omega

theorem signBit_of_value_pos {a : Word} (h : 0 < value a) : signBit a = false := by
  rw [value_eq] at h; cases hs : signBit a <;> simp [hs] at h ⊢; omega

/-- A word that is no NaN and no larger in magnitude than a finite one is finite. -/
theorem isFinite_of_mag_le {a c : Word} (hc : isFinite c = true) (h : mag a ≤ mag c) : isFinite a = true := by
  rw [isFinite_iff] at *
  rw [mag_eq_magOf, mag_eq_magOf, magOf_le_magOf] at h
  omega

theorem isFinite_of_bounds {a lo hi : Word} (hlo : isFinite lo = true) (hhi : isFinite hi = true)
    (h1 : value lo ≤ value a) (h2 : value a ≤ value hi) : isFinite a = true := by
  by_cases h : 0 ≤ value a
  · exact isFinite_of_mag_le hhi (mag_le_natAbs_iff.2 (by omega))
  · exact isFinite_of_mag_le hlo (mag_le_natAbs_iff.2 (by omega))

/-! ### Rounding, on signed values -/

theorem value_roundTo_le {neg : Bool} {num den : Nat} {c : Word} (hd : 0 < den) (hc : isNaN c = false)
    (h : (if neg then -(num : Int) else num) ≤ value c * den) : value (roundTo neg num den) ≤ value c := by
  rw [value_roundTo]
  have hm := natAbs_value c
  cases neg
  · simp only [Bool.false_eq_true, if_false] at h ⊢
    have hc0 : 0 ≤ value c := by
      by_contra hn
      have h1 : value c * (den : Int) < 0 := Int.mul_neg_of_neg_of_pos (by omega) (by omega)
      omega
    have : (mag c : Int) = value c := by omega
    have := mag_roundTo_le (neg := false) (num := num) (den := den) (c := c) hd (by
      have h3 : ((mag c * den : Nat) : Int) = value c * den := by push_cast; rw [this]
      omega)
    omega
  · simp only [if_true] at h ⊢
    rcases lt_or_ge (value c) 0 with hc0 | hc0
    · have h2 : (mag c : Int) = -value c := by omega
      have := le_mag_roundTo (neg := true) (num := num) (den := den) (c := c) hd hc (by
        have h3 : ((mag c * den : Nat) : Int) = -(value c * den) := by push_cast; rw [h2]; ring
        omega)
      omega
    · omega

theorem le_value_roundTo {neg : Bool} {num den : Nat} {c : Word} (hd : 0 < den) (hc : isNaN c = false)
    (h : value c * den ≤ (if neg then -(num : Int) else num)) : value c ≤ value (roundTo neg num den) := by
  rw [value_roundTo]
  have hm := natAbs_value c
  cases neg
  · simp only [Bool.false_eq_true, if_false] at h ⊢
    rcases lt_or_ge (value c) 0 with hc0 | hc0
    · omega
    · have h2 : (mag c : Int) = value c := by omega
      have := le_mag_roundTo (neg := false) (num := num) (den := den) (c := c) hd hc (by
        have h3 : ((mag c * den : Nat) : Int) = value c * den := by push_cast; rw [h2]
        omega)
      omega
  · simp only [if_true] at h ⊢
    have hc0 : value c ≤ 0 := by
      by_contra hn
      have h1 : 0 < value c * (den : Int) := Int.mul_pos (by omega) (by omega)
      omega
    have h2 : (mag c : Int) = -value c := by omega
    have := mag_roundTo_le (neg := true) (num := num) (den := den) (c := c) hd (by
      have h3 : ((mag c * den : Nat) : Int) = -(value c * den) := by push_cast; rw [h2]; ring
      omega)
    omega

theorem value_roundTo_exact {neg : Bool} {num den : Nat} {c : Word} (hd : 0 < den) (hc : isNaN c = false)
    (h : (if neg then -(num : Int) else num) = value c * den) : value (roundTo neg num den) = value c :=
  le_antisymm (value_roundTo_le hd hc h.le) (le_value_roundTo hd hc h.ge)

/-! ### Addition and subtraction -/

/-- A sum that is representable is exact. -/
theorem value_fadd_exact {a b c : Word} (ha : isFinite a = true) (hb : isFinite b = true) (hc : isNaN c = false)
    (h : value a + value b = value c) : value (fadd a b) = value c :=
  le_antisymm (value_fadd_le ha hb hc h.le) (le_value_fadd ha hb hc h.ge)

theorem isNaN_fsub {a b : Word} (ha : isFinite a = true) (hb : isFinite b = true) : isNaN (fsub a b) = false :=
  isNaN_fadd ha (isFinite_fneg hb)

theorem value_fsub_le {a b c : Word} (ha : isFinite a = true) (hb : isFinite b = true) (hc : isNaN c = false)
    (h : value a - value b ≤ value c) : value (fsub a b) ≤ value c :=
  value_fadd_le ha (isFinite_fneg hb) hc (by rw [value_fneg (isNaN_of_isFinite hb)]; omega)

theorem le_value_fsub {a b c : Word} (ha : isFinite a = true) (hb : isFinite b = true) (hc : isNaN c = false)
    (h : value c ≤ value a - value b) : value c ≤ value (fsub a b) :=
  le_value_fadd ha (isFinite_fneg hb) hc (by rw [value_fneg (isNaN_of_isFinite hb)]; omega)

theorem value_fsub_exact {a b c : Word} (ha : isFinite a = true) (hb : isFinite b = true) (hc : isNaN c = false)
    (h : value a - value b = value c) : value (fsub a b) = value c :=
  le_antisymm (value_fsub_le ha hb hc h.le) (le_value_fsub ha hb hc h.ge)

/-! ### Multiplication and division -/

theorem unitsPerOne_pos : 0 < unitsPerOne := Nat.two_pow_pos _

theorem isNaN_fmul {a b : Word} (ha : isFinite a = true) (hb : isFinite b = true) : isNaN (fmul a b) = false := by
  rw [fmul_of_finite ha hb]; exact isNaN_roundTo _ _ _

theorem signed_mul (a b : Word) :
    (if signBit a != signBit b then -((mag a * mag b : Nat) : Int) else (mag a * mag b : Nat)) = value a * value b := by
  rw [value_eq a, value_eq b]
  cases signBit a <;> cases signBit b <;> simp

theorem value_fmul_le {a b c : Word} (ha : isFinite a = true) (hb : isFinite b = true) (hc : isNaN c = false)
    (h : value a * value b ≤ value c * unitsPerOne) : value (fmul a b) ≤ value c := by
  rw [fmul_of_finite ha hb]
  exact value_roundTo_le unitsPerOne_pos hc (by rw [signed_mul]; exact h)

theorem le_value_fmul {a b c : Word} (ha : isFinite a = true) (hb : isFinite b = true) (hc : isNaN c = false)
    (h : value c * unitsPerOne ≤ value a * value b) : value c ≤ value (fmul a b) := by
  rw [fmul_of_finite ha hb]
  exact le_value_roundTo unitsPerOne_pos hc (by rw [signed_mul]; exact h)

theorem value_fmul_exact {a b c : Word} (ha : isFinite a = true) (hb : isFinite b = true) (hc : isNaN c = false)
    (h : value a * value b = value c * unitsPerOne) : value (fmul a b) = value c :=
  le_antisymm (value_fmul_le ha hb hc h.le) (le_value_fmul ha hb hc h.ge)

theorem isNaN_fdiv {a b : Word} (ha : isFinite a = true) (hb : isFinite b = true) (h0 : mag b ≠ 0) :
    isNaN (fdiv a b) = false := by
  rw [fdiv_of_finite ha hb h0]; exact isNaN_roundTo _ _ _

/-- A rounded quotient of a non-negative by a positive is at most any representable value the exact one is at most. -/
theorem value_fdiv_le {a b c : Word} (ha : isFinite a = true) (hb : isFinite b = true) (hc : isNaN c = false)
    (h0 : 0 ≤ value a) (h1 : 0 < value b) (h : value a * unitsPerOne ≤ value c * value b) :
    value (fdiv a b) ≤ value c := by
  have hb' := natAbs_value b
  have ha' := natAbs_value a
  have hbm : (mag b : Int) = value b := by omega
  have ham : (mag a : Int) = value a := by omega
  rw [fdiv_of_finite ha hb (by omega)]
  refine value_roundTo_le (by omega) hc ?_
  rw [hbm]
  refine le_trans ?_ h
  have : ((mag a * unitsPerOne : Nat) : Int) = value a * unitsPerOne := by push_cast; rw [ham]
  split <;> omega

/-- A rounded quotient of a non-negative by a positive is at least any representable non-negative value that the exact
one is at least. -/
theorem le_value_fdiv {a b c : Word} (ha : isFinite a = true) (hb : isFinite b = true) (hc : isNaN c = false)
    (h0 : signBit a = false) (h1 : 0 < value b) (h : value c * value b ≤ value a * unitsPerOne) :
    value c ≤ value (fdiv a b) := by
  have hb' := natAbs_value b
  have ham : (mag a : Int) = value a := by rw [value_eq, h0]; rfl
  have hbm : (mag b : Int) = value b := by omega
  have hsb := signBit_of_value_pos h1
  rw [fdiv_of_finite ha hb (by omega), h0, hsb]
  refine le_value_roundTo (by omega) hc ?_
  rw [hbm]
  refine le_trans h ?_
  push_cast
  rw [ham]
  exact le_refl _

/-! ### Signs of zero and the integer conversions -/

theorem value_posZero : value posZero = 0 := by decide

theorem mag_fOne : mag fOne = unitsPerOne := by decide +kernel

theorem value_fOne : value fOne = unitsPerOne := by
  rw [value_eq, show signBit fOne = false by decide, mag_fOne]; simp

theorem isFinite_posZero : isFinite posZero = true := by decide

theorem isFinite_fOne : isFinite fOne = true := by decide

theorem isFinite_i2f {n : Int} (h : n.natAbs < 2 ^ 24) : isFinite (i2f n) = true := by
  have hm : mag (i2f n) = n.natAbs * unitsPerOne := by
    rw [i2f, mag_roundTo, magOf_roundBits_nat h]
  refine isFinite_of_mag_le (c := 0x4B800000#32) (by decide) ?_
  rw [hm, show mag 0x4B800000#32 = 2 ^ 24 * unitsPerOne by decide +kernel]
  exact Nat.mul_le_mul_right _ h.le

/-- `f2i` of an integral value in range is that integer (R12). -/
theorem f2i_of_integral {a : Word} {n : Int} (hn : isNaN a = false) (h : value a = n * unitsPerOne)
    (hr : n.natAbs < 2 ^ 31) : f2i a = n := by
  have hm := natAbs_value a
  have hmod : mag a % unitsPerOne = 0 := by
    rw [← hm, h, Int.natAbs_mul, Int.natAbs_natCast, Nat.mul_mod_left]
  have hdiv : value a / (unitsPerOne : Int) = n := by
    rw [h]; exact Int.mul_ediv_cancel _ (by have := unitsPerOne_pos; omega)
  simp only [f2i, hn, hmod, hdiv, if_true, Bool.false_eq_true, if_false]
  omega

/-- The floor of a non-negative value below 2^24 (R12). -/
theorem value_ffloor {a : Word} (hf : isFinite a = true) (h0 : 0 ≤ value a) (h : value a < 2 ^ 24 * unitsPerOne) :
    value (ffloor a) = value a / (unitsPerOne : Int) * unitsPerOne := by
  have hU : (0 : Int) < unitsPerOne := by have := unitsPerOne_pos; omega
  obtain ⟨n, hn⟩ : ∃ n : Nat, value a / (unitsPerOne : Int) = n :=
    ⟨(value a / (unitsPerOne : Int)).toNat, (Int.toNat_of_nonneg (Int.ediv_nonneg h0 hU.le)).symm⟩
  have hlt : n < 2 ^ 24 := by
    have : value a / (unitsPerOne : Int) < 2 ^ 24 := Int.ediv_lt_of_lt_mul hU h
    omega
  simp only [ffloor, hf, if_true, hn, Int.natAbs_natCast]
  rw [value_roundTo, mag_roundTo, magOf_roundBits_nat hlt]
  cases hs : signBit a
  · simp
  · have hz : value a = 0 := by
      have := value_eq a
      rw [hs] at this
      simp at this
      omega
    have : n = 0 := by rw [hz] at hn; simp at hn; omega
    subst this
    simp

theorem isFinite_ffloor {a : Word} (hf : isFinite a = true) (h0 : 0 ≤ value a) (h : value a < 2 ^ 24 * unitsPerOne) :
    isFinite (ffloor a) = true := by
  have hv := value_ffloor hf h0 h
  have hU : (0 : Int) < unitsPerOne := by have := unitsPerOne_pos; omega
  refine isFinite_of_mag_le hf (mag_le_natAbs_iff.2 ?_)
  have h1 : value a / (unitsPerOne : Int) * unitsPerOne ≤ value a := Int.ediv_mul_le _ hU.ne'
  have h2 : 0 ≤ value a / (unitsPerOne : Int) * unitsPerOne := Int.mul_nonneg (Int.ediv_nonneg h0 hU.le) hU.le
  omega

/-- The integer part of a non-negative value below 2^24. -/
theorem f2i_ffloor {a : Word} (hf : isFinite a = true) (h0 : 0 ≤ value a) (h : value a < 2 ^ 24 * unitsPerOne) :
    f2i (ffloor a) = value a / (unitsPerOne : Int) := by
  have hU : (0 : Int) < unitsPerOne := by have := unitsPerOne_pos; omega
  refine f2i_of_integral (isNaN_of_isFinite (isFinite_ffloor hf h0 h)) (value_ffloor hf h0 h) ?_
  have h1 : value a / (unitsPerOne : Int) < 2 ^ 24 := Int.ediv_lt_of_lt_mul hU h
  have h2 : 0 ≤ value a / (unitsPerOne : Int) := Int.ediv_nonneg h0 hU.le
  omega

theorem half_up_lt {m U : Nat} (hU : 0 < U) (h : m < 2 ^ 23 * U) : (2 * m + U) / (2 * U) < 2 ^ 24 := by
  rw [Nat.div_lt_iff_lt_mul (by omega)]; omega

theorem roundHaz_eq {a : Word} (hf : isFinite a = true) (h : mag a < 2 ^ 23 * unitsPerOne) :
    roundHaz a = roundTo (signBit a) ((2 * mag a + unitsPerOne) / (2 * unitsPerOne) * unitsPerOne) 1 := by
  unfold roundHaz
  rw [if_pos]
  rw [hf, decide_eq_true h]
  rfl

/-- A small integer of either sign, made of a sign and a magnitude. -/
theorem f2i_roundTo_nat (neg : Bool) {k : Nat} (hk : k < 2 ^ 24) :
    f2i (roundTo neg (k * unitsPerOne) 1) = if neg then -(k : Int) else k := by
  refine f2i_of_integral (isNaN_roundTo _ _ _) ?_ ?_
  · rw [value_roundTo, mag_roundTo, magOf_roundBits_nat hk]
    cases neg <;> simp
  · have hk' : k < 2 ^ 31 := lt_trans hk (by decide)
    cases neg
    · exact hk'
    · rw [if_pos rfl, Int.natAbs_neg]; exact hk'

/-- Rounding half away from zero, on a magnitude below 2^23 (R12). -/
theorem f2i_roundHaz {a : Word} (hf : isFinite a = true) (h : mag a < 2 ^ 23 * unitsPerOne) :
    f2i (roundHaz a) =
      if signBit a then -(((2 * mag a + unitsPerOne) / (2 * unitsPerOne) : Nat) : Int)
      else ((2 * mag a + unitsPerOne) / (2 * unitsPerOne) : Nat) := by
  rw [roundHaz_eq hf h]
  exact f2i_roundTo_nat (signBit a) (half_up_lt unitsPerOne_pos h)

theorem half_up_le {m n U : Nat} (hU : 0 < U) (h : m ≤ n * U) : (2 * m + U) / (2 * U) ≤ n := by
  rw [← Nat.lt_succ_iff, Nat.div_lt_iff_lt_mul (by omega)]
  calc 2 * m + U ≤ 2 * (n * U) + U := by omega
    _ < 2 * (n * U) + 2 * U := by omega
    _ = n.succ * (2 * U) := by rw [Nat.succ_eq_add_one]; ring

theorem toNat_signed_le {neg : Bool} {k n : Nat} (h : k ≤ n) : (if neg then -(k : Int) else k).toNat ≤ n := by
  cases neg
  · simpa using h
  · simp

/-- A rounded magnitude of at most `n` rounds to an integer of at most `n`. -/
theorem f2i_roundHaz_le {a : Word} {n : Nat} (hf : isFinite a = true) (hn : n < 2 ^ 23) (h : mag a ≤ n * unitsPerOne) :
    (f2i (roundHaz a)).toNat ≤ n := by
  rw [f2i_roundHaz hf (lt_of_le_of_lt h (Nat.mul_lt_mul_of_pos_right hn unitsPerOne_pos))]
  exact toNat_signed_le (half_up_le unitsPerOne_pos h)

/-! ### Identities -/

/-- Adding a zero to a non-zero word leaves it (R9). -/
theorem fadd_zero_right {a z : Word} (ha : isFinite a = true) (hz : mag z = 0) (h0 : mag a ≠ 0) : fadd a z = a := by
  have hzf : isFinite z = true := isFinite_of_mag_le isFinite_posZero (by omega)
  have hz' := natAbs_value z
  have ha' := natAbs_value a
  exact eq_of_value_eq (value_fadd_exact ha hzf (isNaN_of_isFinite ha) (by omega)) (by omega)

/-- Multiplying a word that is no NaN by 1.0 leaves it. -/
theorem fmul_one {a : Word} (ha : isNaN a = false) : fmul a fOne = a := by
  cases hf : isFinite a
  · have hi : isInf a = true := by
      rw [isInf_iff]
      have h1 := (isNaN_eq_false_iff a).1 ha
      have h2 : ¬ magBits a < infBits := fun h => by rw [(isFinite_iff a).2 h] at hf; cases hf
      omega
    have h0 : mag a ≠ 0 := by
      intro h
      have h2 := isFinite_of_mag_le (a := a) isFinite_posZero (by rw [h]; exact Nat.zero_le _)
      rw [h2] at hf; cases hf
    have hp := pack_sign_magBits a
    rw [(isInf_iff a).1 hi] at hp
    have h1 : isNaN fOne = false := by decide
    have h2 : mag fOne ≠ 0 := by decide
    have h3 : signBit fOne = false := by decide
    simp [fmul, ha, h1, hi, h0, h2, h3, hp]
  · have hm : mag (fmul a fOne) = mag a := by
      rw [fmul_of_finite hf isFinite_fOne]
      refine mag_roundTo_exact unitsPerOne_pos ha ?_
      rw [mag_fOne]
    refine eq_of_sign_mag ?_ hm
    rw [fmul_of_finite hf isFinite_fOne, signBit_roundTo, show signBit fOne = false by decide]
    simp

end Sys2Proof.Machine
end

