-- ==== Sys2Proof/Laws/Memory.lean ====
section
/-! SUPPORT. Laws of the internal memories: read after write, every other word unchanged, and the canonical form and the
bound of the listed indices kept by every write. -/

namespace Sys2Proof.Machine

theorem readCells_writeCells_other {a b : Nat} (w : Word) (h : a ≠ b) :
    ∀ cells : List WordCell, readCells (writeCells cells a w) b = readCells cells b
  | [] => by
    unfold writeCells
    split
    · rfl
    · simp [readCells, h.symm]
  | (k, v) :: rest => by
    have ih := readCells_writeCells_other w h rest
    unfold writeCells
    split
    · split
      · rfl
      · simp [readCells, h.symm]
    · split
      · next hk =>
        subst hk
        split <;> simp [readCells, h.symm]
      · simp only [readCells, ih]

theorem readCells_of_all_ne {a : Nat} :
    ∀ {cells : List WordCell}, (∀ p ∈ cells, p.1 ≠ a) → readCells cells a = Memory.unlisted
  | [], _ => rfl
  | (k, v) :: rest, h => by
    have hk : a ≠ k := fun e => h (k, v) (List.mem_cons_self ..) e.symm
    simp only [readCells, if_neg hk]
    exact readCells_of_all_ne fun p hp => h p (List.mem_cons_of_mem _ hp)

theorem readCells_writeCells_same (a : Nat) (w : Word) :
    ∀ {cells : List WordCell}, cells.Pairwise (fun p q => p.1 < q.1) → readCells (writeCells cells a w) a = w
  | [], _ => by
    unfold writeCells
    split
    · next h => simp [readCells, h]
    · simp [readCells]
  | (k, v) :: rest, hs => by
    rw [List.pairwise_cons] at hs
    have ih := readCells_writeCells_same a w hs.2
    unfold writeCells
    split
    · next hlt =>
      split
      · next h =>
        rw [h]
        refine readCells_of_all_ne fun p hp => ?_
        rcases List.mem_cons.1 hp with rfl | hr
        · exact hlt.ne'
        · exact (hlt.trans (hs.1 p hr)).ne'
      · simp [readCells]
    · split
      · next hk =>
        subst hk
        split
        · next h =>
          rw [h]
          exact readCells_of_all_ne fun p hp => (hs.1 p hp).ne'
        · simp [readCells]
      · next hk => simp only [readCells, if_neg hk, ih]

/-- What a write lists: cells that were there, and at most the written one, with the written word. -/
theorem mem_writeCells {a : Nat} {w : Word} {p : WordCell} :
    ∀ {cells : List WordCell}, p ∈ writeCells cells a w → p ∈ cells ∨ (p = (a, w) ∧ w ≠ Memory.unlisted)
  | [], h => by
    unfold writeCells at h
    split at h
    · simp at h
    · next hw => exact Or.inr ⟨by simpa using h, hw⟩
  | (k, v) :: rest, h => by
    unfold writeCells at h
    split at h
    · split at h
      · exact Or.inl h
      · next hw =>
        rcases List.mem_cons.1 h with rfl | hr
        · exact Or.inr ⟨rfl, hw⟩
        · exact Or.inl hr
    · split at h
      · split at h
        · exact Or.inl (List.mem_cons_of_mem _ h)
        · next hw =>
          rcases List.mem_cons.1 h with rfl | hr
          · exact Or.inr ⟨rfl, hw⟩
          · exact Or.inl (List.mem_cons_of_mem _ hr)
      · rcases List.mem_cons.1 h with rfl | hr
        · exact Or.inl (List.mem_cons_self ..)
        · rcases mem_writeCells hr with h1 | h1
          · exact Or.inl (List.mem_cons_of_mem _ h1)
          · exact Or.inr h1

theorem pairwise_writeCells (a : Nat) (w : Word) :
    ∀ {cells : List WordCell}, cells.Pairwise (fun p q => p.1 < q.1) →
      (writeCells cells a w).Pairwise (fun p q => p.1 < q.1)
  | [], _ => by unfold writeCells; split <;> simp
  | (k, v) :: rest, hs => by
    have hc := List.pairwise_cons.1 hs
    unfold writeCells
    split
    · next hlt =>
      split
      · exact hs
      · refine List.pairwise_cons.2 ⟨fun p hp => ?_, hs⟩
        rcases List.mem_cons.1 hp with rfl | hr
        · exact hlt
        · exact hlt.trans (hc.1 p hr)
    · next hnlt =>
      split
      · next hk =>
        subst hk
        split
        · exact hc.2
        · exact List.pairwise_cons.2 ⟨hc.1, hc.2⟩
      · next hk =>
        refine List.pairwise_cons.2 ⟨fun p hp => ?_, pairwise_writeCells a w hc.2⟩
        rcases mem_writeCells hp with h1 | ⟨rfl, _⟩
        · exact hc.1 p h1
        · change k < a
          omega

/-- A word read where it was written is the word written (R67). -/
theorem read_write_same {m : Memory} (h : m.wf) (i : Nat) (w : Word) : (m.write i w).read i = w :=
  readCells_writeCells_same i w h.1

/-- A write leaves every other word alone. -/
theorem read_write_other (m : Memory) {i j : Nat} (w : Word) (h : i ≠ j) : (m.write i w).read j = m.read j :=
  readCells_writeCells_other w h m.cells

/-- A write keeps the canonical form. -/
theorem wf_write {m : Memory} (h : m.wf) (i : Nat) (w : Word) : (m.write i w).wf := by
  refine ⟨pairwise_writeCells i w h.1, fun p hp => ?_⟩
  rcases mem_writeCells hp with h1 | ⟨rfl, hw⟩
  · exact h.2 p h1
  · exact hw

/-- A write below a bound keeps every listed index below it. -/
theorem below_write {m : Memory} {len i : Nat} (h : ∀ p ∈ m.cells, p.1 < len) (hi : i < len) (w : Word) :
    ∀ p ∈ (m.write i w).cells, p.1 < len := by
  intro p hp
  rcases mem_writeCells hp with h1 | ⟨rfl, _⟩
  · exact h p h1
  · exact hi

theorem wf_cleared : Memory.cleared.wf := ⟨List.Pairwise.nil, fun _ hp => nomatch hp⟩

@[simp] theorem read_cleared (i : Nat) : Memory.cleared.read i = Memory.unlisted := rfl

theorem nextIndex_lt {i len : Nat} (h : 0 < len) : nextIndex i len < len := Nat.mod_lt _ h

/-! ### Vectors of units -/

@[simp] theorem zipPlaces_get {α β γ : Type} {n : Nat} (f : α → β → γ) (a : Vector α n) (b : Vector β n) (i : Nat)
    (h : i < n) : (zipPlaces f a b)[i] = f a[i] b[i] := by
  simp [zipPlaces]

@[simp] theorem mapPlaces_get {α β : Type} {n : Nat} (f : α → β) (a : Vector α n) (i : Nat) (h : i < n) :
    (mapPlaces f a)[i] = f a[i] := by
  simp [mapPlaces]

end Sys2Proof.Machine
end

