-- ==== Sys2Proof/Laws/State.lean ====
section
/-! SUPPORT. One lemma per field per named update of the state, true by `rfl`, so that no later proof unfolds a record
update. -/

namespace Sys2Proof.Machine

/-! ### `answer` -/

@[simp] theorem answer_life (d : Word) (s : State) : (answer d s).life = s.life := rfl
@[simp] theorem answer_fs (d : Word) (s : State) : (answer d s).fs = s.fs := rfl
@[simp] theorem answer_nch (d : Word) (s : State) : (answer d s).nch = s.nch := rfl
@[simp] theorem answer_rem (d : Word) (s : State) : (answer d s).rem = s.rem := rfl
@[simp] theorem answer_numin (d : Word) (s : State) : (answer d s).numin = s.numin := rfl
@[simp] theorem answer_numout (d : Word) (s : State) : (answer d s).numout = s.numout := rfl
@[simp] theorem answer_in0 (d : Word) (s : State) : (answer d s).in0 = s.in0 := rfl
@[simp] theorem answer_in1 (d : Word) (s : State) : (answer d s).in1 = s.in1 := rfl
@[simp] theorem answer_out0 (d : Word) (s : State) : (answer d s).out0 = s.out0 := rfl
@[simp] theorem answer_out1 (d : Word) (s : State) : (answer d s).out1 = s.out1 := rfl
@[simp] theorem answer_err (d : Word) (s : State) : (answer d s).err = s.err := rfl
@[simp] theorem answer_params (d : Word) (s : State) : (answer d s).params = s.params := rfl
@[simp] theorem answer_bcph (d : Word) (s : State) : (answer d s).bcph = s.bcph := rfl
@[simp] theorem answer_flph (d : Word) (s : State) : (answer d s).flph = s.flph := rfl
@[simp] theorem answer_coef (d : Word) (s : State) : (answer d s).coef = s.coef := rfl
@[simp] theorem answer_env (d : Word) (s : State) : (answer d s).env = s.env := rfl
@[simp] theorem answer_tw (d : Word) (s : State) : (answer d s).tw = s.tw := rfl
@[simp] theorem answer_trp (d : Word) (s : State) : (answer d s).trp = s.trp := rfl
@[simp] theorem answer_lane0 (d : Word) (s : State) : (answer d s).lane0 = s.lane0 := rfl
@[simp] theorem answer_lane1 (d : Word) (s : State) : (answer d s).lane1 = s.lane1 := rfl
@[simp] theorem answer_port (d : Word) (s : State) : (answer d s).port = s.port := rfl
@[simp] theorem answer_resp (d : Word) (s : State) : (answer d s).resp = some d := rfl

/-! ### `acknowledge` -/

@[simp] theorem acknowledge_life (s : State) : (acknowledge s).life = s.life := rfl
@[simp] theorem acknowledge_fs (s : State) : (acknowledge s).fs = s.fs := rfl
@[simp] theorem acknowledge_nch (s : State) : (acknowledge s).nch = s.nch := rfl
@[simp] theorem acknowledge_rem (s : State) : (acknowledge s).rem = s.rem := rfl
@[simp] theorem acknowledge_numin (s : State) : (acknowledge s).numin = s.numin := rfl
@[simp] theorem acknowledge_numout (s : State) : (acknowledge s).numout = s.numout := rfl
@[simp] theorem acknowledge_in0 (s : State) : (acknowledge s).in0 = s.in0 := rfl
@[simp] theorem acknowledge_in1 (s : State) : (acknowledge s).in1 = s.in1 := rfl
@[simp] theorem acknowledge_out0 (s : State) : (acknowledge s).out0 = s.out0 := rfl
@[simp] theorem acknowledge_out1 (s : State) : (acknowledge s).out1 = s.out1 := rfl
@[simp] theorem acknowledge_err (s : State) : (acknowledge s).err = s.err := rfl
@[simp] theorem acknowledge_params (s : State) : (acknowledge s).params = s.params := rfl
@[simp] theorem acknowledge_bcph (s : State) : (acknowledge s).bcph = s.bcph := rfl
@[simp] theorem acknowledge_flph (s : State) : (acknowledge s).flph = s.flph := rfl
@[simp] theorem acknowledge_coef (s : State) : (acknowledge s).coef = s.coef := rfl
@[simp] theorem acknowledge_env (s : State) : (acknowledge s).env = s.env := rfl
@[simp] theorem acknowledge_tw (s : State) : (acknowledge s).tw = s.tw := rfl
@[simp] theorem acknowledge_trp (s : State) : (acknowledge s).trp = s.trp := rfl
@[simp] theorem acknowledge_lane0 (s : State) : (acknowledge s).lane0 = s.lane0 := rfl
@[simp] theorem acknowledge_lane1 (s : State) : (acknowledge s).lane1 = s.lane1 := rfl
@[simp] theorem acknowledge_port (s : State) : (acknowledge s).port = s.port := rfl
@[simp] theorem acknowledge_resp (s : State) : (acknowledge s).resp = none := rfl

/-! ### `flagError` -/

@[simp] theorem flagError_life (c : ErrCause) (s : State) : (flagError c s).life = s.life := rfl
@[simp] theorem flagError_fs (c : ErrCause) (s : State) : (flagError c s).fs = s.fs := rfl
@[simp] theorem flagError_nch (c : ErrCause) (s : State) : (flagError c s).nch = s.nch := rfl
@[simp] theorem flagError_rem (c : ErrCause) (s : State) : (flagError c s).rem = s.rem := rfl
@[simp] theorem flagError_numin (c : ErrCause) (s : State) : (flagError c s).numin = s.numin := rfl
@[simp] theorem flagError_numout (c : ErrCause) (s : State) : (flagError c s).numout = s.numout := rfl
@[simp] theorem flagError_in0 (c : ErrCause) (s : State) : (flagError c s).in0 = s.in0 := rfl
@[simp] theorem flagError_in1 (c : ErrCause) (s : State) : (flagError c s).in1 = s.in1 := rfl
@[simp] theorem flagError_out0 (c : ErrCause) (s : State) : (flagError c s).out0 = s.out0 := rfl
@[simp] theorem flagError_out1 (c : ErrCause) (s : State) : (flagError c s).out1 = s.out1 := rfl
@[simp] theorem flagError_err (c : ErrCause) (s : State) : (flagError c s).err = errSet c s.err := rfl
@[simp] theorem flagError_params (c : ErrCause) (s : State) : (flagError c s).params = s.params := rfl
@[simp] theorem flagError_bcph (c : ErrCause) (s : State) : (flagError c s).bcph = s.bcph := rfl
@[simp] theorem flagError_flph (c : ErrCause) (s : State) : (flagError c s).flph = s.flph := rfl
@[simp] theorem flagError_coef (c : ErrCause) (s : State) : (flagError c s).coef = s.coef := rfl
@[simp] theorem flagError_env (c : ErrCause) (s : State) : (flagError c s).env = s.env := rfl
@[simp] theorem flagError_tw (c : ErrCause) (s : State) : (flagError c s).tw = s.tw := rfl
@[simp] theorem flagError_trp (c : ErrCause) (s : State) : (flagError c s).trp = s.trp := rfl
@[simp] theorem flagError_lane0 (c : ErrCause) (s : State) : (flagError c s).lane0 = s.lane0 := rfl
@[simp] theorem flagError_lane1 (c : ErrCause) (s : State) : (flagError c s).lane1 = s.lane1 := rfl
@[simp] theorem flagError_port (c : ErrCause) (s : State) : (flagError c s).port = s.port := rfl
@[simp] theorem flagError_resp (c : ErrCause) (s : State) : (flagError c s).resp = s.resp := rfl

/-! ### `clearErrors` -/

@[simp] theorem clearErrors_life (m : BitVec 4) (s : State) : (clearErrors m s).life = s.life := rfl
@[simp] theorem clearErrors_fs (m : BitVec 4) (s : State) : (clearErrors m s).fs = s.fs := rfl
@[simp] theorem clearErrors_nch (m : BitVec 4) (s : State) : (clearErrors m s).nch = s.nch := rfl
@[simp] theorem clearErrors_rem (m : BitVec 4) (s : State) : (clearErrors m s).rem = s.rem := rfl
@[simp] theorem clearErrors_numin (m : BitVec 4) (s : State) : (clearErrors m s).numin = s.numin := rfl
@[simp] theorem clearErrors_numout (m : BitVec 4) (s : State) : (clearErrors m s).numout = s.numout := rfl
@[simp] theorem clearErrors_in0 (m : BitVec 4) (s : State) : (clearErrors m s).in0 = s.in0 := rfl
@[simp] theorem clearErrors_in1 (m : BitVec 4) (s : State) : (clearErrors m s).in1 = s.in1 := rfl
@[simp] theorem clearErrors_out0 (m : BitVec 4) (s : State) : (clearErrors m s).out0 = s.out0 := rfl
@[simp] theorem clearErrors_out1 (m : BitVec 4) (s : State) : (clearErrors m s).out1 = s.out1 := rfl
@[simp] theorem clearErrors_err (m : BitVec 4) (s : State) : (clearErrors m s).err = errClear m s.err := rfl
@[simp] theorem clearErrors_params (m : BitVec 4) (s : State) : (clearErrors m s).params = s.params := rfl
@[simp] theorem clearErrors_bcph (m : BitVec 4) (s : State) : (clearErrors m s).bcph = s.bcph := rfl
@[simp] theorem clearErrors_flph (m : BitVec 4) (s : State) : (clearErrors m s).flph = s.flph := rfl
@[simp] theorem clearErrors_coef (m : BitVec 4) (s : State) : (clearErrors m s).coef = s.coef := rfl
@[simp] theorem clearErrors_env (m : BitVec 4) (s : State) : (clearErrors m s).env = s.env := rfl
@[simp] theorem clearErrors_tw (m : BitVec 4) (s : State) : (clearErrors m s).tw = s.tw := rfl
@[simp] theorem clearErrors_trp (m : BitVec 4) (s : State) : (clearErrors m s).trp = s.trp := rfl
@[simp] theorem clearErrors_lane0 (m : BitVec 4) (s : State) : (clearErrors m s).lane0 = s.lane0 := rfl
@[simp] theorem clearErrors_lane1 (m : BitVec 4) (s : State) : (clearErrors m s).lane1 = s.lane1 := rfl
@[simp] theorem clearErrors_port (m : BitVec 4) (s : State) : (clearErrors m s).port = s.port := rfl
@[simp] theorem clearErrors_resp (m : BitVec 4) (s : State) : (clearErrors m s).resp = s.resp := rfl

/-! ### `setParams` -/

@[simp] theorem setParams_life (p : Params) (s : State) : (setParams p s).life = s.life := rfl
@[simp] theorem setParams_fs (p : Params) (s : State) : (setParams p s).fs = s.fs := rfl
@[simp] theorem setParams_nch (p : Params) (s : State) : (setParams p s).nch = s.nch := rfl
@[simp] theorem setParams_rem (p : Params) (s : State) : (setParams p s).rem = s.rem := rfl
@[simp] theorem setParams_numin (p : Params) (s : State) : (setParams p s).numin = s.numin := rfl
@[simp] theorem setParams_numout (p : Params) (s : State) : (setParams p s).numout = s.numout := rfl
@[simp] theorem setParams_in0 (p : Params) (s : State) : (setParams p s).in0 = s.in0 := rfl
@[simp] theorem setParams_in1 (p : Params) (s : State) : (setParams p s).in1 = s.in1 := rfl
@[simp] theorem setParams_out0 (p : Params) (s : State) : (setParams p s).out0 = s.out0 := rfl
@[simp] theorem setParams_out1 (p : Params) (s : State) : (setParams p s).out1 = s.out1 := rfl
@[simp] theorem setParams_err (p : Params) (s : State) : (setParams p s).err = s.err := rfl
@[simp] theorem setParams_params (p : Params) (s : State) : (setParams p s).params = p := rfl
@[simp] theorem setParams_bcph (p : Params) (s : State) : (setParams p s).bcph = s.bcph := rfl
@[simp] theorem setParams_flph (p : Params) (s : State) : (setParams p s).flph = s.flph := rfl
@[simp] theorem setParams_coef (p : Params) (s : State) : (setParams p s).coef = s.coef := rfl
@[simp] theorem setParams_env (p : Params) (s : State) : (setParams p s).env = s.env := rfl
@[simp] theorem setParams_tw (p : Params) (s : State) : (setParams p s).tw = s.tw := rfl
@[simp] theorem setParams_trp (p : Params) (s : State) : (setParams p s).trp = s.trp := rfl
@[simp] theorem setParams_lane0 (p : Params) (s : State) : (setParams p s).lane0 = s.lane0 := rfl
@[simp] theorem setParams_lane1 (p : Params) (s : State) : (setParams p s).lane1 = s.lane1 := rfl
@[simp] theorem setParams_port (p : Params) (s : State) : (setParams p s).port = s.port := rfl
@[simp] theorem setParams_resp (p : Params) (s : State) : (setParams p s).resp = s.resp := rfl

/-! ### `latchCoef` -/

@[simp] theorem latchCoef_life (cfg : Config) (s : State) : (latchCoef cfg s).life = s.life := rfl
@[simp] theorem latchCoef_fs (cfg : Config) (s : State) : (latchCoef cfg s).fs = s.fs := rfl
@[simp] theorem latchCoef_nch (cfg : Config) (s : State) : (latchCoef cfg s).nch = s.nch := rfl
@[simp] theorem latchCoef_rem (cfg : Config) (s : State) : (latchCoef cfg s).rem = s.rem := rfl
@[simp] theorem latchCoef_numin (cfg : Config) (s : State) : (latchCoef cfg s).numin = s.numin := rfl
@[simp] theorem latchCoef_numout (cfg : Config) (s : State) : (latchCoef cfg s).numout = s.numout := rfl
@[simp] theorem latchCoef_in0 (cfg : Config) (s : State) : (latchCoef cfg s).in0 = s.in0 := rfl
@[simp] theorem latchCoef_in1 (cfg : Config) (s : State) : (latchCoef cfg s).in1 = s.in1 := rfl
@[simp] theorem latchCoef_out0 (cfg : Config) (s : State) : (latchCoef cfg s).out0 = s.out0 := rfl
@[simp] theorem latchCoef_out1 (cfg : Config) (s : State) : (latchCoef cfg s).out1 = s.out1 := rfl
@[simp] theorem latchCoef_err (cfg : Config) (s : State) : (latchCoef cfg s).err = s.err := rfl
@[simp] theorem latchCoef_params (cfg : Config) (s : State) : (latchCoef cfg s).params = s.params := rfl
@[simp] theorem latchCoef_bcph (cfg : Config) (s : State) : (latchCoef cfg s).bcph = s.bcph := rfl
@[simp] theorem latchCoef_flph (cfg : Config) (s : State) : (latchCoef cfg s).flph = s.flph := rfl
@[simp] theorem latchCoef_coef (cfg : Config) (s : State) : (latchCoef cfg s).coef = filterCoef cfg s.fs s.params s.flph := rfl
@[simp] theorem latchCoef_env (cfg : Config) (s : State) : (latchCoef cfg s).env = s.env := rfl
@[simp] theorem latchCoef_tw (cfg : Config) (s : State) : (latchCoef cfg s).tw = s.tw := rfl
@[simp] theorem latchCoef_trp (cfg : Config) (s : State) : (latchCoef cfg s).trp = s.trp := rfl
@[simp] theorem latchCoef_lane0 (cfg : Config) (s : State) : (latchCoef cfg s).lane0 = s.lane0 := rfl
@[simp] theorem latchCoef_lane1 (cfg : Config) (s : State) : (latchCoef cfg s).lane1 = s.lane1 := rfl
@[simp] theorem latchCoef_port (cfg : Config) (s : State) : (latchCoef cfg s).port = s.port := rfl
@[simp] theorem latchCoef_resp (cfg : Config) (s : State) : (latchCoef cfg s).resp = s.resp := rfl

/-! ### `present` -/

@[simp] theorem present_life (x : Xact) (s : State) : (present x s).life = s.life := rfl
@[simp] theorem present_fs (x : Xact) (s : State) : (present x s).fs = s.fs := rfl
@[simp] theorem present_nch (x : Xact) (s : State) : (present x s).nch = s.nch := rfl
@[simp] theorem present_rem (x : Xact) (s : State) : (present x s).rem = s.rem := rfl
@[simp] theorem present_numin (x : Xact) (s : State) : (present x s).numin = s.numin := rfl
@[simp] theorem present_numout (x : Xact) (s : State) : (present x s).numout = s.numout := rfl
@[simp] theorem present_in0 (x : Xact) (s : State) : (present x s).in0 = s.in0 := rfl
@[simp] theorem present_in1 (x : Xact) (s : State) : (present x s).in1 = s.in1 := rfl
@[simp] theorem present_out0 (x : Xact) (s : State) : (present x s).out0 = s.out0 := rfl
@[simp] theorem present_out1 (x : Xact) (s : State) : (present x s).out1 = s.out1 := rfl
@[simp] theorem present_err (x : Xact) (s : State) : (present x s).err = s.err := rfl
@[simp] theorem present_params (x : Xact) (s : State) : (present x s).params = s.params := rfl
@[simp] theorem present_bcph (x : Xact) (s : State) : (present x s).bcph = s.bcph := rfl
@[simp] theorem present_flph (x : Xact) (s : State) : (present x s).flph = s.flph := rfl
@[simp] theorem present_coef (x : Xact) (s : State) : (present x s).coef = s.coef := rfl
@[simp] theorem present_env (x : Xact) (s : State) : (present x s).env = s.env := rfl
@[simp] theorem present_tw (x : Xact) (s : State) : (present x s).tw = s.tw := rfl
@[simp] theorem present_trp (x : Xact) (s : State) : (present x s).trp = s.trp := rfl
@[simp] theorem present_lane0 (x : Xact) (s : State) : (present x s).lane0 = s.lane0 := rfl
@[simp] theorem present_lane1 (x : Xact) (s : State) : (present x s).lane1 = s.lane1 := rfl
@[simp] theorem present_port (x : Xact) (s : State) : (present x s).port = .xact x :: s.port := rfl
@[simp] theorem present_resp (x : Xact) (s : State) : (present x s).resp = s.resp := rfl

/-! ### `frame` -/

@[simp] theorem frame_life (cfg : Config) (s : State) :
    (frame cfg s).life = s.life := rfl
@[simp] theorem frame_fs (cfg : Config) (s : State) :
    (frame cfg s).fs = s.fs := rfl
@[simp] theorem frame_nch (cfg : Config) (s : State) :
    (frame cfg s).nch = s.nch := rfl
@[simp] theorem frame_rem (cfg : Config) (s : State) :
    (frame cfg s).rem = s.rem - 1#16 := rfl
@[simp] theorem frame_numin (cfg : Config) (s : State) :
    (frame cfg s).numin = s.numin := rfl
@[simp] theorem frame_numout (cfg : Config) (s : State) :
    (frame cfg s).numout = s.numout := rfl
@[simp] theorem frame_in0 (cfg : Config) (s : State) :
    (frame cfg s).in0 = s.in0 := rfl
@[simp] theorem frame_in1 (cfg : Config) (s : State) :
    (frame cfg s).in1 = s.in1 := rfl
@[simp] theorem frame_out0 (cfg : Config) (s : State) :
    (frame cfg s).out0 = output0 s (fmul (mix0 s (wet0 cfg s).1 (wet1 cfg s).1) (limiterGain cfg s.fs (framePeak s (mix0 s (wet0 cfg s).1 (wet1 cfg s).1) (mix1 s (wet0 cfg s).1 (wet1 cfg s).1)) s.env).1) := rfl
@[simp] theorem frame_out1 (cfg : Config) (s : State) :
    (frame cfg s).out1 = output1 s (fmul (mix0 s (wet0 cfg s).1 (wet1 cfg s).1) (limiterGain cfg s.fs (framePeak s (mix0 s (wet0 cfg s).1 (wet1 cfg s).1) (mix1 s (wet0 cfg s).1 (wet1 cfg s).1)) s.env).1)
        (fmul (mix1 s (wet0 cfg s).1 (wet1 cfg s).1) (limiterGain cfg s.fs (framePeak s (mix0 s (wet0 cfg s).1 (wet1 cfg s).1) (mix1 s (wet0 cfg s).1 (wet1 cfg s).1)) s.env).1) := rfl
@[simp] theorem frame_err (cfg : Config) (s : State) :
    (frame cfg s).err = (if nonFiniteInput s then errSet .nonfin s.err else s.err) := rfl
@[simp] theorem frame_params (cfg : Config) (s : State) :
    (frame cfg s).params = s.params := rfl
@[simp] theorem frame_bcph (cfg : Config) (s : State) :
    (frame cfg s).bcph = lfoStep s.fs s.bcph s.params.bcLfoRate := rfl
@[simp] theorem frame_flph (cfg : Config) (s : State) :
    (frame cfg s).flph = lfoStep s.fs s.flph s.params.fltLfoRate := rfl
@[simp] theorem frame_coef (cfg : Config) (s : State) :
    (frame cfg s).coef = s.coef := rfl
@[simp] theorem frame_env (cfg : Config) (s : State) :
    (frame cfg s).env = (limiterGain cfg s.fs (framePeak s (mix0 s (wet0 cfg s).1 (wet1 cfg s).1) (mix1 s (wet0 cfg s).1 (wet1 cfg s).1)) s.env).2 := rfl
@[simp] theorem frame_tw (cfg : Config) (s : State) :
    (frame cfg s).tw = nextIndex s.tw cfg.tailLen := rfl
@[simp] theorem frame_trp (cfg : Config) (s : State) :
    (frame cfg s).trp = advanceReadPos cfg s.params.playrate s.trp := rfl
@[simp] theorem frame_lane0 (cfg : Config) (s : State) :
    (frame cfg s).lane0 = (wet0 cfg s).2 := rfl
@[simp] theorem frame_lane1 (cfg : Config) (s : State) :
    (frame cfg s).lane1 = (wet1 cfg s).2 := rfl
@[simp] theorem frame_port (cfg : Config) (s : State) :
    (frame cfg s).port = s.port := rfl
@[simp] theorem frame_resp (cfg : Config) (s : State) :
    (frame cfg s).resp = s.resp := rfl

/-! ### `construct` -/

@[simp] theorem construct_life (cfg : Config) (fs : BitVec 24) (nch : BitVec 2) (s : State) :
    (construct cfg fs nch s).life = .active := rfl
@[simp] theorem construct_fs (cfg : Config) (fs : BitVec 24) (nch : BitVec 2) (s : State) :
    (construct cfg fs nch s).fs = fs := rfl
@[simp] theorem construct_nch (cfg : Config) (fs : BitVec 24) (nch : BitVec 2) (s : State) :
    (construct cfg fs nch s).nch = nch := rfl
@[simp] theorem construct_rem (cfg : Config) (fs : BitVec 24) (nch : BitVec 2) (s : State) :
    (construct cfg fs nch s).rem = 0#16 := rfl
@[simp] theorem construct_numin (cfg : Config) (fs : BitVec 24) (nch : BitVec 2) (s : State) :
    (construct cfg fs nch s).numin = 0#2 := rfl
@[simp] theorem construct_numout (cfg : Config) (fs : BitVec 24) (nch : BitVec 2) (s : State) :
    (construct cfg fs nch s).numout = 0#2 := rfl
@[simp] theorem construct_in0 (cfg : Config) (fs : BitVec 24) (nch : BitVec 2) (s : State) :
    (construct cfg fs nch s).in0 = 0#32 := rfl
@[simp] theorem construct_in1 (cfg : Config) (fs : BitVec 24) (nch : BitVec 2) (s : State) :
    (construct cfg fs nch s).in1 = 0#32 := rfl
@[simp] theorem construct_out0 (cfg : Config) (fs : BitVec 24) (nch : BitVec 2) (s : State) :
    (construct cfg fs nch s).out0 = 0#32 := rfl
@[simp] theorem construct_out1 (cfg : Config) (fs : BitVec 24) (nch : BitVec 2) (s : State) :
    (construct cfg fs nch s).out1 = 0#32 := rfl
@[simp] theorem construct_err (cfg : Config) (fs : BitVec 24) (nch : BitVec 2) (s : State) :
    (construct cfg fs nch s).err = s.err := rfl
@[simp] theorem construct_params (cfg : Config) (fs : BitVec 24) (nch : BitVec 2) (s : State) :
    (construct cfg fs nch s).params = paramsAtConfig := rfl
@[simp] theorem construct_bcph (cfg : Config) (fs : BitVec 24) (nch : BitVec 2) (s : State) :
    (construct cfg fs nch s).bcph = posZero := rfl
@[simp] theorem construct_flph (cfg : Config) (fs : BitVec 24) (nch : BitVec 2) (s : State) :
    (construct cfg fs nch s).flph = posZero := rfl
@[simp] theorem construct_coef (cfg : Config) (fs : BitVec 24) (nch : BitVec 2) (s : State) :
    (construct cfg fs nch s).coef = filterCoef cfg fs paramsAtConfig posZero := rfl
@[simp] theorem construct_env (cfg : Config) (fs : BitVec 24) (nch : BitVec 2) (s : State) :
    (construct cfg fs nch s).env = fOne := rfl
@[simp] theorem construct_tw (cfg : Config) (fs : BitVec 24) (nch : BitVec 2) (s : State) :
    (construct cfg fs nch s).tw = 0 := rfl
@[simp] theorem construct_trp (cfg : Config) (fs : BitVec 24) (nch : BitVec 2) (s : State) :
    (construct cfg fs nch s).trp = posZero := rfl
@[simp] theorem construct_lane0 (cfg : Config) (fs : BitVec 24) (nch : BitVec 2) (s : State) :
    (construct cfg fs nch s).lane0 = .cleared := rfl
@[simp] theorem construct_lane1 (cfg : Config) (fs : BitVec 24) (nch : BitVec 2) (s : State) :
    (construct cfg fs nch s).lane1 = .cleared := rfl
@[simp] theorem construct_port (cfg : Config) (fs : BitVec 24) (nch : BitVec 2) (s : State) :
    (construct cfg fs nch s).port = s.port := rfl
@[simp] theorem construct_resp (cfg : Config) (fs : BitVec 24) (nch : BitVec 2) (s : State) :
    (construct cfg fs nch s).resp = none := rfl

/-! ### `rejectConfig` -/

@[simp] theorem rejectConfig_life (s : State) :
    (rejectConfig s).life = .idle := rfl
@[simp] theorem rejectConfig_fs (s : State) :
    (rejectConfig s).fs = 0#24 := rfl
@[simp] theorem rejectConfig_nch (s : State) :
    (rejectConfig s).nch = 0#2 := rfl
@[simp] theorem rejectConfig_rem (s : State) :
    (rejectConfig s).rem = 0#16 := rfl
@[simp] theorem rejectConfig_numin (s : State) :
    (rejectConfig s).numin = 0#2 := rfl
@[simp] theorem rejectConfig_numout (s : State) :
    (rejectConfig s).numout = 0#2 := rfl
@[simp] theorem rejectConfig_in0 (s : State) :
    (rejectConfig s).in0 = 0#32 := rfl
@[simp] theorem rejectConfig_in1 (s : State) :
    (rejectConfig s).in1 = 0#32 := rfl
@[simp] theorem rejectConfig_out0 (s : State) :
    (rejectConfig s).out0 = 0#32 := rfl
@[simp] theorem rejectConfig_out1 (s : State) :
    (rejectConfig s).out1 = 0#32 := rfl
@[simp] theorem rejectConfig_err (s : State) :
    (rejectConfig s).err = errSet .cfg s.err := rfl
@[simp] theorem rejectConfig_params (s : State) :
    (rejectConfig s).params = .unset := rfl
@[simp] theorem rejectConfig_bcph (s : State) :
    (rejectConfig s).bcph = 0#32 := rfl
@[simp] theorem rejectConfig_flph (s : State) :
    (rejectConfig s).flph = 0#32 := rfl
@[simp] theorem rejectConfig_coef (s : State) :
    (rejectConfig s).coef = ⟨0#32, 0#32, 0#32⟩ := rfl
@[simp] theorem rejectConfig_env (s : State) :
    (rejectConfig s).env = 0#32 := rfl
@[simp] theorem rejectConfig_tw (s : State) :
    (rejectConfig s).tw = 0 := rfl
@[simp] theorem rejectConfig_trp (s : State) :
    (rejectConfig s).trp = 0#32 := rfl
@[simp] theorem rejectConfig_lane0 (s : State) :
    (rejectConfig s).lane0 = .cleared := rfl
@[simp] theorem rejectConfig_lane1 (s : State) :
    (rejectConfig s).lane1 = .cleared := rfl
@[simp] theorem rejectConfig_port (s : State) :
    (rejectConfig s).port = s.port := rfl
@[simp] theorem rejectConfig_resp (s : State) :
    (rejectConfig s).resp = none := rfl

end Sys2Proof.Machine
end

