-- ==== Sys2Proof/Laws/Ops.lean ====
section
/-! SUPPORT. For each shared operation, one lemma that says once what it can do, and the frame of each unit of the signal
path. -/

namespace Sys2Proof.Machine

/-! ### Admission and errors -/

theorem life_cases (s : State) : s.life = .idle ∨ s.life = .active := by
  cases h : s.life
  · exact .inl rfl
  · exact .inr rfl

theorem readActive_idle {s : State} (v : State → Word) (h : s.life = .idle) :
    readActive v s = raiseError .seq true s := by simp [readActive, h]

theorem readActive_active {s : State} (v : State → Word) (h : s.life = .active) :
    readActive v s = answer (v s) s := by simp [readActive, h]

theorem writeActive_idle {s : State} (f : State → State) (h : s.life = .idle) :
    writeActive f s = raiseError .seq false s := by simp [writeActive, h]

theorem writeActive_active {s : State} (f : State → State) (h : s.life = .active) :
    writeActive f s = acknowledge (f s) := by simp [writeActive, h]

/-- A register read at or above `0x08` (R292 a, R64). -/
theorem readActive_cases (v : State → Word) (s : State) :
    (s.life = .idle ∧ readActive v s = { s with err := errSet .seq s.err, resp := some 0#32 }) ∨
      (s.life = .active ∧ readActive v s = { s with resp := some (v s) }) :=
  (life_cases s).imp (fun h => ⟨h, readActive_idle v h⟩) (fun h => ⟨h, readActive_active v h⟩)

/-- A register write at or above `0x08` (R292 a). -/
theorem writeActive_cases (effect : State → State) (s : State) :
    (s.life = .idle ∧ writeActive effect s = { s with err := errSet .seq s.err, resp := none }) ∨
      (s.life = .active ∧ writeActive effect s = { effect s with resp := none }) :=
  (life_cases s).imp (fun h => ⟨h, writeActive_idle effect h⟩) (fun h => ⟨h, writeActive_active effect h⟩)

/-- Raising an error sets one flag and answers; nothing else changes (R15, R297). -/
theorem raiseError_eq (c : ErrCause) (isRead : Bool) (s : State) :
    raiseError c isRead s =
      { s with err := errSet c s.err, resp := if isRead then some 0#32 else none } := by
  cases isRead <;> rfl

/-- A refused transaction outside the opcode map (R291). -/
theorem refuseXact_eq (x : Xact) (s : State) :
    refuseXact x s =
      { s with err := errSet .addr s.err, resp := if xactWrite x then none else some 0#32 } := by
  unfold refuseXact
  cases h : xactWrite x <;> rfl

/-- The note of BLOCK written while a block is open changes ERR alone (R292 c). -/
theorem noteOpenBlock_eq (s : State) :
    noteOpenBlock s = { s with err := if s.rem = 0#16 then s.err else errSet .seq s.err } := by
  unfold noteOpenBlock
  split <;> rfl

/-- An admitted BLOCK, field by field (R248). -/
theorem openBlock_eq (cfg : Config) (w : Word) (s : State) :
    openBlock cfg w s = { s with
      err := if s.rem = 0#16 then s.err else errSet .seq s.err
      numin := blockNumin cfg w
      numout := blockNumout cfg w
      rem := blockFrames w
      coef := filterCoef cfg s.fs s.params s.flph } := by
  unfold openBlock
  rw [noteOpenBlock_eq]
  rfl

/-- What WR.CONFIG can do (R246). -/
theorem execWrConfig_cases (w : Word) (s : State) :
    (configRejected fogpad (configFs w) (configNch w) = true ∧ execWrConfig w s = .next (rejectConfig s)) ∨
      (configRejected fogpad (configFs w) (configNch w) = false ∧
        execWrConfig w s = .next (construct fogpad (configFs w) (configNch w) s)) := by
  unfold execWrConfig
  cases h : configRejected fogpad (configFs w) (configNch w)
  · exact .inr ⟨rfl, rfl⟩
  · exact .inl ⟨rfl, rfl⟩

/-- What WR.FRAME can do (R253): refused, performed, or stopped on an index outside its memory. -/
theorem execWrFrame_cases (w : Word) (s : State) :
    ((s.life = .idle ∨ s.rem = 0#16) ∧ execWrFrame w s = .next (raiseError .seq false s)) ∨
      (s.life = .active ∧ s.rem ≠ 0#16 ∧ frameIndicesInRange fogpad s = true ∧
        execWrFrame w s = .next (acknowledge (frame fogpad s))) ∨
      (s.life = .active ∧ s.rem ≠ 0#16 ∧ frameIndicesInRange fogpad s = false ∧
        execWrFrame w s = .fault .noSuchMemoryWord) := by
  unfold execWrFrame
  by_cases h : s.life = .idle ∨ s.rem = 0#16
  · exact .inl ⟨h, if_pos h⟩
  · have hl : s.life = .active := by
      cases hc : s.life
      · exact absurd (.inl hc) h
      · rfl
    have hr : s.rem ≠ 0#16 := fun e => h (.inr e)
    rw [if_neg h]
    cases hi : frameIndicesInRange fogpad s
    · exact .inr (.inr ⟨hl, hr, rfl, rfl⟩)
    · exact .inr (.inl ⟨hl, hr, rfl, rfl⟩)

/-! ### The units of the signal path -/

/-- One comb step (R121): what it outputs, stores, writes and advances, and every other word as before. -/
theorem combStep_spec (len : Nat) (tin fb dmp : Word) (u : Comb) :
    let r := combStep len tin fb dmp u
    let st := fadd (fmul (u.mem.read u.idx) (fsub fOne dmp)) (fmul u.store dmp)
    r.1 = u.mem.read u.idx ∧ r.2.store = st ∧ r.2.idx = nextIndex u.idx len ∧
      r.2.mem = u.mem.write u.idx (fadd tin (fmul st fb)) ∧
      ∀ i, i ≠ u.idx → r.2.mem.read i = u.mem.read i :=
  ⟨rfl, rfl, rfl, rfl, fun _ h => read_write_other _ _ h.symm⟩

/-- One allpass step (R136). -/
theorem apStep_spec (cfg : Config) (len : Nat) (a : Word) (u : Allpass) :
    let r := apStep cfg len a u
    let d := u.mem.read u.idx
    r.1 = fsub d a ∧ r.2.idx = nextIndex u.idx len ∧ r.2.mem = u.mem.write u.idx (fadd a (fmul d cfg.apFb)) ∧
      ∀ i, i ≠ u.idx → r.2.mem.read i = u.mem.read i :=
  ⟨rfl, rfl, rfl, fun _ h => read_write_other _ _ h.symm⟩

/-- Each comb of the bank makes its own step (R122). -/
theorem combBank_comb (cfg : Config) (fs : BitVec 24) (tin fb dmp : Word) (us : Vector Comb 8) (k : Fin 8) :
    (combBank cfg fs tin fb dmp us).2[k] = (combStep (combLens cfg fs)[k] tin fb dmp us[k]).2 := by
  simp [combBank]

/-- The allpasses after the chain (R137). -/
theorem apChain_aps (cfg : Config) (fs : BitVec 24) (a0 : Word) (us : Vector Allpass 4) :
    ∀ j : Fin 4, ∃ a, (apChain cfg fs a0 us).2[j] = (apStep cfg (apLens cfg fs)[j] a us[j]).2
  | 0 => ⟨_, rfl⟩
  | 1 => ⟨_, rfl⟩
  | 2 => ⟨_, rfl⟩
  | 3 => ⟨_, rfl⟩

/-- The tank touches the combs and the allpasses of its lane alone (R145). -/
theorem tank_lane (cfg : Config) (fs : BitVec 24) (p : Params) (xin : Word) (l : Lane) :
    (tank cfg fs p xin l).2 = { l with
      combs := (tank cfg fs p xin l).2.combs
      aps := (tank cfg fs p xin l).2.aps } := rfl

/-- The tap touches the tail memory of its lane alone (R146). -/
theorem tap_lane (cfg : Config) (tw : Nat) (trp ap : Word) (l : Lane) :
    (tap cfg tw trp ap l).2 = { l with tail := l.tail.write tw ap } := rfl

/-- What the decimator can do (R191). -/
theorem decimate_cases (cfg : Config) (p : Params) (x : Word) (l : Lane) :
    (holdFor cfg p.decRate = 0 ∧ decimate cfg p x l = (x, { l with dcnt := 0 })) ∨
      (holdFor cfg p.decRate ≠ 0 ∧ l.dcnt = 0 ∧
        decimate cfg p x l = (quant cfg x p.decBits.toNat,
          { l with dheld := quant cfg x p.decBits.toNat, dcnt := holdFor cfg p.decRate })) ∨
      (holdFor cfg p.decRate ≠ 0 ∧ l.dcnt ≠ 0 ∧
        decimate cfg p x l = (l.dheld, { l with dcnt := l.dcnt - 1 })) := by
  unfold decimate
  by_cases h : holdFor cfg p.decRate = 0
  · exact .inl ⟨h, by simp [h]⟩
  · by_cases hd : l.dcnt = 0
    · exact .inr (.inl ⟨h, hd, by simp [h, hd]⟩)
    · exact .inr (.inr ⟨h, hd, by simp [h, hd]⟩)

/-- The filter touches the two integrators of its lane alone (R208). -/
theorem filterStep_lane (k : Coef) (x : Word) (l : Lane) :
    (filterStep k x l).2 = { l with ic1 := (filterStep k x l).2.ic1, ic2 := (filterStep k x l).2.ic2 } := rfl

/-- The wet chain touches the hold counter, the held sample and the integrators of its lane alone (R174). -/
theorem wetChain_lane (cfg : Config) (p : Params) (k : Coef) (bm : Nat) (x : Word) (l : Lane) :
    ∃ y, (wetChain cfg p k bm x l).2 = { l with
      dcnt := (decimate cfg p y l).2.dcnt
      dheld := (decimate cfg p y l).2.dheld
      ic1 := (wetChain cfg p k bm x l).2.ic1
      ic2 := (wetChain cfg p k bm x l).2.ic2 } := by
  unfold wetChain
  split
  · refine ⟨crush cfg bm x, ?_⟩
    rcases decimate_cases cfg p (crush cfg bm x) l with ⟨_, h⟩ | ⟨_, _, h⟩ | ⟨_, _, h⟩ <;> rw [h] <;> rfl
  · refine ⟨x, ?_⟩
    rcases decimate_cases cfg p x l with ⟨_, h⟩ | ⟨_, _, h⟩ | ⟨_, _, h⟩ <;> rw [h] <;> rfl

/-- The lane after its wet path, memory by memory (R256). -/
theorem wetPath_combs (cfg : Config) (s : State) (xin : Word) (l : Lane) :
    (wetPath cfg s xin l).2.combs =
      (combBank cfg s.fs (combDrive cfg s.params xin).tin (combDrive cfg s.params xin).fb
        (combDrive cfg s.params xin).dmp l.combs).2 := by
  simp only [wetPath]
  obtain ⟨y, hy⟩ := wetChain_lane cfg s.params s.coef (frameDepth cfg s)
    (tap cfg s.tw s.trp (tank cfg s.fs s.params xin l).1 (tank cfg s.fs s.params xin l).2).1
    (tap cfg s.tw s.trp (tank cfg s.fs s.params xin l).1 (tank cfg s.fs s.params xin l).2).2
  rw [hy]
  rfl

theorem wetPath_aps (cfg : Config) (s : State) (xin : Word) (l : Lane) :
    ∃ a, (wetPath cfg s xin l).2.aps = (apChain cfg s.fs a l.aps).2 := by
  simp only [wetPath]
  obtain ⟨y, hy⟩ := wetChain_lane cfg s.params s.coef (frameDepth cfg s)
    (tap cfg s.tw s.trp (tank cfg s.fs s.params xin l).1 (tank cfg s.fs s.params xin l).2).1
    (tap cfg s.tw s.trp (tank cfg s.fs s.params xin l).1 (tank cfg s.fs s.params xin l).2).2
  rw [hy]
  exact ⟨_, rfl⟩

theorem wetPath_tail (cfg : Config) (s : State) (xin : Word) (l : Lane) :
    (wetPath cfg s xin l).2.tail = l.tail.write s.tw (tank cfg s.fs s.params xin l).1 := by
  simp only [wetPath]
  obtain ⟨y, hy⟩ := wetChain_lane cfg s.params s.coef (frameDepth cfg s)
    (tap cfg s.tw s.trp (tank cfg s.fs s.params xin l).1 (tank cfg s.fs s.params xin l).2).1
    (tap cfg s.tw s.trp (tank cfg s.fs s.params xin l).1 (tank cfg s.fs s.params xin l).2).2
  rw [hy]
  rfl

/-- The hold counter after the wet path is 0, the hold length, or one less than it was (R191). -/
theorem wetPath_dcnt (cfg : Config) (s : State) (xin : Word) (l : Lane) :
    (wetPath cfg s xin l).2.dcnt = 0 ∨ (wetPath cfg s xin l).2.dcnt = holdFor cfg s.params.decRate ∨
      (wetPath cfg s xin l).2.dcnt = l.dcnt - 1 := by
  simp only [wetPath]
  obtain ⟨y, hy⟩ := wetChain_lane cfg s.params s.coef (frameDepth cfg s)
    (tap cfg s.tw s.trp (tank cfg s.fs s.params xin l).1 (tank cfg s.fs s.params xin l).2).1
    (tap cfg s.tw s.trp (tank cfg s.fs s.params xin l).1 (tank cfg s.fs s.params xin l).2).2
  rw [hy]
  rcases decimate_cases cfg s.params y
    (tap cfg s.tw s.trp (tank cfg s.fs s.params xin l).1 (tank cfg s.fs s.params xin l).2).2
    with ⟨_, h⟩ | ⟨_, _, h⟩ | ⟨_, _, h⟩
  · left; rw [h]
  · right; left; rw [h]
  · right; right; rw [h]; rfl

/-- With one lane, a frame leaves lane 1 alone (R268). -/
theorem wet1_mono (cfg : Config) {s : State} (h : stereo s = false) : (wet1 cfg s).2 = s.lane1 := by
  simp [wet1, h]

theorem wet1_stereo (cfg : Config) {s : State} (h : stereo s = true) :
    wet1 cfg s = wetPath cfg s (inputSample s 1) s.lane1 := by
  simp [wet1, h]

theorem tank_congr (cfg : Config) (fs : BitVec 24) {p q : Params} {x y : Word} (l : Lane)
    (h : combDrive cfg p x = combDrive cfg q y) : tank cfg fs p x l = tank cfg fs q y l := by
  simp only [tank, h]

theorem decimate_congr (cfg : Config) {p q : Params} (x : Word) (l : Lane) (hbits : p.decBits = q.decBits)
    (hrate : p.decRate = q.decRate) : decimate cfg p x l = decimate cfg q x l := by
  simp only [decimate, hbits, hrate]

theorem wetChain_congr (cfg : Config) {p q : Params} (k : Coef) (bm : Nat) (x : Word) (l : Lane)
    (hpost : p.bcPostmix = q.bcPostmix) (hbits : p.decBits = q.decBits) (hrate : p.decRate = q.decRate) :
    wetChain cfg p k bm x l = wetChain cfg q k bm x l := by
  unfold wetChain
  rw [hpost, decimate_congr cfg x l hbits hrate, decimate_congr cfg (crush cfg bm x) l hbits hrate]

theorem modulatedDepth_congr (cfg : Config) {p q : Params} (lb : Word) (hamount : p.bcAmount = q.bcAmount)
    (hdepth : p.bcLfoDepth = q.bcLfoDepth) : modulatedDepth cfg p lb = modulatedDepth cfg q lb := by
  simp only [modulatedDepth, hamount, hdepth]

/-- What a wet path reads beside its lane (R256): nothing else of two states matters. -/
theorem wetPath_congr (cfg : Config) {s t : State} {x y : Word} (l : Lane)
    (hdrive : combDrive cfg s.params x = combDrive cfg t.params y) (hfs : s.fs = t.fs) (hcoef : s.coef = t.coef)
    (htw : s.tw = t.tw) (htrp : s.trp = t.trp) (hbcph : s.bcph = t.bcph)
    (hpost : s.params.bcPostmix = t.params.bcPostmix) (hamount : s.params.bcAmount = t.params.bcAmount)
    (hdepth : s.params.bcLfoDepth = t.params.bcLfoDepth) (hbits : s.params.decBits = t.params.decBits)
    (hrate : s.params.decRate = t.params.decRate) : wetPath cfg s x l = wetPath cfg t y l := by
  unfold wetPath frameDepth
  rw [tank_congr cfg s.fs l hdrive, hfs, hcoef, htw, htrp, hbcph, modulatedDepth_congr cfg _ hamount hdepth]
  exact wetChain_congr cfg _ _ _ _ hpost hbits hrate

/-- The drive of the combs, frozen, does not read the input sample (R124). -/
theorem combDrive_frozen (cfg : Config) {p : Params} (x : Word) (h : p.mode = 1#1) :
    combDrive cfg p x = ⟨posZero, cfg.freezeFb, cfg.freezeDamp⟩ := by
  simp [combDrive, h]

theorem combDrive_running (cfg : Config) {p : Params} (x : Word) (h : p.mode ≠ 1#1) :
    combDrive cfg p x = ⟨x, feedback cfg p.roomsize, cfg.damp⟩ := by
  simp [combDrive, h]

end Sys2Proof.Machine
end

