-- ==== Sys2Proof/Laws/Signal.lean ====
section
/-! SUPPORT. What each unit of the signal path does to the state that must stay in a range (spec/10_state.md R59):
the phases, the read position, the hold length, the envelope, the indices. -/

namespace Sys2Proof.Machine

-- A kernel evaluation waits for the theorems before it; one at a time, no waiting one holds a stack.
set_option Elab.async false

theorem isFinite_of_inUnit {w : Word} (h : inUnit w) : isFinite w = true :=
  isFinite_of_bounds isFinite_posZero isFinite_fOne h.2.1 h.2.2

theorem isFinite_of_belowFrom0 {hi w : Word} (hf : isFinite hi = true) (h : belowFrom0 hi w) : isFinite w = true :=
  isFinite_of_bounds isFinite_posZero hf (by rw [value_posZero]; exact h.2.1) h.2.2.le

/-! ### The sample rate -/

theorem value_fsF (fs : BitVec 24) : value (fsF fs) = (fs.toNat : Int) * unitsPerOne :=
  value_i2f (by have := fs.isLt; simpa using this)

theorem isFinite_fsF (fs : BitVec 24) : isFinite (fsF fs) = true :=
  isFinite_i2f (by have := fs.isLt; simpa using this)

/-! ### Oscillators (R104) -/

/-- The words of a few bounds, in units. -/
theorem value_halfOne : 2 * value fHalf = unitsPerOne := by decide +kernel

theorem value_threeHalves : 2 * value 0x3FC00000#32 = 3 * unitsPerOne := by decide +kernel

theorem value_ten : value 0x41200000#32 = 10 * unitsPerOne := by decide +kernel

/-- The increment of an oscillator is small. -/
theorem lfo_increment {fs : BitVec 24} {rate : Word} (hfs : 44100 ≤ fs.toNat)
    (hr : within fogpad.minLfoRate fogpad.maxLfoRate rate) :
    isFinite (fdiv rate (fsF fs)) = true ∧ 0 ≤ value (fdiv rate (fsF fs)) ∧
      value (fdiv rate (fsF fs)) ≤ value fHalf := by
  have hU := unitsPerOne_pos
  have hlo : (0 : Int) < value fogpad.minLfoRate := by decide +kernel
  have hhi : value fogpad.maxLfoRate = 10 * unitsPerOne := value_ten
  have hrf : isFinite rate = true :=
    isFinite_of_bounds (lo := fogpad.minLfoRate) (hi := fogpad.maxLfoRate) (by decide) (by decide) hr.2.1 hr.2.2
  have hfp : 0 < value (fsF fs) := by
    rw [value_fsF]; exact Int.mul_pos (by omega) (by omega)
  have h1 : value (fdiv rate (fsF fs)) ≤ value fHalf := by
    refine value_fdiv_le hrf (isFinite_fsF fs) (by decide) (by omega) hfp ?_
    rw [value_fsF]
    have h2 := value_halfOne
    have h3 : value rate ≤ 10 * unitsPerOne := by rw [← hhi]; exact hr.2.2
    have h4 : value fHalf * ((fs.toNat : Int) * unitsPerOne) = value fHalf * fs.toNat * unitsPerOne := by ring
    rw [h4]
    refine Int.mul_le_mul_of_nonneg_right ?_ (by omega)
    nlinarith
  have h0 : 0 ≤ value (fdiv rate (fsF fs)) := by
    rw [← value_posZero]
    refine le_value_fdiv hrf (isFinite_fsF fs) (by decide) (signBit_of_value_pos (by omega)) hfp ?_
    rw [value_posZero, Int.zero_mul]
    exact Int.mul_nonneg (by omega) (by omega)
  exact ⟨isFinite_of_bounds isFinite_posZero (by decide) (by rw [value_posZero]; exact h0) h1, h0, h1⟩

/-- A phase stays in [0, 1) (R104, R59 c). -/
theorem lfoStep_below {fs : BitVec 24} {ph rate : Word} (hfs : 44100 ≤ fs.toNat)
    (hr : within fogpad.minLfoRate fogpad.maxLfoRate rate) (hp : belowFrom0 fOne ph) :
    belowFrom0 fOne (lfoStep fs ph rate) := by
  have hU := unitsPerOne_pos
  obtain ⟨hif, hi0, hi1⟩ := lfo_increment hfs hr
  have hpf := isFinite_of_belowFrom0 isFinite_fOne hp
  have h1 := value_fOne
  have hh := value_halfOne
  have h3 := value_threeHalves
  obtain ⟨hpn, hp0, hp1⟩ := hp
  have hsn : isNaN (fadd ph (fdiv rate (fsF fs))) = false := isNaN_fadd hpf hif
  have hs0 : 0 ≤ value (fadd ph (fdiv rate (fsF fs))) := by
    rw [← value_posZero]; exact le_value_fadd hpf hif (by decide) (by rw [value_posZero]; omega)
  have hs1 : value (fadd ph (fdiv rate (fsF fs))) ≤ value 0x3FC00000#32 :=
    value_fadd_le hpf hif (by decide) (by omega)
  have hsf : isFinite (fadd ph (fdiv rate (fsF fs))) = true :=
    isFinite_of_bounds isFinite_posZero (hi := 0x3FC00000#32) (by decide) (by rw [value_posZero]; exact hs0) hs1
  unfold lfoStep
  generalize fadd ph (fdiv rate (fsF fs)) = p at *
  by_cases hge : fge p fOne = true
  · simp only [hge, if_true]
    have hge' : (unitsPerOne : Int) ≤ value p := by
      simp only [fge, fle, Bool.and_eq_true, decide_eq_true_eq] at hge
      omega
    have hlt : value p < 2 ^ 24 * unitsPerOne := by omega
    have hq : value p / (unitsPerOne : Int) = 1 := by
      refine le_antisymm (Int.lt_add_one_iff.1 (Int.ediv_lt_of_lt_mul (by omega) (by omega)))
        (Int.le_ediv_of_mul_le (by omega) (by omega))
    have hfl : value (ffloor p) = unitsPerOne := by rw [value_ffloor hsf hs0 hlt, hq, Int.one_mul]
    have hff := isFinite_ffloor hsf hs0 hlt
    refine ⟨isNaN_fsub hsf hff, ?_, ?_⟩
    · rw [← value_posZero]; exact le_value_fsub hsf hff (by decide) (by rw [value_posZero]; omega)
    · have : value (fsub p (ffloor p)) ≤ value fHalf := value_fsub_le hsf hff (by decide) (by omega)
      omega
  · rw [Bool.not_eq_true] at hge
    simp only [hge, Bool.false_eq_true, if_false]
    refine ⟨hsn, hs0, ?_⟩
    have h1n : isNaN fOne = false := by decide
    simp only [fge, fle, h1n, hsn, Bool.not_false, Bool.true_and, decide_eq_false_iff_not] at hge
    omega

/-! ### The read position (R146 to R148) -/

theorem value_tailLen : value (i2f fogpad.tailLen) = 4096 * unitsPerOne := value_i2f (n := 4096) (by decide)

theorem isFinite_tailLen : isFinite (i2f fogpad.tailLen) = true := isFinite_i2f (n := 4096) (by decide)

theorem value_fTwo : value fTwo = 2 * unitsPerOne := by decide +kernel

/-- MRATE lies between RATE_EPS and 2.0 (R148). -/
theorem playMultiplier_bounds {v : Word} (h : inUnit v) : within fogpad.rateEps fTwo (playMultiplier fogpad v) := by
  have hU := unitsPerOne_pos
  have hf := isFinite_of_inUnit h
  have h1 := value_fOne
  have h2 := value_fTwo
  have hm : value (fmul fTwo v) ≤ value fTwo := by
    refine value_fmul_le (by decide) hf (by decide) ?_
    refine Int.mul_le_mul_of_nonneg_left ?_ (by omega)
    rw [← h1]; exact h.2.2
  have hn : isNaN (fmul fTwo v) = false := isNaN_fmul (by decide) hf
  have he : value fogpad.rateEps ≤ value fTwo := by decide +kernel
  unfold playMultiplier fmax1
  split
  · next hge =>
    simp only [fge, fle, Bool.and_eq_true, decide_eq_true_eq] at hge
    exact ⟨hn, hge.2, hm⟩
  · exact ⟨by decide, le_refl _, he⟩

/-- The read position stays in [0, 4096) (R147, R59 b). -/
theorem advanceReadPos_below {v trp : Word} (hv : inUnit v) (ht : belowFrom0 (i2f fogpad.tailLen) trp) :
    belowFrom0 (i2f fogpad.tailLen) (advanceReadPos fogpad v trp) := by
  have hU := unitsPerOne_pos
  obtain ⟨hmn, hm0, hm1⟩ := playMultiplier_bounds hv
  have h2 := value_fTwo
  have hT := value_tailLen
  have he : (0 : Int) ≤ value fogpad.rateEps := by decide +kernel
  have hmf : isFinite (playMultiplier fogpad v) = true :=
    isFinite_of_bounds (lo := fogpad.rateEps) (hi := fTwo) (by decide) (by decide) hm0 hm1
  have htf := isFinite_of_belowFrom0 isFinite_tailLen ht
  obtain ⟨htn, ht0, ht1⟩ := ht
  unfold advanceReadPos
  generalize playMultiplier fogpad v = m at *
  have hc : value 0x45801000#32 = 4098 * unitsPerOne := by decide +kernel
  have hs0 : 0 ≤ value (fadd trp m) := by
    rw [← value_posZero]; exact le_value_fadd htf hmf (by decide) (by rw [value_posZero]; omega)
  have hs1 : value (fadd trp m) ≤ value 0x45801000#32 := value_fadd_le htf hmf (by decide) (by omega)
  have hsn := isNaN_fadd htf hmf
  have hsf : isFinite (fadd trp m) = true :=
    isFinite_of_bounds isFinite_posZero (hi := 0x45801000#32) (by decide) (by rw [value_posZero]; exact hs0) hs1
  generalize fadd trp m = p at *
  by_cases hge : fge p (i2f fogpad.tailLen) = true
  · simp only [hge, if_true]
    simp only [fge, fle, Bool.and_eq_true, decide_eq_true_eq] at hge
    refine ⟨isNaN_fsub hsf isFinite_tailLen, ?_, ?_⟩
    · rw [← value_posZero]; exact le_value_fsub hsf isFinite_tailLen (by decide) (by rw [value_posZero]; omega)
    · have : value (fsub p (i2f fogpad.tailLen)) ≤ value fTwo := value_fsub_le hsf isFinite_tailLen (by decide) (by omega)
      omega
  · rw [Bool.not_eq_true] at hge
    simp only [hge, Bool.false_eq_true, if_false]
    refine ⟨hsn, hs0, ?_⟩
    have h1n : isNaN (i2f fogpad.tailLen) = false := isNaN_of_isFinite isFinite_tailLen
    simp only [fge, fle, h1n, hsn, Bool.not_false, Bool.true_and, decide_eq_false_iff_not] at hge
    omega

/-- The integer part of the read position is a tail index (R146). -/
theorem tapIndex_range {trp : Word} (ht : belowFrom0 (i2f fogpad.tailLen) trp) :
    0 ≤ tapIndex trp ∧ tapIndex trp < fogpad.tailLen := by
  have hU := unitsPerOne_pos
  have hT := value_tailLen
  have htf := isFinite_of_belowFrom0 isFinite_tailLen ht
  obtain ⟨htn, ht0, ht1⟩ := ht
  have h : tapIndex trp = value trp / (unitsPerOne : Int) := f2i_ffloor htf ht0 (by omega)
  rw [h]
  exact ⟨Int.ediv_nonneg ht0 (by omega), Int.ediv_lt_of_lt_mul (by omega) (by
    change value trp < (4096 : Int) * unitsPerOne; omega)⟩

/-! ### The hold length (R190) -/

/-- HOLDFOR is at most MAX_HOLD (R190, R59 d). -/
theorem holdFor_le {rate : Word} (h : inUnit rate) : holdFor fogpad rate ≤ fogpad.maxHold := by
  have hU := unitsPerOne_pos
  have hf := isFinite_of_inUnit h
  have h1 := value_fOne
  have h64 : value (i2f fogpad.maxHold) = 64 * unitsPerOne := value_i2f (n := 64) (by decide)
  have hF : isFinite (i2f fogpad.maxHold) = true := isFinite_i2f (n := 64) (by decide)
  have hr1 : value rate ≤ unitsPerOne := by rw [← h1]; exact h.2.2
  have hr0 : 0 ≤ value rate := by rw [← value_posZero]; exact h.2.1
  have hm1 : value (fmul rate (i2f fogpad.maxHold)) ≤ value (i2f fogpad.maxHold) := by
    refine value_fmul_le hf hF (isNaN_of_isFinite hF) ?_
    rw [Int.mul_comm]
    exact Int.mul_le_mul_of_nonneg_left hr1 (by omega)
  have hm0 : 0 ≤ value (fmul rate (i2f fogpad.maxHold)) := by
    rw [← value_posZero]
    refine le_value_fmul hf hF (by decide) ?_
    rw [value_posZero, Int.zero_mul]
    exact Int.mul_nonneg hr0 (by omega)
  have hmf : isFinite (fmul rate (i2f fogpad.maxHold)) = true :=
    isFinite_of_bounds isFinite_posZero hF (by rw [value_posZero]; exact hm0) hm1
  have hmag : mag (fmul rate (i2f fogpad.maxHold)) ≤ 64 * unitsPerOne := by
    have := natAbs_value (fmul rate (i2f fogpad.maxHold)); omega
  unfold holdFor
  change _ ≤ 64
  exact f2i_roundHaz_le hmf (by decide) hmag

/-! ### The limiter's envelope (R231) -/

/-- A smoothing coefficient lies in [0, 1] (R230). -/
theorem smoothing_inUnit {fs : BitVec 24} {tau : Word} (hfs : 0 < fs.toNat)
    (ht : isFinite tau = true) (h0 : (unitsPerOne : Int) ≤ 4096 * value tau) (h1 : value tau ≤ unitsPerOne) :
    inUnit (smoothing fs tau) := by
  have hU := unitsPerOne_pos
  have hv1 := value_fOne
  have hF := isFinite_fsF fs
  have hFv := value_fsF fs
  have hlt := fs.isLt
  have hm0 : value 0x39800000#32 ≤ value (fmul tau (fsF fs)) := by
    have hc : 4096 * value 0x39800000#32 = unitsPerOne := by decide +kernel
    refine le_value_fmul ht hF (by decide) ?_
    rw [hFv]
    have : value 0x39800000#32 ≤ value tau := by omega
    calc value 0x39800000#32 * (unitsPerOne : Int) ≤ value tau * unitsPerOne :=
          Int.mul_le_mul_of_nonneg_right this (by omega)
      _ ≤ value tau * ((fs.toNat : Int) * unitsPerOne) := by
          refine Int.mul_le_mul_of_nonneg_left ?_ (by omega)
          nlinarith
  have hm1 : value (fmul tau (fsF fs)) ≤ value (fsF fs) := by
    refine value_fmul_le ht hF (isNaN_of_isFinite hF) ?_
    rw [Int.mul_comm]
    refine Int.mul_le_mul_of_nonneg_left h1 ?_
    rw [hFv]; exact Int.mul_nonneg (by omega) (by omega)
  have hmf : isFinite (fmul tau (fsF fs)) = true :=
    isFinite_of_bounds (lo := 0x39800000#32) (by decide) hF hm0 hm1
  have hc0 : (0 : Int) < value 0x39800000#32 := by decide +kernel
  have hmp : 0 < value (fmul tau (fsF fs)) := by omega
  have hmz : mag (fmul tau (fsF fs)) ≠ 0 := by
    have := natAbs_value (fmul tau (fsF fs)); omega
  have hdn : isNaN (fdiv fOne (fmul tau (fsF fs))) = false := isNaN_fdiv isFinite_fOne hmf hmz
  have hd0 : 0 ≤ value (fdiv fOne (fmul tau (fsF fs))) := by
    rw [← value_posZero]
    refine le_value_fdiv isFinite_fOne hmf (by decide) (by decide) hmp ?_
    rw [value_posZero, Int.zero_mul, hv1]
    exact Int.mul_nonneg (by omega) (by omega)
  unfold smoothing fmin1
  split
  · next hle =>
    simp only [fle, Bool.and_eq_true, decide_eq_true_eq] at hle
    exact ⟨hdn, by rw [value_posZero]; exact hd0, hle.2⟩
  · exact ⟨by decide, by rw [value_posZero, hv1]; omega, le_refl _⟩

theorem attackCoef_inUnit {fs : BitVec 24} (hfs : 0 < fs.toNat) : inUnit (attackCoef fogpad fs) :=
  smoothing_inUnit hfs (by decide) (by decide +kernel) (by decide +kernel)

theorem releaseCoef_inUnit {fs : BitVec 24} (hfs : 0 < fs.toNat) : inUnit (releaseCoef fogpad fs) :=
  smoothing_inUnit hfs (by decide) (by decide +kernel) (by decide +kernel)

/-- The instantaneous gain of a peak above 1.0, infinite ones included, lies in [0, 1]. -/
theorem instantGain_inUnit {peak : Word} (h : fgt peak fOne = true) : inUnit (fdiv fOne peak) := by
  have hU := unitsPerOne_pos
  have hv1 := value_fOne
  simp only [fgt, flt, Bool.and_eq_true, Bool.not_eq_true', decide_eq_true_eq] at h
  obtain ⟨⟨_, hn⟩, hgt⟩ := h
  cases hf : isFinite peak
  · have hi : isInf peak = true := by
      rw [isInf_iff]
      have h1 := (isNaN_eq_false_iff peak).1 hn
      have h2 : ¬ magBits peak < infBits := fun h => by rw [(isFinite_iff peak).2 h] at hf; cases hf
      omega
    have h1 : isNaN fOne = false := by decide
    have h2 : isInf fOne = false := by decide
    have hd : fdiv fOne peak = pack (signBit fOne != signBit peak) 0 := by simp [fdiv, hn, h1, hi, h2]
    have hs := signBit_of_value_pos (a := peak) (by omega)
    rw [hd, hs]
    decide +kernel
  · have hz : mag peak ≠ 0 := by
      have := natAbs_value peak; omega
    refine ⟨isNaN_fdiv isFinite_fOne hf hz, ?_, ?_⟩
    · refine le_value_fdiv isFinite_fOne hf (by decide) (by decide) (by omega) ?_
      rw [value_posZero, Int.zero_mul, hv1]
      exact Int.mul_nonneg (by omega) (by omega)
    · refine value_fdiv_le isFinite_fOne hf (by decide) (by omega) (by omega) ?_
      refine Int.mul_le_mul_of_nonneg_left ?_ (by omega)
      omega

/-- A move of the envelope by a fraction of a difference stays between zero and the difference. -/
theorem fraction_bounds {k d : Word} (hk : inUnit k) (hd : isFinite d = true) :
    isFinite (fmul k d) = true ∧ (0 ≤ value d → 0 ≤ value (fmul k d) ∧ value (fmul k d) ≤ value d) ∧
      (value d ≤ 0 → value d ≤ value (fmul k d) ∧ value (fmul k d) ≤ 0) := by
  have hU := unitsPerOne_pos
  have hkf := isFinite_of_inUnit hk
  have hk1 : value k ≤ unitsPerOne := by rw [← value_fOne]; exact hk.2.2
  have hk0 : 0 ≤ value k := by rw [← value_posZero]; exact hk.2.1
  have hdn := isNaN_of_isFinite hd
  have hpos : 0 ≤ value d → 0 ≤ value (fmul k d) ∧ value (fmul k d) ≤ value d := by
    intro h
    constructor
    · rw [← value_posZero]
      refine le_value_fmul hkf hd (by decide) ?_
      rw [value_posZero, Int.zero_mul]; exact Int.mul_nonneg hk0 h
    · refine value_fmul_le hkf hd hdn ?_
      rw [Int.mul_comm]; exact Int.mul_le_mul_of_nonneg_left hk1 h
  have hneg : value d ≤ 0 → value d ≤ value (fmul k d) ∧ value (fmul k d) ≤ 0 := by
    intro h
    constructor
    · refine le_value_fmul hkf hd hdn ?_
      nlinarith
    · rw [← value_posZero]
      refine value_fmul_le hkf hd (by decide) ?_
      rw [value_posZero, Int.zero_mul]; exact Int.mul_nonpos_of_nonneg_of_nonpos hk0 h
  refine ⟨?_, hpos, hneg⟩
  rcases le_total 0 (value d) with h | h
  · exact isFinite_of_bounds isFinite_posZero hd (by rw [value_posZero]; exact (hpos h).1) (hpos h).2
  · exact isFinite_of_bounds hd isFinite_posZero (hneg h).1 (by rw [value_posZero]; exact (hneg h).2)

/-- The envelope stays in [0, 1] whatever the peak is (R231, R59 e). -/
theorem limiterGain_env {fs : BitVec 24} {env : Word} (hfs : 0 < fs.toNat) (peak : Word) (he : inUnit env) :
    inUnit (limiterGain fogpad fs peak env).2 := by
  have hU := unitsPerOne_pos
  have hv1 := value_fOne
  have hef := isFinite_of_inUnit he
  obtain ⟨hen, he0, he1⟩ := id he
  rw [value_posZero] at he0
  rw [hv1] at he1
  unfold limiterGain
  split
  · next hp =>
    have htu : inUnit (fdiv fogpad.limThreshold peak) := instantGain_inUnit hp
    dsimp only
    split
    · next hlt =>
      generalize fdiv fogpad.limThreshold peak = tgt at *
      have htf := isFinite_of_inUnit htu
      obtain ⟨htn, ht0, ht1⟩ := htu
      rw [value_posZero] at ht0
      simp only [flt, Bool.and_eq_true, decide_eq_true_eq] at hlt
      have hd0 : value (fsub tgt env) ≤ 0 := by
        rw [← value_posZero]; exact value_fsub_le htf hef (by decide) (by rw [value_posZero]; omega)
      have hd1 : value (fneg env) ≤ value (fsub tgt env) :=
        le_value_fsub htf hef (by rw [isNaN_fneg]; exact hen) (by rw [value_fneg hen]; omega)
      rw [value_fneg hen] at hd1
      have hdf : isFinite (fsub tgt env) = true :=
        isFinite_of_bounds (isFinite_fneg hef) isFinite_posZero (by rw [value_fneg hen]; exact hd1)
          (by rw [value_posZero]; exact hd0)
      obtain ⟨hmf, _, hm⟩ := fraction_bounds (attackCoef_inUnit hfs) hdf
      obtain ⟨hm0, hm1⟩ := hm hd0
      refine ⟨isNaN_fadd hef hmf, ?_, ?_⟩
      · exact le_value_fadd hef hmf (by decide) (by rw [value_posZero]; omega)
      · exact value_fadd_le hef hmf (by decide) (by rw [hv1]; omega)
    · exact he
  · dsimp only
    have hd0 : 0 ≤ value (fsub fOne env) := by
      rw [← value_posZero]; exact le_value_fsub isFinite_fOne hef (by decide) (by rw [value_posZero]; omega)
    have hd1 : value (fsub fOne env) ≤ value fOne := value_fsub_le isFinite_fOne hef (by decide) (by omega)
    have hdf : isFinite (fsub fOne env) = true :=
      isFinite_of_bounds isFinite_posZero isFinite_fOne (by rw [value_posZero]; exact hd0) hd1
    obtain ⟨hmf, hm, _⟩ := fraction_bounds (releaseCoef_inUnit hfs) hdf
    obtain ⟨hm0, hm1⟩ := hm hd0
    split
    · next hle =>
      simp only [fle, Bool.and_eq_true, decide_eq_true_eq] at hle
      exact ⟨isNaN_fadd hef hmf, le_value_fadd hef hmf (by decide) (by rw [value_posZero]; omega), hle.2⟩
    · exact ⟨by decide, by rw [value_posZero, hv1]; omega, le_refl _⟩

/-! ### Lengths (R13) -/

/-- Every delay length at a legal rate is at least one. -/
theorem dlen_pos {t : Nat} {fs : BitVec 24} (ht : 1 ≤ t) (hfs : 44100 ≤ fs.toNat) : 0 < dlen fogpad t fs := by
  unfold dlen
  change 0 < (2 * t * fs.toNat + 44100) / (2 * 44100)
  refine Nat.div_pos ?_ (by decide)
  nlinarith

theorem combTuning_pos : ∀ k : Fin 8, 1 ≤ fogpad.combTuning[k] := by decide

theorem apTuning_pos : ∀ j : Fin 4, 1 ≤ fogpad.apTuning[j] := by decide

theorem combLens_pos {fs : BitVec 24} (hfs : 44100 ≤ fs.toNat) (k : Fin 8) : 0 < (combLens fogpad fs)[k] := by
  simp only [combLens, Fin.getElem_fin, mapPlaces_get]
  exact dlen_pos (combTuning_pos k) hfs

theorem apLens_pos {fs : BitVec 24} (hfs : 44100 ≤ fs.toNat) (j : Fin 4) : 0 < (apLens fogpad fs)[j] := by
  simp only [apLens, Fin.getElem_fin, mapPlaces_get]
  exact dlen_pos (apTuning_pos j) hfs

end Sys2Proof.Machine
end

