-- ==== Sys2Proof/Laws/Ceiling.lean ====
section
/-! SUPPORT. The arithmetic behind the limiter's ceiling (spec/47_limiter.md R233 a): the relative error of one rounding,
the tie above 1.0 that rounds down, and what the limiter's gain does to a sample no larger than the peak. -/

namespace Sys2Proof.Machine

-- A kernel evaluation waits for the theorems before it; one at a time, no waiting one holds a stack.
set_option Elab.async false

/-- One rounding in the normal range adds at most a part in 2^24. -/
theorem magOf_roundBits_error {num den : Nat} (hd : 0 < den) (hn : 2 ^ 23 * den ≤ num) :
    2 ^ 24 * (magOf (roundBits num den) * den) ≤ (2 ^ 24 + 1) * num := by
  obtain ⟨h24, h23⟩ := significand_bounds num den
  unfold roundBits
  generalize hsh : (num / den).log2 - 23 = sh at *
  have hstep : 0 < den * 2 ^ sh := Nat.mul_pos hd (Nat.two_pow_pos _)
  have hdm := Nat.div_add_mod num (den * 2 ^ sh)
  have hml := Nat.mod_lt num hstep
  dsimp only
  generalize hm : num / (den * 2 ^ sh) = m at *
  generalize hr : num % (den * 2 ^ sh) = r at *
  have hm23 : 2 ^ 23 ≤ m := by
    rcases h23 with h0 | h
    · subst h0
      rw [Nat.pow_zero, Nat.mul_one] at hm
      rw [← hm]
      exact (Nat.le_div_iff_mul_le hd).2 hn
    · exact h
  generalize hup : (decide (den * 2 ^ sh < 2 * r) || decide (2 * r = den * 2 ^ sh) && decide (m % 2 = 1)) = up
  have hle : magOf (min (sh * 2 ^ 23 + if up = true then m + 1 else m) infBits) ≤ (if up = true then m + 1 else m) * 2 ^ sh := by
    rw [← magOf_significand sh (if up = true then m + 1 else m) (by split <;> omega) (.inr (by split <;> omega))]
    exact magOf_le_magOf.2 (min_le_left _ _)
  refine le_trans (Nat.mul_le_mul_left _ (Nat.mul_le_mul_right den hle)) ?_
  have hs : ∀ k, k * 2 ^ sh * den = den * 2 ^ sh * k := by intro k; ring
  rw [hs]
  generalize den * 2 ^ sh = S at *
  have hSm : 2 ^ 23 * S ≤ S * m := by rw [Nat.mul_comm]; exact Nat.mul_le_mul_left _ hm23
  cases up
  · simp only [Bool.false_eq_true, if_false]; omega
  · have : S ≤ 2 * r := by
      simp only [Bool.or_eq_true, Bool.and_eq_true, decide_eq_true_eq] at hup; omega
    simp only [if_true, Nat.mul_add, Nat.mul_one]; omega

/-- What lies at most a part in 2^24 above 1.0 rounds to at most 1.0: the half-way case goes to the even significand. -/
theorem roundBits_at_one {num den : Nat} (hd : 0 < den) (h : 2 ^ 24 * num ≤ (2 ^ 24 + 1) * (2 ^ 149 * den)) :
    magOf (roundBits num den) ≤ 2 ^ 149 := by
  have hone : magOf (127 * 2 ^ 23) = 2 ^ 149 := by decide +kernel
  rw [← hone, magOf_le_magOf]
  rcases Nat.lt_or_ge num (2 ^ 149 * den) with hlt | hge
  · exact roundBits_le hd (by rw [hone]; exact hlt.le)
  · have hq : (num / den).log2 = 149 := by
      rw [Nat.log2_eq_iff (by have := (Nat.le_div_iff_mul_le hd).2 hge; omega)]
      refine ⟨(Nat.le_div_iff_mul_le hd).2 hge, (Nat.div_lt_iff_lt_mul hd).2 ?_⟩
      rw [Nat.pow_succ]
      omega
    have hS : 0 < den * 2 ^ 126 := Nat.mul_pos hd (Nat.two_pow_pos _)
    have hsplit : 2 ^ 149 * den = 2 ^ 23 * (den * 2 ^ 126) := by ring
    unfold roundBits
    rw [hq]
    dsimp only
    rw [hsplit] at h hge
    rw [show 149 - 23 = 126 from rfl]
    clear hsplit hq hone
    obtain ⟨S, hSd⟩ : ∃ S, S = den * 2 ^ 126 := ⟨_, rfl⟩
    rw [← hSd] at h hge hS ⊢
    clear hSd
    have hm : num / S = 2 ^ 23 := by
      refine Nat.div_eq_of_lt_le ?_ ?_
      · omega
      · have : (2 ^ 23 + 1) * S = 2 ^ 23 * S + S := by ring
        omega
    have hr := Nat.div_add_mod num S
    rw [hm] at hr
    rw [hm]
    have hup : ¬ (S < 2 * (num % S)) := by
      have : S * 2 ^ 23 = 2 ^ 23 * S := Nat.mul_comm _ _
      omega
    simp only [hup, decide_false, Bool.false_or]
    refine le_trans (min_le_left _ _) ?_
    simp

/-- A sample no larger than a peak between 1.0 and 2^126, times a gain no larger than the quotient of 1.0 by that peak, is
at most 1.0. -/
theorem mag_fmul_le_one {a g p : Word} (ha : isFinite a = true) (hp : isFinite p = true)
    (hg : isFinite g = true) (hp0 : 0 < mag p) (hp1 : mag p ≤ mag 0x7E800000#32) (hap : mag a ≤ mag p)
    (hgp : mag g ≤ mag (fdiv fOne p)) : mag (fmul a g) ≤ mag fOne := by
  have hU : unitsPerOne = 2 ^ 149 := rfl
  have htop : mag 0x7E800000#32 = 2 ^ 275 := by decide +kernel
  rw [htop] at hp1
  have hquot : 2 ^ 24 * (mag (fdiv fOne p) * mag p) ≤ (2 ^ 24 + 1) * (2 ^ 149 * 2 ^ 149) := by
    rw [fdiv_of_finite isFinite_fOne hp (by omega), mag_roundTo, mag_fOne, hU]
    refine magOf_roundBits_error hp0 ?_
    calc 2 ^ 23 * mag p ≤ 2 ^ 23 * 2 ^ 275 := Nat.mul_le_mul_left _ hp1
      _ = 2 ^ 149 * 2 ^ 149 := by decide +kernel
  rw [fmul_of_finite ha hg, mag_roundTo, mag_fOne, hU]
  refine roundBits_at_one (Nat.two_pow_pos _) (le_trans (Nat.mul_le_mul_left _ ?_) hquot)
  calc mag a * mag g ≤ mag p * mag (fdiv fOne p) := Nat.mul_le_mul hap hgp
    _ = mag (fdiv fOne p) * mag p := Nat.mul_comm _ _

/-- The limited sample (R231, R233 a): the gain of a frame whose peak is at most 2^126 takes every sample no larger than the
peak to at most 1.0. -/
theorem limiterGain_ceiling {fs : BitVec 24} {peak env a : Word} (hfs : 0 < fs.toNat) (he : inUnit env)
    (hpn : isNaN peak = false) (hp0 : 0 ≤ value peak) (hp1 : mag peak ≤ mag 0x7E800000#32)
    (hap : mag a ≤ mag peak) :
    isNaN (fmul a (limiterGain fogpad fs peak env).1) = false ∧
      mag (fmul a (limiterGain fogpad fs peak env).1) ≤ mag fOne := by
  have hU := unitsPerOne_pos
  have hv1 := value_fOne
  have hpf : isFinite peak = true := isFinite_of_mag_le (c := 0x7E800000#32) (by decide) hp1
  have haf : isFinite a = true := isFinite_of_mag_le hpf hap
  have henv := limiterGain_env hfs peak he
  have hunit : ∀ g : Word, inUnit g → mag g ≤ mag fOne := by
    intro g hg
    have h0 := hg.2.1
    have h1 := hg.2.2
    rw [value_posZero] at h0
    have h2 := natAbs_value g
    have h3 := natAbs_value fOne
    omega
  by_cases hgt : fgt peak fOne = true
  · have htu := instantGain_inUnit hgt
    have hm : 0 < mag peak := by
      simp only [fgt, flt, Bool.and_eq_true, decide_eq_true_eq] at hgt
      have := natAbs_value peak
      omega
    have key : inUnit (limiterGain fogpad fs peak env).1 ∧ mag (limiterGain fogpad fs peak env).1 ≤ mag (fdiv fOne peak) := by
      unfold limiterGain at henv ⊢
      rw [if_pos (show fgt peak fogpad.limThreshold = true from hgt)] at henv ⊢
      rw [show fogpad.limThreshold = fOne from rfl] at henv ⊢
      dsimp only at henv ⊢
      generalize (if flt (fdiv fOne peak) env = true then
        fadd env (fmul (attackCoef fogpad fs) (fsub (fdiv fOne peak) env)) else env) = e at *
      split
      · exact ⟨htu, le_refl _⟩
      · next hnlt =>
        refine ⟨henv, ?_⟩
        have h1 := htu.1
        have h2 := henv.1
        simp only [flt, h1, h2, Bool.not_false, Bool.true_and, decide_eq_true_eq, not_lt] at hnlt
        have h3 := natAbs_value e
        have h4 := natAbs_value (fdiv fOne peak)
        have h5 := henv.2.1
        rw [value_posZero] at h5
        omega
    have hgf := isFinite_of_inUnit key.1
    exact ⟨isNaN_fmul haf hgf, mag_fmul_le_one haf hpf hgf hm hp1 hap key.2⟩
  · have hle : value peak ≤ value fOne := by
      simp only [fgt, flt, hpn, show isNaN fOne = false by decide, Bool.not_false, Bool.true_and, decide_eq_true_eq,
        not_lt] at hgt
      exact hgt
    have hg : inUnit (limiterGain fogpad fs peak env).1 := by
      unfold limiterGain at henv ⊢
      rw [if_neg (show ¬ fgt peak fogpad.limThreshold = true from hgt)] at henv ⊢
      exact henv
    have hgf := isFinite_of_inUnit hg
    refine ⟨isNaN_fmul haf hgf, ?_⟩
    rw [fmul_of_finite haf hgf]
    refine mag_roundTo_le hU ?_
    have h1 := natAbs_value peak
    have h2 := natAbs_value fOne
    exact Nat.mul_le_mul (by omega) (by rw [← mag_fOne]; exact hunit _ hg)

end Sys2Proof.Machine
end

