-- ==== Sys2Proof/Laws/PerInstr.lean ====
section
/-! SUPPORT. A statement per instruction, made of the instruction as syntax: its line is well-formed and its encoding
carries that line's kind, address and operand (spec/30_encoding.md R80, R84). -/

namespace Sys2Proof

/-! ### The fields of an encoding -/

theorem toNat_append (op : BitVec 9) (w : Word) : (op ++ w : BitVec 41).toNat = op.toNat * 2 ^ 32 + w.toNat := by
  have h : (op ++ w : BitVec (9 + 32)).toNat = op.toNat <<< 32 ||| w.toNat := BitVec.toNat_append op w
  rw [← Nat.shiftLeft_add_eq_or_of_lt w.isLt, Nat.shiftLeft_eq] at h
  exact h

theorem xactData_append (op : BitVec 9) (w : Word) : xactData (op ++ w : BitVec 41) = w := by
  have h := toNat_append op w
  have hw := w.isLt
  apply BitVec.eq_of_toNat_eq
  simp only [xactData, BitVec.extractLsb'_toNat, Nat.shiftRight_eq_div_pow]
  omega

theorem xactOpcode_append (op : BitVec 9) (w : Word) : xactOpcode (op ++ w : BitVec 41) = op := by
  have h := toNat_append op w
  have hw := w.isLt
  have ho := op.isLt
  apply BitVec.eq_of_toNat_eq
  simp only [xactOpcode, BitVec.extractLsb'_toNat, Nat.shiftRight_eq_div_pow]
  omega

theorem xactAddr_append (op : BitVec 9) (w : Word) : xactAddr (op ++ w : BitVec 41) = op.extractLsb' 0 8 := by
  have h := toNat_append op w
  have hw := w.isLt
  apply BitVec.eq_of_toNat_eq
  simp only [xactAddr, BitVec.extractLsb'_toNat, Nat.shiftRight_eq_div_pow]
  omega

theorem xactWrite_append (op : BitVec 9) (w : Word) : xactWrite (op ++ w : BitVec 41) = op.getLsbD 8 := by
  have h := toNat_append op w
  have hw := w.isLt
  simp only [xactWrite, BitVec.getLsbD, Nat.testBit_eq_decide_div_mod_eq, decide_eq_decide]
  omega

theorem xactOpcode_encode (i : Instr) : xactOpcode (encode i) = i.opcode := xactOpcode_append _ _

theorem xactData_encode (i : Instr) : xactData (encode i) = i.operand := xactData_append _ _

/-- A write line is well-formed whatever its operand when it is with operand zero (R87). -/
theorem writeLine_wellFormed {a : Nat} (h : (writeLine a 0#32).wellFormed = true) (w : Word) :
    (writeLine a w).wellFormed = true := by
  have hw : w.toNat < 2 ^ 32 := w.isLt
  simp only [Line.wellFormed, Bool.and_eq_true, Line.addrFits, Line.operandFits, Line.addrDefined,
    Line.kindAllowed, writeLine] at h ⊢
  exact ⟨⟨⟨h.1.1.1, decide_eq_true hw⟩, h.1.2⟩, h.2⟩

namespace Laws

/-- Well-formed, and encoded as its line says. -/
abbrev WellFormedRow.Statement (i : Instr) : Prop :=
  i.wellFormed = true ∧ xactWrite (encode i) = i.line.write ∧ (xactAddr (encode i)).toNat = i.line.addr ∧
    (xactData (encode i)).toNat = i.line.operand

theorem WellFormedRow.of_write {i : Instr} {a : Nat} {w : Word} (op : BitVec 9) (hop : i.opcode = op)
    (hl : i.line = writeLine a w) (hw : i.operand = w)
    (hwr : op.getLsbD 8 = true) (ha : (op.extractLsb' 0 8).toNat = a)
    (h : (writeLine a 0#32).wellFormed = true) : WellFormedRow.Statement i := by
  refine ⟨?_, ?_, ?_, ?_⟩
  · rw [Instr.wellFormed, hl]; exact writeLine_wellFormed h w
  · rw [encode, xactWrite_append, hop, hl, hwr]; rfl
  · rw [encode, xactAddr_append, hop, hl, ha]; rfl
  · rw [xactData_encode, hl, hw]; rfl

theorem WellFormedRow.rdId : WellFormedRow.Statement .rdId := by decide
theorem WellFormedRow.rdStatus : WellFormedRow.Statement .rdStatus := by decide
theorem WellFormedRow.rdErr : WellFormedRow.Statement .rdErr := by decide
theorem WellFormedRow.wrErr (w : Word) : WellFormedRow.Statement (.wrErr w) :=
  WellFormedRow.of_write 0x102#9 rfl rfl rfl (by decide) (by decide) (by decide)
theorem WellFormedRow.rdConfig : WellFormedRow.Statement .rdConfig := by decide
theorem WellFormedRow.wrConfig (w : Word) : WellFormedRow.Statement (.wrConfig w) :=
  WellFormedRow.of_write 0x103#9 rfl rfl rfl (by decide) (by decide) (by decide)
theorem WellFormedRow.rdRem : WellFormedRow.Statement .rdRem := by decide
theorem WellFormedRow.wrBlock (w : Word) : WellFormedRow.Statement (.wrBlock w) :=
  WellFormedRow.of_write 0x108#9 rfl rfl rfl (by decide) (by decide) (by decide)
theorem WellFormedRow.wrFrame (w : Word) : WellFormedRow.Statement (.wrFrame w) :=
  WellFormedRow.of_write 0x109#9 rfl rfl rfl (by decide) (by decide) (by decide)
theorem WellFormedRow.rdIn0 : WellFormedRow.Statement .rdIn0 := by decide
theorem WellFormedRow.wrIn0 (w : Word) : WellFormedRow.Statement (.wrIn0 w) :=
  WellFormedRow.of_write 0x10A#9 rfl rfl rfl (by decide) (by decide) (by decide)
theorem WellFormedRow.rdIn1 : WellFormedRow.Statement .rdIn1 := by decide
theorem WellFormedRow.wrIn1 (w : Word) : WellFormedRow.Statement (.wrIn1 w) :=
  WellFormedRow.of_write 0x10B#9 rfl rfl rfl (by decide) (by decide) (by decide)
theorem WellFormedRow.rdOut0 : WellFormedRow.Statement .rdOut0 := by decide
theorem WellFormedRow.rdOut1 : WellFormedRow.Statement .rdOut1 := by decide
theorem WellFormedRow.rdGr : WellFormedRow.Statement .rdGr := by decide
theorem WellFormedRow.rdRoomsize : WellFormedRow.Statement .rdRoomsize := by decide
theorem WellFormedRow.wrRoomsize (w : Word) : WellFormedRow.Statement (.wrRoomsize w) :=
  WellFormedRow.of_write 0x110#9 rfl rfl rfl (by decide) (by decide) (by decide)
theorem WellFormedRow.rdWidth : WellFormedRow.Statement .rdWidth := by decide
theorem WellFormedRow.wrWidth (w : Word) : WellFormedRow.Statement (.wrWidth w) :=
  WellFormedRow.of_write 0x111#9 rfl rfl rfl (by decide) (by decide) (by decide)
theorem WellFormedRow.rdDry : WellFormedRow.Statement .rdDry := by decide
theorem WellFormedRow.wrDry (w : Word) : WellFormedRow.Statement (.wrDry w) :=
  WellFormedRow.of_write 0x112#9 rfl rfl rfl (by decide) (by decide) (by decide)
theorem WellFormedRow.rdWet : WellFormedRow.Statement .rdWet := by decide
theorem WellFormedRow.wrWet (w : Word) : WellFormedRow.Statement (.wrWet w) :=
  WellFormedRow.of_write 0x113#9 rfl rfl rfl (by decide) (by decide) (by decide)
theorem WellFormedRow.rdMode : WellFormedRow.Statement .rdMode := by decide
theorem WellFormedRow.wrMode (w : Word) : WellFormedRow.Statement (.wrMode w) :=
  WellFormedRow.of_write 0x114#9 rfl rfl rfl (by decide) (by decide) (by decide)
theorem WellFormedRow.rdPlayrate : WellFormedRow.Statement .rdPlayrate := by decide
theorem WellFormedRow.wrPlayrate (w : Word) : WellFormedRow.Statement (.wrPlayrate w) :=
  WellFormedRow.of_write 0x115#9 rfl rfl rfl (by decide) (by decide) (by decide)
theorem WellFormedRow.rdBcAmount : WellFormedRow.Statement .rdBcAmount := by decide
theorem WellFormedRow.wrBcAmount (w : Word) : WellFormedRow.Statement (.wrBcAmount w) :=
  WellFormedRow.of_write 0x120#9 rfl rfl rfl (by decide) (by decide) (by decide)
theorem WellFormedRow.rdBcLfoRate : WellFormedRow.Statement .rdBcLfoRate := by decide
theorem WellFormedRow.wrBcLfoRate (w : Word) : WellFormedRow.Statement (.wrBcLfoRate w) :=
  WellFormedRow.of_write 0x121#9 rfl rfl rfl (by decide) (by decide) (by decide)
theorem WellFormedRow.rdBcLfoDepth : WellFormedRow.Statement .rdBcLfoDepth := by decide
theorem WellFormedRow.wrBcLfoDepth (w : Word) : WellFormedRow.Statement (.wrBcLfoDepth w) :=
  WellFormedRow.of_write 0x122#9 rfl rfl rfl (by decide) (by decide) (by decide)
theorem WellFormedRow.rdBcPostmix : WellFormedRow.Statement .rdBcPostmix := by decide
theorem WellFormedRow.wrBcPostmix (w : Word) : WellFormedRow.Statement (.wrBcPostmix w) :=
  WellFormedRow.of_write 0x123#9 rfl rfl rfl (by decide) (by decide) (by decide)
theorem WellFormedRow.wrBcLfoRst (w : Word) : WellFormedRow.Statement (.wrBcLfoRst w) :=
  WellFormedRow.of_write 0x124#9 rfl rfl rfl (by decide) (by decide) (by decide)
theorem WellFormedRow.rdDecBits : WellFormedRow.Statement .rdDecBits := by decide
theorem WellFormedRow.wrDecBits (w : Word) : WellFormedRow.Statement (.wrDecBits w) :=
  WellFormedRow.of_write 0x128#9 rfl rfl rfl (by decide) (by decide) (by decide)
theorem WellFormedRow.rdDecRate : WellFormedRow.Statement .rdDecRate := by decide
theorem WellFormedRow.wrDecRate (w : Word) : WellFormedRow.Statement (.wrDecRate w) :=
  WellFormedRow.of_write 0x129#9 rfl rfl rfl (by decide) (by decide) (by decide)
theorem WellFormedRow.rdFltCutoff : WellFormedRow.Statement .rdFltCutoff := by decide
theorem WellFormedRow.wrFltCutoff (w : Word) : WellFormedRow.Statement (.wrFltCutoff w) :=
  WellFormedRow.of_write 0x130#9 rfl rfl rfl (by decide) (by decide) (by decide)
theorem WellFormedRow.rdFltRes : WellFormedRow.Statement .rdFltRes := by decide
theorem WellFormedRow.wrFltRes (w : Word) : WellFormedRow.Statement (.wrFltRes w) :=
  WellFormedRow.of_write 0x131#9 rfl rfl rfl (by decide) (by decide) (by decide)
theorem WellFormedRow.rdFltLfoRate : WellFormedRow.Statement .rdFltLfoRate := by decide
theorem WellFormedRow.wrFltLfoRate (w : Word) : WellFormedRow.Statement (.wrFltLfoRate w) :=
  WellFormedRow.of_write 0x132#9 rfl rfl rfl (by decide) (by decide) (by decide)
theorem WellFormedRow.rdFltLfoDepth : WellFormedRow.Statement .rdFltLfoDepth := by decide
theorem WellFormedRow.wrFltLfoDepth (w : Word) : WellFormedRow.Statement (.wrFltLfoDepth w) :=
  WellFormedRow.of_write 0x133#9 rfl rfl rfl (by decide) (by decide) (by decide)
theorem WellFormedRow.wrFltLfoRst (w : Word) : WellFormedRow.Statement (.wrFltLfoRst w) :=
  WellFormedRow.of_write 0x134#9 rfl rfl rfl (by decide) (by decide) (by decide)

end Laws

end Sys2Proof
end

