-- ==== Sys2Proof/Laws/Ranges.lean ====
section
/-! SUPPORT. The ranges of spec/10_state.md R59 through the larger operations: what a cleared lane, a clamped operand, the
wet path of a lane and a whole frame satisfy, and that an ACTIVE state's indices lie inside their memories. -/

namespace Sys2Proof.Machine

-- A kernel evaluation waits for the theorems before it; one at a time, no waiting one holds a stack.
set_option Elab.async false

/-! ### What CONFIG writes -/

theorem memoriesWf_cleared : Lane.cleared.MemoriesWf := by
  refine ⟨?_, ?_, wf_cleared⟩
  · intro k; fin_cases k <;> exact wf_cleared
  · intro k; fin_cases k <;> exact wf_cleared

theorem bounded_cleared {fs : BitVec 24} (h : 44100 ≤ fs.toNat) : Lane.cleared.Bounded fogpad fs := by
  refine ⟨?_, ?_, ?_, ?_, ?_, ?_⟩
  · intro k; refine lt_of_eq_of_lt ?_ (combLens_pos h k); fin_cases k <;> rfl
  · intro k p hp; fin_cases k <;> exact nomatch hp
  · intro k; refine lt_of_eq_of_lt ?_ (apLens_pos h k); fin_cases k <;> rfl
  · intro k p hp; fin_cases k <;> exact nomatch hp
  · intro p hp; exact nomatch hp
  · decide

theorem paramsAtConfig_legal : paramsAtConfig.Legal fogpad := by constructor <;> decide +kernel

/-! ### What a parameter write stores (R47) -/

theorem unitOperand_inUnit (w : Word) : inUnit (unitOperand w) :=
  clamp_between (by decide) (by decide) (by decide +kernel)

theorem rateOperand_within (w : Word) : within fogpad.minLfoRate fogpad.maxLfoRate (rateOperand fogpad w) :=
  clamp_between (by decide) (by decide) (by decide +kernel)

theorem cutoffOperand_within (w : Word) : within fogpad.filterMinFreq fogpad.filterMaxFreq (cutoffOperand fogpad w) :=
  clamp_between (by decide) (by decide) (by decide +kernel)

theorem resonanceOperand_within (w : Word) : within fogpad.filterMinRes fogpad.filterMaxRes (resonanceOperand fogpad w) :=
  clamp_between (by decide) (by decide) (by decide +kernel)

theorem bitsOperand_le (w : Word) : (bitsOperand fogpad w).toNat ≤ fogpad.decMaxBits := by
  unfold bitsOperand; split
  · decide
  · omega

theorem channelCount_le (n : BitVec 4) : (channelCount fogpad n).toNat ≤ 2 := by revert n; decide

/-! ### The wet path of a lane -/

theorem wetPath_memoriesWf {s : State} {xin : Word} {l : Lane} (h : l.MemoriesWf) :
    (wetPath fogpad s xin l).2.MemoriesWf := by
  refine ⟨?_, ?_, ?_⟩
  · intro k; rw [wetPath_combs, combBank_comb]; exact wf_write (h.combs k) _ _
  · intro j
    obtain ⟨a, ha⟩ := wetPath_aps fogpad s xin l
    obtain ⟨b, hb⟩ := apChain_aps fogpad s.fs a l.aps j
    rw [ha, hb]; exact wf_write (h.aps j) _ _
  · rw [wetPath_tail]; exact wf_write h.tail _ _

theorem wetPath_bounded {s : State} {xin : Word} {l : Lane} (hs : s.ActiveInv fogpad) (h : l.Bounded fogpad s.fs) :
    (wetPath fogpad s xin l).2.Bounded fogpad s.fs := by
  refine ⟨?_, ?_, ?_, ?_, ?_, ?_⟩
  · intro k; rw [wetPath_combs, combBank_comb]; exact nextIndex_lt (combLens_pos hs.fsLow k)
  · intro k; rw [wetPath_combs, combBank_comb]; exact below_write (h.combMem k) (h.combIdx k) _
  · intro j
    obtain ⟨a, ha⟩ := wetPath_aps fogpad s xin l
    obtain ⟨b, hb⟩ := apChain_aps fogpad s.fs a l.aps j
    rw [ha, hb]; exact nextIndex_lt (apLens_pos hs.fsLow j)
  · intro j
    obtain ⟨a, ha⟩ := wetPath_aps fogpad s xin l
    obtain ⟨b, hb⟩ := apChain_aps fogpad s.fs a l.aps j
    rw [ha, hb]; exact below_write (h.apMem j) (h.apIdx j) _
  · rw [wetPath_tail]; exact below_write h.tailMem hs.tw _
  · rcases wetPath_dcnt fogpad s xin l with e | e | e
    · rw [e]; exact Nat.zero_le _
    · rw [e]; exact holdFor_le hs.params.decRate
    · rw [e]; exact le_trans (Nat.sub_le _ _) h.dcnt

theorem wet1_memoriesWf {s : State} (h : s.lane1.MemoriesWf) : (wet1 fogpad s).2.MemoriesWf := by
  cases e : stereo s
  · rw [wet1_mono _ e]; exact h
  · rw [wet1_stereo _ e]; exact wetPath_memoriesWf h

theorem wet1_bounded {s : State} (hs : s.ActiveInv fogpad) : (wet1 fogpad s).2.Bounded fogpad s.fs := by
  cases e : stereo s
  · rw [wet1_mono _ e]; exact hs.lane1
  · rw [wet1_stereo _ e]; exact wetPath_bounded hs hs.lane1

/-! ### A whole frame -/

/-- The ACTIVE part of the invariant speaks of these fields alone. -/
theorem ActiveInv_of_fields {s t : State} (hs : s.ActiveInv fogpad) (hfs : t.fs = s.fs) (hnch : t.nch = s.nch)
    (hp : t.params.Legal fogpad) (h0 : t.lane0.Bounded fogpad s.fs) (h1 : t.lane1.Bounded fogpad s.fs)
    (htw : t.tw < fogpad.tailLen) (htrp : belowFrom0 (i2f fogpad.tailLen) t.trp) (hbc : belowFrom0 fOne t.bcph)
    (hfl : belowFrom0 fOne t.flph) (henv : inUnit t.env) : t.ActiveInv fogpad :=
  ⟨hfs ▸ hs.fsLow, hfs ▸ hs.fsHigh, hnch ▸ hs.nch, hp, by rw [hfs]; exact h0, by rw [hfs]; exact h1, htw, htrp, hbc,
    hfl, henv⟩

theorem frame_activeInv {s : State} (hs : s.ActiveInv fogpad) : (frame fogpad s).ActiveInv fogpad :=
  ActiveInv_of_fields hs (frame_fs ..) (frame_nch ..) (by rw [frame_params]; exact hs.params)
    (by rw [frame_lane0]; exact wetPath_bounded hs hs.lane0) (by rw [frame_lane1]; exact wet1_bounded hs)
    (by rw [frame_tw]; exact nextIndex_lt (by decide))
    (by rw [frame_trp]; exact advanceReadPos_below hs.params.playrate hs.trp)
    (by rw [frame_bcph]; exact lfoStep_below hs.fsLow hs.params.bcLfoRate hs.bcph)
    (by rw [frame_flph]; exact lfoStep_below hs.fsLow hs.params.fltLfoRate hs.flph)
    (by rw [frame_env]; exact limiterGain_env (by have := hs.fsLow; change 44100 ≤ _ at this; omega) _ hs.env)

theorem laneIndicesInRange_of_bounded {l : Lane} {fs : BitVec 24} (h : l.Bounded fogpad fs) :
    laneIndicesInRange fogpad fs l = true := by
  unfold laneIndicesInRange
  simp only [Bool.and_eq_true, List.all_eq_true]
  constructor
  · intro b hb
    obtain ⟨k, hk, rfl⟩ := List.getElem_of_mem hb
    simp only [Vector.length_toList] at hk
    simpa using h.combIdx ⟨k, hk⟩
  · intro b hb
    obtain ⟨k, hk, rfl⟩ := List.getElem_of_mem hb
    simp only [Vector.length_toList] at hk
    simpa using h.apIdx ⟨k, hk⟩

theorem frameIndicesInRange_of_activeInv {s : State} (hs : s.ActiveInv fogpad) : frameIndicesInRange fogpad s = true := by
  have htrp := tapIndex_range hs.trp
  unfold frameIndicesInRange
  rw [laneIndicesInRange_of_bounded hs.lane0, laneIndicesInRange_of_bounded hs.lane1]
  simp [htrp.1, hs.tw]
  exact htrp.2

end Sys2Proof.Machine
end

