-- ==== Sys2Proof/Laws/Step.lean ====
section
/-! SUPPORT. What one step can do, said once. -/

namespace Sys2Proof.Machine

theorem step_nothing_presented {s : State} (h : s.port = []) : step s = .next s := by
  simp [step, takeEvent, h]

theorem step_hardwareReset {s : State} {rest : List PortEvent} (h : s.port = .hardwareReset :: rest) :
    step s = .next { State.reset with port := rest } := by
  simp [step, takeEvent, h, hardwareReset]

theorem step_decoded {s : State} {x : Xact} {rest : List PortEvent} {i : Instr} (h : s.port = .xact x :: rest)
    (hd : decode x = .ok i) : step s = exec i { s with port := rest } := by
  simp [step, takeEvent, h, hd]

theorem step_refused_xact {s : State} {x : Xact} {rest : List PortEvent} {e : DecodeError}
    (h : s.port = .xact x :: rest) (hd : decode x = .error e) :
    step s = .next (refuseXact x { s with port := rest }) := by
  simp [step, takeEvent, h, hd]

/-- Everything a step that answers a next state can have done. -/
theorem step_cases {s t : State} (h : step s = .next t) :
    (s.port = [] ∧ t = s) ∨
      (∃ rest, s.port = .hardwareReset :: rest ∧ t = { State.reset with port := rest }) ∨
      (∃ x rest i, s.port = .xact x :: rest ∧ decode x = .ok i ∧ exec i { s with port := rest } = .next t) ∨
      (∃ x rest e, s.port = .xact x :: rest ∧ decode x = .error e ∧
        t = refuseXact x { s with port := rest }) := by
  match hp : s.port with
  | [] =>
    rw [step_nothing_presented hp] at h
    exact .inl ⟨rfl, by injection h with h; exact h.symm⟩
  | .hardwareReset :: rest =>
    rw [step_hardwareReset hp] at h
    exact .inr (.inl ⟨rest, rfl, by injection h with h; exact h.symm⟩)
  | .xact x :: rest =>
    cases hd : decode x with
    | ok i =>
      rw [step_decoded hp hd] at h
      exact .inr (.inr (.inl ⟨x, rest, i, rfl, hd, h⟩))
    | error e =>
      rw [step_refused_xact hp hd] at h
      exact .inr (.inr (.inr ⟨x, rest, e, rfl, hd, by injection h with h; exact h.symm⟩))

/-- A run of one step more starts with a step. -/
theorem run_succ {s t : State} (h : step s = .next t) (k : Nat) :
    Sys2Proof.core.run (k + 1) s = Sys2Proof.core.run k t := by
  have e : Sys2Proof.core.step s = .next t := h
  simp only [Host.Core.run, e]

end Sys2Proof.Machine
end

