-- ==== Sys2Proof/Tests/Slice0.lean ====
section
/-! SUPPORT. The model's own tests: ill-formed lines are refused, every operation's transaction decodes, single steps give
the values of spec/95_test_vectors.md, and for every statement with hypotheses a state that meets them. -/

open Sys2Proof Sys2Proof.Machine Sys2Proof.Claims

namespace Sys2Proof.Tests

-- One theorem at a time: each kernel evaluation waits for the theorems before it, and each waiting one holds a stack.
set_option Elab.async false

/-! ### Small states -/

/-- A two-lane block at 44100 Hz with two frames to go, two channels in and out: CONFIG 0x0200AC44, BLOCK 0x00220002. -/
def stereoBlock : State :=
  { construct fogpad 44100#24 2#2 State.reset with rem := 2#16, numin := 2#2, numout := 2#2 }

/-- The same with one lane and one channel. -/
def monoBlock : State :=
  { construct fogpad 44100#24 1#2 State.reset with rem := 2#16, numin := 1#2, numout := 1#2 }

/-- The state with these transactions presented. -/
def offer (s : State) (xs : List Xact) : State := { s with port := xs.map .xact }

/-- The state after one step, where there is one. -/
def after (s : State) : Option State :=
  match step s with
  | .next t => some t
  | _ => none

/-- One transaction performed on a state. -/
def perform (s : State) (x : Xact) : Option State := after (offer s [x])

/-- What a transaction answers. -/
def answered (s : State) (x : Xact) : Option (Option Word) := (perform s x).map (·.resp)

/-- A state's parameters changed. -/
def withParams (s : State) (f : Params → Params) : State := { s with params := f s.params }

/-- DRY 1.0 and WET 0.0. -/
def dryOnly (s : State) : State := withParams s fun p => { p with dry := 0x3F800000#32, wet := 0x00000000#32 }

/-! ### WellFormed: one ill-formed line for each check -/

/-- An address of nine bits; every other check passes but that the address is defined. -/
theorem test_illformed_address : (⟨false, 0x100, 0⟩ : Line).addrFits = false ∧
    (⟨false, 0x100, 0⟩ : Line).wellFormed = false := by decide

/-- An operand of 33 bits on WR.DRY. -/
theorem test_illformed_operand : (⟨true, 0x12, 0x100000000⟩ : Line).operandFits = false ∧
    (⟨true, 0x12, 0x100000000⟩ : Line).wellFormed = false := by decide

/-- Reserved addresses (R85). -/
theorem test_illformed_reserved : (⟨false, 0x05, 0⟩ : Line).addrDefined = false ∧
    (⟨false, 0x05, 0⟩ : Line).wellFormed = false ∧ (⟨true, 0x35, 0⟩ : Line).wellFormed = false := by decide

/-- A write of STATUS and a read of BLOCK (R86). -/
theorem test_illformed_kind : (⟨true, 0x01, 0⟩ : Line).kindAllowed = false ∧ (⟨true, 0x01, 0⟩ : Line).wellFormed = false ∧
    (⟨false, 0x08, 0⟩ : Line).kindAllowed = false ∧ (⟨false, 0x08, 0⟩ : Line).wellFormed = false := by decide

/-! ### Decoding -/

/-- The operations of the system registers: W, ADDR and DATA written out from R80 and the opcode column of R84. -/
theorem test_decode_system :
    decode 0x00000000000#41 = .ok .rdId ∧
    decode 0x001FFFFFFFF#41 = .ok .rdStatus ∧
    decode 0x00200000000#41 = .ok .rdErr ∧
    decode 0x102A92CDF36#41 = .ok (.wrErr 0xA92CDF36#32) ∧
    decode 0x00300000000#41 = .ok .rdConfig ∧
    decode 0x103AB736A04#41 = .ok (.wrConfig 0xAB736A04#32) ∧
    decode 0x00400000000#41 = .ok .rdRem := by decide

/-- The operations of the block protocol and the data registers: W, ADDR and DATA written out from R80 and the opcode column of R84. -/
theorem test_decode_protocol :
    decode 0x108ADB9F4D2#41 = .ok (.wrBlock 0xADB9F4D2#32) ∧
    decode 0x109AEDD3A39#41 = .ok (.wrFrame 0xAEDD3A39#32) ∧
    decode 0x00AFFFFFFFF#41 = .ok .rdIn0 ∧
    decode 0x10AB123C507#41 = .ok (.wrIn0 0xB123C507#32) ∧
    decode 0x00BFFFFFFFF#41 = .ok .rdIn1 ∧
    decode 0x10BB36A4FD5#41 = .ok (.wrIn1 0xB36A4FD5#32) ∧
    decode 0x00CFFFFFFFF#41 = .ok .rdOut0 ∧
    decode 0x00D00000000#41 = .ok .rdOut1 ∧
    decode 0x00EFFFFFFFF#41 = .ok .rdGr := by decide

/-- The operations of the reverb parameters: W, ADDR and DATA written out from R80 and the opcode column of R84. -/
theorem test_decode_reverb :
    decode 0x01000000000#41 = .ok .rdRoomsize ∧
    decode 0x110B91AAAD8#41 = .ok (.wrRoomsize 0xB91AAAD8#32) ∧
    decode 0x01100000000#41 = .ok .rdWidth ∧
    decode 0x111BB6135A6#41 = .ok (.wrWidth 0xBB6135A6#32) ∧
    decode 0x01200000000#41 = .ok .rdDry ∧
    decode 0x112BDA7C074#41 = .ok (.wrDry 0xBDA7C074#32) ∧
    decode 0x01300000000#41 = .ok .rdWet ∧
    decode 0x113BFEE4B42#41 = .ok (.wrWet 0xBFEE4B42#32) ∧
    decode 0x01400000000#41 = .ok .rdMode ∧
    decode 0x114C234D610#41 = .ok (.wrMode 0xC234D610#32) ∧
    decode 0x01500000000#41 = .ok .rdPlayrate ∧
    decode 0x115C47B60DE#41 = .ok (.wrPlayrate 0xC47B60DE#32) := by decide

/-- The operations of the BitCrusher: W, ADDR and DATA written out from R80 and the opcode column of R84. -/
theorem test_decode_crusher :
    decode 0x02000000000#41 = .ok .rdBcAmount ∧
    decode 0x120C6C1EBAC#41 = .ok (.wrBcAmount 0xC6C1EBAC#32) ∧
    decode 0x02100000000#41 = .ok .rdBcLfoRate ∧
    decode 0x121C908767A#41 = .ok (.wrBcLfoRate 0xC908767A#32) ∧
    decode 0x02200000000#41 = .ok .rdBcLfoDepth ∧
    decode 0x122CB4F0148#41 = .ok (.wrBcLfoDepth 0xCB4F0148#32) ∧
    decode 0x02300000000#41 = .ok .rdBcPostmix ∧
    decode 0x123CD958C16#41 = .ok (.wrBcPostmix 0xCD958C16#32) ∧
    decode 0x124CEB8D17D#41 = .ok (.wrBcLfoRst 0xCEB8D17D#32) := by decide

/-- The operations of the Decimator: W, ADDR and DATA written out from R80 and the opcode column of R84. -/
theorem test_decode_decimator :
    decode 0x028FFFFFFFF#41 = .ok .rdDecBits ∧
    decode 0x128D0FF5C4B#41 = .ok (.wrDecBits 0xD0FF5C4B#32) ∧
    decode 0x029FFFFFFFF#41 = .ok .rdDecRate ∧
    decode 0x129D345E719#41 = .ok (.wrDecRate 0xD345E719#32) := by decide

/-- The operations of the filter: W, ADDR and DATA written out from R80 and the opcode column of R84. -/
theorem test_decode_filter :
    decode 0x030FFFFFFFF#41 = .ok .rdFltCutoff ∧
    decode 0x130D58C71E7#41 = .ok (.wrFltCutoff 0xD58C71E7#32) ∧
    decode 0x031FFFFFFFF#41 = .ok .rdFltRes ∧
    decode 0x131D7D2FCB5#41 = .ok (.wrFltRes 0xD7D2FCB5#32) ∧
    decode 0x032FFFFFFFF#41 = .ok .rdFltLfoRate ∧
    decode 0x132DA198783#41 = .ok (.wrFltLfoRate 0xDA198783#32) ∧
    decode 0x033FFFFFFFF#41 = .ok .rdFltLfoDepth ∧
    decode 0x133DC601251#41 = .ok (.wrFltLfoDepth 0xDC601251#32) ∧
    decode 0x134DD8357B8#41 = .ok (.wrFltLfoRst 0xDD8357B8#32) := by decide

/-- Not in the map (V64): reserved addresses, writes of read-only registers, reads of write-only ones. -/
theorem test_decode_refused :
    decode 0x00500000000#41 = .error .reservedAddress ∧ decode 0x0FF00000000#41 = .error .reservedAddress ∧
    decode 0x11600000001#41 = .error .reservedAddress ∧ decode 0x10000000000#41 = .error .writeOfReadOnly ∧
    decode 0x10E3F800000#41 = .error .writeOfReadOnly ∧ decode 0x00800000000#41 = .error .readOfWriteOnly ∧
    decode 0x03400000000#41 = .error .readOfWriteOnly := by decide

/-- A table word with a bit above bit 40 spells nothing (log 13). -/
theorem test_decode_table :
    decodeTableWord 48 0x1123F800000 = some (.wrDry 0x3F800000#32) ∧ decodeTableWord 48 0x200000000000 = none ∧
    decodeTableWord 48 0x00500000000 = none := by decide

/-! ### Arithmetic and the units, on the spec's vectors -/

/-- V1. -/
theorem test_divide : fdiv 0x40000000#32 0x472C4400#32 = 0x383E37C6#32 ∧
    fdiv 0x3DCCCCCD#32 (i2f 192000) = 0x350BCF65#32 := by decide +kernel

/-- V2: ties away from zero, and 0.49999997 to 0. -/
theorem test_round_half_away : f2i (roundHaz 0x40200000#32) = 3 ∧ f2i (roundHaz 0xC0D00000#32) = -7 ∧
    f2i (roundHaz 0x3EFFFFFF#32) = 0 := by decide +kernel

/-- V3: NaN to the low bound, infinities to the near one, a minus zero kept. -/
theorem test_clamp : clamp 0xFFC00000#32 0x00000000#32 0x3F800000#32 = 0x00000000#32 ∧
    clamp 0x7F800000#32 0x00000000#32 0x3F800000#32 = 0x3F800000#32 ∧
    clamp 0x80000000#32 0x00000000#32 0x3F800000#32 = 0x80000000#32 := by decide +kernel

/-- V5, the row of 50000 Hz. -/
theorem test_delay_lengths : (combLens fogpad 50000#24).toList = [1265, 1347, 1448, 1537, 1612, 1690, 1765, 1833] ∧
    (apLens fogpad 50000#24).toList = [630, 500, 387, 255] := by decide +kernel

/-- V9: an interpolated entry, a negative one, and the wrap to entry 0. -/
theorem test_sine_lookup : sinLookup fogpad 0x3DCCCCCD#32 = 0x3F167651#32 ∧
    sinLookup fogpad 0x3F210000#32 = 0xBF396842#32 ∧ sinLookup fogpad 0x3F7FBE77#32 = 0xBBCDDD34#32 := by decide +kernel

/-- V10: a plain step and a wrapping one. -/
theorem test_phase_step : lfoStep 44100#24 0x3F000000#32 0x40000000#32 = 0x3F0002F9#32 ∧
    lfoStep 44100#24 0x3F7FF972#32 0x41200000#32 = 0x3904E000#32 := by decide +kernel

/-- V15: the output, the damping store and the word written. -/
theorem test_comb_step :
    let r := combStep 10 0x3DCCCCCD#32 0x3F570A3D#32 0x3F000000#32 ⟨⟨[(9, 0x3E99999A#32)]⟩, 9, 0xBF333333#32⟩
    r.1 = 0x3E99999A#32 ∧ r.2 = ⟨⟨[(9, 0xBD8B4393#32)]⟩, 0, 0xBE4CCCCC#32⟩ := by decide +kernel

/-- V20. -/
theorem test_allpass_step :
    apStep fogpad 556 0xBF333333#32 ⟨⟨[(4, 0x3E99999A#32)]⟩, 4⟩ = (0x3F800000#32, ⟨⟨[(4, 0xBF0CCCCC#32)]⟩, 5⟩) := by
  decide +kernel

/-- V23 and V24: the least speed, an advance that wraps exactly, and one that rounds. -/
theorem test_read_position : playMultiplier fogpad 0x00000000#32 = 0x3A800000#32 ∧
    advanceReadPos fogpad 0x3F000000#32 0x457FF800#32 = 0x3F000000#32 ∧
    advanceReadPos fogpad 0x00000000#32 0x457FFFFF#32 = 0x3A800000#32 := by decide +kernel

/-- V25: between two words, and between the last word and the first. -/
theorem test_tap : tapRead fogpad 0x41240000#32 ⟨[(10, 0x3E99999A#32), (11, 0xBF333333#32)]⟩ = 0x3D4CCCD0#32 ∧
    tapRead fogpad 0x457FF800#32 ⟨[(0, 0x3E800000#32), (4095, 0x3F000000#32)]⟩ = 0x3EC00000#32 := by decide +kernel

/-- V33, V35, V36: the quantiser at 16, 2 and 1 bits. -/
theorem test_quantiser : quant fogpad 0x3E99999A#32 16 = 0x3E999933#32 ∧ quant fogpad 0x37800100#32 16 = 0x38000100#32 ∧
    quant fogpad 0xBEFAE148#32 2 = 0x80000000#32 ∧ quant fogpad 0x80000000#32 1 = 0x3F800000#32 ∧
    quant fogpad 0x8DA24260#32 1 = 0xBF800000#32 := by decide +kernel

/-- V32: depth 8 modulated. -/
theorem test_modulated_depth :
    let p := { paramsAtConfig with bcAmount := 0x3F000000#32 }
    modulatedDepth fogpad { p with bcLfoDepth := 0x3F000000#32 } 0x3F167651#32 = 10 ∧
    modulatedDepth fogpad { p with bcLfoDepth := 0x3F800000#32 } 0xBF800000#32 = 1 := by decide +kernel

/-- V41: HOLDFOR 1 captures, then holds; a running count runs out from its own value. -/
theorem test_decimator :
    let p := { paramsAtConfig with decBits := 0#32, decRate := 0x3C800000#32 }
    let r := decimate fogpad p 0x3F000000#32 Lane.cleared
    let q := decimate fogpad { p with decRate := 0x3D400000#32 } 0x3EA00000#32 r.2
    r.1 = 0x3F000000#32 ∧ r.2.dcnt = 1 ∧ q.1 = 0x3F000000#32 ∧ q.2.dcnt = 0 := by decide +kernel

/-- V47, the row 96000, 5000, 0.7071, 0.5, 0.125. -/
theorem test_filter_coefficients :
    filterCoef fogpad 96000#24 { paramsAtConfig with
        fltCutoff := 0x459C4000#32, fltRes := 0x3F350481#32, fltLfoDepth := 0x3F000000#32 } 0x3E000000#32 =
      ⟨0x3F2C1902#32, 0x3E45512E#32, 0x3D623B73#32⟩ := by decide +kernel

/-- V48, sample 0. -/
theorem test_filter_step :
    let r := filterStep ⟨0x3DC5406F#32, 0x3DAA5C76#32, 0x3D9322F4#32⟩ 0x3F800000#32 Lane.cleared
    r.1 = 0x3D9322F4#32 ∧ r.2.ic1 = 0x3E2A5C76#32 ∧ r.2.ic2 = 0x3E1322F4#32 := by decide +kernel

/-- V52, frames 0 and 7: an attack, and an envelope below the target. -/
theorem test_limiter : limiterGain fogpad 44100#24 0x40000000#32 0x3F800000#32 = (0x3F000000#32, 0x3F7D18F6#32) ∧
    limiterGain fogpad 44100#24 0x3F800001#32 0x3F6E6A89#32 = (0x3F6E6A89#32, 0x3F6E6A89#32) := by decide +kernel

/-! ### Single steps -/

/-- V58: reads after CONFIG 2, 44100. -/
theorem test_reads_system : answered stereoBlock 0x00000000000#41 = some (some 0x46475031#32) ∧
    answered stereoBlock 0x00100000000#41 = some (some 0x0000000B#32) ∧
    answered stereoBlock 0x00300000000#41 = some (some 0x0200AC44#32) ∧
    answered stereoBlock 0x00400000000#41 = some (some 0x00000002#32) ∧
    answered { stereoBlock with err := 0b1010#4 } 0x00200000000#41 = some (some 0x0000000A#32) := by decide +kernel

theorem test_reads_reverb : answered stereoBlock 0x01000000000#41 = some (some 0x3F000000#32) ∧
    answered stereoBlock 0x01100000000#41 = some (some 0x3F800000#32) ∧
    answered stereoBlock 0x01200000000#41 = some (some 0x3F000000#32) ∧
    answered stereoBlock 0x01300000000#41 = some (some 0x3F000000#32) ∧
    answered stereoBlock 0x01400000000#41 = some (some 0x00000000#32) ∧
    answered stereoBlock 0x01500000000#41 = some (some 0x3F000000#32) := by decide +kernel

theorem test_reads_effects : answered stereoBlock 0x02000000000#41 = some (some 0x00000000#32) ∧
    answered stereoBlock 0x02100000000#41 = some (some 0x3DCCCCCD#32) ∧
    answered stereoBlock 0x02200000000#41 = some (some 0x00000000#32) ∧
    answered stereoBlock 0x02300000000#41 = some (some 0x00000000#32) ∧
    answered stereoBlock 0x02800000000#41 = some (some 0x00000020#32) ∧
    answered stereoBlock 0x02900000000#41 = some (some 0x00000000#32) ∧
    answered stereoBlock 0x03000000000#41 = some (some 0x461C4000#32) ∧
    answered stereoBlock 0x03100000000#41 = some (some 0x3DCCCCCD#32) ∧
    answered stereoBlock 0x03200000000#41 = some (some 0x3DCCCCCD#32) ∧
    answered stereoBlock 0x03300000000#41 = some (some 0x00000000#32) ∧
    answered stereoBlock 0x00E00000000#41 = some (some 0x3F800000#32) := by decide +kernel

/-- The data registers read their own word (R250, R252, R260, R261). -/
theorem test_reads_data :
    let s := { stereoBlock with in0 := 1#32, in1 := 2#32, out0 := 3#32, out1 := 4#32 }
    answered s 0x00A00000000#41 = some (some 1#32) ∧ answered s 0x00B00000000#41 = some (some 2#32) ∧
    answered s 0x00C00000000#41 = some (some 3#32) ∧ answered s 0x00D00000000#41 = some (some 4#32) := by decide +kernel

/-- What a write leaves in the parameter registers. -/
def written (x : Xact) : Option Params := (perform stereoBlock x).map (·.params)

/-- V18, V19, V30. -/
theorem test_writes_reverb :
    written 0x11040200000#41 = some { paramsAtConfig with roomsize := 0x3F800000#32 } ∧
    written 0x1113F000000#41 = some { paramsAtConfig with width := 0x3F000000#32 } ∧
    written 0x1123F800000#41 = some { paramsAtConfig with dry := 0x3F800000#32 } ∧
    written 0x113C0400000#41 = some { paramsAtConfig with wet := 0x00000000#32 } ∧
    written 0x114FFFFFFFE#41 = some { paramsAtConfig with mode := 0#1 } ∧
    written 0x114000000FF#41 = some { paramsAtConfig with mode := 1#1 } ∧
    written 0x115BF000000#41 = some { paramsAtConfig with playrate := 0x00000000#32 } := by decide +kernel

/-- V38, V43, V39. -/
theorem test_writes_effects :
    written 0x1203F800000#41 = some { paramsAtConfig with bcAmount := 0x3F800000#32 } ∧
    written 0x12142C80000#41 = some { paramsAtConfig with bcLfoRate := 0x41200000#32 } ∧
    written 0x122BF800000#41 = some { paramsAtConfig with bcLfoDepth := 0x00000000#32 } ∧
    written 0x12300000003#41 = some { paramsAtConfig with bcPostmix := 1#1 } ∧
    written 0x12800000010#41 = some { paramsAtConfig with decBits := 0x00000010#32 } ∧
    written 0x12880000000#41 = some { paramsAtConfig with decBits := 0x00000020#32 } ∧
    written 0x1293F800001#41 = some { paramsAtConfig with decRate := 0x3F800000#32 } := by decide +kernel

/-- V45. -/
theorem test_writes_filter :
    written 0x13041A00000#41 = some { paramsAtConfig with fltCutoff := 0x41F00000#32 } ∧
    written 0x1313F350482#41 = some { paramsAtConfig with fltRes := 0x3F350481#32 } ∧
    written 0x1327FC00000#41 = some { paramsAtConfig with fltLfoRate := 0x3DCCCCCD#32 } ∧
    written 0x1333F800000#41 = some { paramsAtConfig with fltLfoDepth := 0x3F800000#32 } := by decide +kernel

/-- V12, V13: a restart zeroes its own phase and leaves the other. -/
theorem test_restarts :
    let s := { stereoBlock with bcph := 0x3E800000#32, flph := 0x3F400000#32 }
    (perform s 0x12400000000#41).map (fun t => (t.bcph, t.flph)) = some (0x00000000#32, 0x3F400000#32) ∧
    (perform s 0x13400000000#41).map (fun t => (t.bcph, t.flph)) = some (0x3E800000#32, 0x00000000#32) := by decide +kernel

/-- P3, lines 9 to 12: WR.ERR clears what it writes as one; an IDLE write is refused with E_SEQ. -/
theorem test_errors : (perform { State.reset with err := 0b0011#4 } 0x10200000001#41).map (·.err) = some 0b0010#4 ∧
    (perform State.reset 0x1103F000000#41).map (fun t => (t.err, t.params)) = some (0b0010#4, Params.unset) := by
  decide +kernel

/-- V59: NCH 3 is rejected; bits 31:26 are ignored. -/
theorem test_config : (perform State.reset 0x1030300BB80#41).map (fun t => (t.life, t.err)) = some (.idle, 0b0100#4) ∧
    (perform State.reset 0x103FD00BB80#41).map (fun t => (t.life, t.fs, t.nch)) = some (.active, 48000#24, 1#2) := by
  decide +kernel

/-- V62: channel counts saturate; a BLOCK over an open block notes E_SEQ. -/
theorem test_block : (perform stereoBlock 0x10800F50001#41).map (fun t => (t.numin, t.numout, t.rem, t.err)) =
    some (2#2, 2#2, 1#16, 0b0010#4) := by decide +kernel

/-- WR.IN0 and WR.IN1 store the raw word (R249, R251). -/
theorem test_inputs : (perform stereoBlock 0x10A7FC00001#41).map (fun t => (t.in0, t.in1)) = some (0x7FC00001#32, 0#32) ∧
    (perform stereoBlock 0x10B80000000#41).map (fun t => (t.in0, t.in1)) = some (0#32, 0x80000000#32) := by decide +kernel

/-- P1, frame 0, with V4's minus zero on the second input: the dry path, and the frame counted. -/
theorem test_frame_dry :
    (perform { dryOnly stereoBlock with in0 := 0x3F800000#32, in1 := 0x80000000#32 } 0x10900000000#41).map
      (fun t => (t.out0, t.out1, t.rem, t.env, t.err)) =
    some (0x3F800000#32, 0x00000000#32, 1#16, 0x3F800000#32, 0#4) := by decide +kernel

/-- V61: a NaN on a used input becomes +0.0 and notes E_NONFIN. -/
theorem test_frame_nan :
    (perform { dryOnly stereoBlock with in0 := 0x3E800000#32, in1 := 0x7FC00001#32 } 0x10900000000#41).map
      (fun t => (t.out0, t.out1, t.err, t.in1)) =
    some (0x3E800000#32, 0x00000000#32, 0b1000#4, 0x7FC00001#32) := by decide +kernel

/-- A presented word is the next transaction performed. -/
theorem test_fetch : (after (State.reset.withFetchWord 48 0x00000000000)).map (·.resp) = some (some 0x46475031#32) ∧
    (State.reset.withFetchWord 48 0x200000000000) = State.reset := by decide +kernel

/-! ### For every statement with hypotheses, a state and operands that meet them -/

theorem step_of_after {s : State} (h : (after s).isSome = true) : ∃ t, step s = .next t := by
  unfold after at h
  split at h
  · exact ⟨_, by assumption⟩
  · simp at h

/-- The invariant speaks of neither the inputs, nor the flags, nor the port. -/
theorem inv_with {s : State} (h : s.Inv) (ha : s.life = .active) (a b : Word) (e : BitVec 4) (p : List PortEvent) :
    ({ s with in0 := a, in1 := b, err := e, port := p } : State).Inv :=
  ⟨⟨h.memories.lane0, h.memories.lane1⟩, h.numin, h.numout, (fun hi => by rw [show s.life = .idle from hi] at ha; cases ha),
    fun _ => ActiveInv_of_fields (h.active ha) rfl rfl (h.active ha).params (h.active ha).lane0 (h.active ha).lane1
      (h.active ha).tw (h.active ha).trp (h.active ha).bcph (h.active ha).flph (h.active ha).env⟩

/-- The constructed block with a block open meets the invariant. -/
theorem test_stereo_inv : stereoBlock.Inv :=
  ⟨⟨memoriesWf_cleared, memoriesWf_cleared⟩, by decide, by decide, (fun h => nomatch h), fun _ =>
    ⟨by decide, by decide, .inr rfl, paramsAtConfig_legal, bounded_cleared (by decide), bounded_cleared (by decide),
      by decide, by decide +kernel, by decide +kernel, by decide +kernel, by decide +kernel⟩⟩

theorem test_mono_inv : monoBlock.Inv :=
  ⟨⟨memoriesWf_cleared, memoriesWf_cleared⟩, by decide, by decide, (fun h => nomatch h), fun _ =>
    ⟨by decide, by decide, .inl rfl, paramsAtConfig_legal, bounded_cleared (by decide), bounded_cleared (by decide),
      by decide, by decide +kernel, by decide +kernel, by decide +kernel, by decide +kernel⟩⟩

/-- A FRAME of it is admitted. -/
theorem test_stereo_admitted : Admitted stereoBlock := ⟨rfl, by decide, .inr rfl, by decide +kernel⟩

theorem test_mono_admitted : Admitted monoBlock := ⟨rfl, by decide, .inl rfl, by decide +kernel⟩

/-- Both kinds of lane exist: one, and two. -/
theorem test_lanes_in_use : stereoBlock.nch = 2#2 ∧ LaneInUse stereoBlock stereoBlock 1 stereoBlock.lane1 stereoBlock.lane1 ∧
    monoBlock.nch = 1#2 ∧ LaneInUse monoBlock monoBlock 0 monoBlock.lane0 monoBlock.lane0 :=
  ⟨rfl, .inr ⟨rfl, rfl, rfl, rfl⟩, rfl, .inl ⟨rfl, rfl, rfl⟩⟩

/-- `EncodeOfDecodeIsTheTransaction`: a write, and two reads that differ in DATA alone. -/
theorem test_meets_encode_of_decode : decode 0x1123F800000#41 = .ok (.wrDry 0x3F800000#32) ∧
    xactWrite 0x1123F800000#41 = true ∧ xactWrite 0x00C00000000#41 = false ∧
    xactOpcode 0x00C00000000#41 = xactOpcode 0x00CFFFFFFFF#41 := by decide

/-- `EAddrExactlyOutsideTheOpcodeMap`: the edges of the map (0x04, 0x05, 0x34, 0x35, 0xFF), a write of a read-only register,
a read of a write-only one. -/
theorem test_meets_e_addr (x : Xact) : (offer stereoBlock [x]).port = .xact x :: [] := rfl

theorem test_meets_e_addr_edges :
    (perform stereoBlock 0x00500000000#41).map (fun t => (t.err, t.resp)) = some (0b0001#4, some 0#32) ∧
    (perform stereoBlock 0x13500000000#41).map (fun t => (t.err, t.resp)) = some (0b0001#4, none) ∧
    (perform stereoBlock 0x1FF00000000#41).map (fun t => (t.err, t.resp)) = some (0b0001#4, none) ∧
    (perform stereoBlock 0x10E00000000#41).map (fun t => (t.err, t.resp)) = some (0b0001#4, none) ∧
    (perform State.reset 0x03400000000#41).map (fun t => (t.err, t.resp)) = some (0b0001#4, some 0#32) ∧
    decode 0x00400000000#41 = .ok .rdRem ∧ decode 0x13400000000#41 = .ok (.wrFltLfoRst 0#32) := by decide +kernel

/-- `EAddrExactlyOutsideTheOpcodeMap`, inside the map: a read leaves a standing E_ADDR, WR.ERR leaves or clears it. -/
theorem test_meets_e_addr_inside :
    let s := { stereoBlock with err := 0b0011#4 }
    (perform s 0x00400000000#41).map (·.err) = some 0b0011#4 ∧
    (perform s 0x10200000002#41).map (·.err) = some 0b0001#4 ∧
    (perform s 0x10200000001#41).map (·.err) = some 0b0010#4 := by decide +kernel

/-- `StepRunsTheDecodedInstruction`. -/
theorem test_meets_step_runs : (offer stereoBlock [0x10900000000#41]).port = .xact 0x10900000000#41 :: [] ∧
    decode 0x10900000000#41 = .ok (.wrFrame 0#32) := by decide

/-- `EventsAreTakenInOrder`: a step on two presented transactions, and a state with nothing presented. -/
theorem test_meets_events : (∃ t, step (offer stereoBlock [0x10900000000#41, 0x00C00000000#41]) = .next t) ∧
    (offer stereoBlock []).port = [] := ⟨step_of_after (by decide +kernel), rfl⟩

/-- `HardwareResetLeavesTheSpecsValues`: a reset pulse with a transaction behind it; the state it leaves. -/
theorem test_meets_hardware_reset :
    ({ stereoBlock with port := [.hardwareReset, .xact 0#41] } : State).port = .hardwareReset :: [.xact 0#41] ∧
    (after { stereoBlock with port := [.hardwareReset, .xact 0#41] }).map (fun t => (t.life, t.rem, t.port)) =
      some (.idle, 0#16, [.xact 0#41]) ∧
    State.reset = { State.reset with port := State.reset.port } := by decide +kernel

/-- `EveryStepKeepsTheInvariant` and `RunsNeverStopUnderTheInvariant`: a FRAME step of two lanes. -/
theorem test_meets_invariant_step : (offer stereoBlock [0x10900000000#41]).Inv ∧
    ∃ t, step (offer stereoBlock [0x10900000000#41]) = .next t :=
  ⟨inv_with test_stereo_inv rfl _ _ _ _, step_of_after (by decide +kernel)⟩

/-- `MemoriesKeepTheirCanonicalForm`. -/
theorem test_meets_canonical_form : (offer monoBlock [0x10900000000#41]).MemoriesWf ∧
    ∃ t, step (offer monoBlock [0x10900000000#41]) = .next t :=
  ⟨⟨memoriesWf_cleared, memoriesWf_cleared⟩, step_of_after (by decide +kernel)⟩

/-- `Accepted` at its edges: 44100 and 192000 hertz, one lane and two; and just outside each. -/
theorem test_accepted : Accepted 0x0100AC44#32 ∧ Accepted 0x0202EE00#32 ∧ ¬Accepted 0x0100AC43#32 ∧
    ¬Accepted 0x0102EE01#32 ∧ ¬Accepted 0x0000AC44#32 ∧ ¬Accepted 0x0300AC44#32 := by
  unfold Accepted; decide

/-- `OnlyConfigAndResetChangeTheLifecycle`: a step for each of its clauses. -/
theorem test_meets_lifecycle :
    (after (offer stereoBlock [])).map (·.life) = some .active ∧
    (after { stereoBlock with port := [.hardwareReset] }).map (·.life) = some .idle ∧
    (perform State.reset 0x1030100AC44#41).map (·.life) = some .active ∧
    (perform stereoBlock 0x1030102EE01#41).map (·.life) = some .idle ∧
    (perform stereoBlock 0x10900000000#41).map (·.life) = some .active ∧
    decode 0x1030102EE01#41 = .ok (.wrConfig 0x0102EE01#32) := by decide +kernel

/-- `ErrorFlagsAreSticky`: flag 3 goes by WR.ERR, and by hardware reset. -/
theorem test_meets_sticky :
    (offer { stereoBlock with err := 0b1000#4 } [0x10200000008#41]).err.getLsbD 3 = true ∧
    (perform { stereoBlock with err := 0b1000#4 } 0x10200000008#41).map (fun t => t.err.getLsbD 3) = some false ∧
    (after { stereoBlock with err := 0b1000#4, port := [.hardwareReset] }).map (fun t => t.err.getLsbD 3) = some false := by
  decide +kernel

/-- `OneTransactionSetsAtMostOneFlag`: a FRAME that sets E_NONFIN. -/
theorem test_meets_one_flag :
    (perform { stereoBlock with in0 := 0x7F800000#32 } 0x10900000000#41).map (·.err) = some 0b1000#4 ∧
    ∀ w, decode 0x10900000000#41 ≠ .ok (.wrErr w) :=
  ⟨by decide +kernel, fun w h => by rw [show decode 0x10900000000#41 = .ok (.wrFrame 0#32) by decide] at h; cases h⟩

/-- `ErrorFlagsInfluenceNothing`. -/
theorem test_meets_flags_influence_nothing (x : Xact) (rest : List PortEvent)
    (h : (offer stereoBlock [0x10900000000#41]).port = .xact x :: rest) : decode x ≠ .ok .rdErr := by
  injection (List.cons.inj h).1 with hx
  subst hx
  decide

/-- `ReadsHaveNoSideEffect`: reads, in IDLE and ACTIVE, below and from 0x08. -/
theorem test_meets_reads : Instr.rdRem.line.write = false ∧ Instr.rdIn0.line.write = false ∧
    State.reset.life = .idle ∧ stereoBlock.life = .active ∧ ¬8 ≤ Instr.rdRem.line.addr ∧ 8 ≤ Instr.rdIn0.line.addr := by
  decide

/-- `OnlyCommandsTouchTheSignalState`: a BLOCK, a restart of each phase and a parameter write answer a next state. -/
theorem test_meets_only_commands : (∃ t, exec (.wrBlock 0x00220400#32) stereoBlock = .next t) ∧
    (∃ t, exec (.wrBcLfoRst 0#32) stereoBlock = .next t) ∧ (∃ t, exec (.wrFltLfoRst 0#32) stereoBlock = .next t) ∧
    ∃ t, exec (.wrWet 0x3F800000#32) stereoBlock = .next t := ⟨⟨_, rfl⟩, ⟨_, rfl⟩, ⟨_, rfl⟩, ⟨_, rfl⟩⟩

/-- `ConfigIsAFunctionOfItsWord`: two quite different states take the same CONFIG. -/
theorem test_meets_config_function : Accepted 0x0200AC44#32 ∧
    (∃ t, exec (.wrConfig 0x0200AC44#32) State.reset = .next t) ∧
    ∃ t, exec (.wrConfig 0x0200AC44#32) { monoBlock with err := 0b0001#4 } = .next t :=
  ⟨by unfold Accepted; decide, ⟨_, rfl⟩, ⟨_, rfl⟩⟩

/-- `OutOfSequenceTransactions`: (a) address 0x08 in IDLE; (b) and (c) at REM 0 and REM 1. -/
theorem test_meets_out_of_sequence : State.reset.life = .idle ∧ (Instr.wrBlock 0x00110001#32).line.addr = 0x08 ∧
    8 ≤ Instr.rdGr.line.addr ∧ ({ stereoBlock with rem := 0#16 } : State).life = .active ∧
    ({ stereoBlock with rem := 1#16 } : State).rem ≠ 0#16 := by decide

/-- `ReadsActive` and `WritesActive`, `SystemReadsAnswer`: an ACTIVE state and an IDLE one. -/
theorem test_meets_lives : stereoBlock.life = .active ∧ State.reset.life = .idle := ⟨rfl, rfl⟩

/-- `ClampStoresTheNearestBound`: bounds 30 and 20000; a NaN, a word below, one above, and each bound. -/
theorem test_meets_clamp :
    let lo : Word := 0x41F00000#32
    let hi : Word := 0x469C4000#32
    isNaN lo = false ∧ isNaN hi = false ∧ value lo ≤ value hi ∧ isNaN 0x7FC00000#32 = true ∧
    value 0x41EFFFFF#32 < value lo ∧ value hi < value 0x469C4001#32 ∧ value lo ≤ value lo ∧ value hi ≤ value hi ∧
    (30 : Int) ≤ 20000 := by decide +kernel

/-- `FrameIsPerformedUnderTheInvariant`: the last frame of a block, and one before it. -/
theorem test_meets_frame_performed : stereoBlock.Inv ∧ stereoBlock.life = .active ∧ stereoBlock.rem ≠ 0#16 ∧
    ({ stereoBlock with rem := 1#16 } : State).Inv ∧ ({ stereoBlock with rem := 1#16 } : State).rem ≠ 0#16 :=
  ⟨test_stereo_inv, rfl, by decide,
    ⟨⟨memoriesWf_cleared, memoriesWf_cleared⟩, by decide, by decide, (fun h => nomatch h), fun _ =>
      ActiveInv_of_fields (test_stereo_inv.active rfl) rfl rfl (test_stereo_inv.active rfl).params
        (test_stereo_inv.active rfl).lane0 (test_stereo_inv.active rfl).lane1 (test_stereo_inv.active rfl).tw
        (test_stereo_inv.active rfl).trp (test_stereo_inv.active rfl).bcph (test_stereo_inv.active rfl).flph
        (test_stereo_inv.active rfl).env⟩, by decide⟩

/-- `FrameInputIsMappedAndSanitised`: an admitted frame whose lane 1 alone takes an infinity, and one that takes none. -/
theorem test_meets_frame_input : Admitted { stereoBlock with in1 := 0xFF800000#32 } ∧
    ¬NonFinite (selectedWord { stereoBlock with in1 := 0xFF800000#32 } 0) ∧
    NonFinite (selectedWord { stereoBlock with in1 := 0xFF800000#32 } 1) ∧
    ¬NonFinite (selectedWord stereoBlock 0) ∧ ¬NonFinite (selectedWord stereoBlock 1) ∧
    ¬NonFinite (selectedWord { stereoBlock with in0 := 0x7F7FFFFF#32 } 0) :=
  ⟨⟨rfl, by decide, .inr rfl, by decide +kernel⟩, by unfold NonFinite; decide, by unfold NonFinite; decide,
    by unfold NonFinite; decide, by unfold NonFinite; decide, by unfold NonFinite; decide⟩

/-- The statements about the whole path of a FRAME: admitted frames with one lane and with two, memories in form. -/
theorem test_meets_frame : Admitted stereoBlock ∧ stereoBlock.nch = 2#2 ∧ Admitted monoBlock ∧ monoBlock.nch = 1#2 ∧
    stereoBlock.MemoriesWf ∧ monoBlock.MemoriesWf :=
  ⟨test_stereo_admitted, rfl, test_mono_admitted, rfl, test_stereo_inv.memories, test_mono_inv.memories⟩

/-- A frozen block whose comb 0 holds a -0.0 at its index. -/
def frozenBlock : State :=
  { withParams monoBlock (fun p => { p with mode := 1#1 }) with
    lane0 := { Lane.cleared with combs := Lane.cleared.combs.set 0 ⟨⟨[(3, 0x80000000#32)]⟩, 3, 0x3E800000#32⟩ } }

/-- `FrozenCombsRepeatTheirContents`, `FrozenTankIgnoresTheInput`: comb 0 holds a -0.0 and comb 1 a +0.0 at its index. -/
theorem test_meets_frozen : Admitted frozenBlock ∧ frozenBlock.MemoriesWf ∧ frozenBlock.params.mode = 1#1 ∧
    isFinite (frozenBlock.lane0.combs[0].mem.read frozenBlock.lane0.combs[0].idx) = true ∧
    frozenBlock.lane0.combs[0].mem.read frozenBlock.lane0.combs[0].idx = 0x80000000#32 ∧
    isFinite frozenBlock.lane0.combs[0].store = true ∧
    isFinite (frozenBlock.lane0.combs[1].mem.read frozenBlock.lane0.combs[1].idx) = true ∧
    isFinite frozenBlock.lane0.combs[1].store = true := by
  refine ⟨⟨rfl, by decide, .inl rfl, by decide +kernel⟩, ⟨⟨?_, memoriesWf_cleared.aps, wf_cleared⟩, memoriesWf_cleared⟩, rfl, by decide +kernel,
    by decide +kernel, by decide +kernel, by decide +kernel, by decide +kernel⟩
  intro k
  fin_cases k
  · exact (by decide : (⟨[(3, 0x80000000#32)]⟩ : Memory).wf)
  all_goals exact wf_cleared

/-- `OneLaneIgnoresTheOther`. -/
theorem test_meets_one_lane : Admitted monoBlock ∧ monoBlock.nch = 1#2 := ⟨test_mono_admitted, rfl⟩

/-- `LanesHoldTheSameCount`: a FRAME of two lanes whose counters are both 5. -/
theorem test_meets_same_count :
    let l : Lane := { Lane.cleared with dcnt := 5 }
    let s : State := offer { withParams stereoBlock (fun p => { p with decRate := 0x3F800000#32 }) with
      lane0 := l, lane1 := l } [0x10900000000#41]
    s.life = .active ∧ s.nch = 2#2 ∧ s.lane0.dcnt = s.lane1.dcnt ∧
    (after s).map (fun t => (t.life, t.nch, t.lane0.dcnt, t.lane1.dcnt)) = some (.active, 2#2, 4, 4) := by decide +kernel

/-- `OpenBlockDrainsInItsNumberOfFrames`: two frames to go; and none. -/
theorem test_meets_drains :
    let s := offer stereoBlock [encode (.wrFrame 0#32), encode (.wrFrame 0#32), encode .rdOut0]
    s.Inv ∧ s.life = .active ∧ s.rem.toNat = 2 ∧
    s.port = List.replicate 2 (.xact (encode (.wrFrame 0#32))) ++ [.xact (encode .rdOut0)] ∧
    ({ stereoBlock with rem := 0#16 } : State).rem.toNat = 0 :=
  ⟨inv_with test_stereo_inv rfl _ _ _ _, rfl, rfl, rfl, rfl⟩

/-- `DelayLengthsAreWithinTheBuiltCapacity`, `LimiterAttacksHoldsAndReleases`: the lowest and the highest rate. -/
theorem test_meets_rates : 44100 ≤ (44100#24).toNat ∧ (44100#24).toNat ≤ 192000 ∧ 44100 ≤ (192000#24).toNat ∧
    (192000#24).toNat ≤ 192000 := by decide

/-- Controls at their ends: `FeedbackStaysInTheStableRange`, `WidthGainsAreOrdered`, `BitDepthStaysInRange`; and a rate
just below 1/128: `DecimatorBypassCaptureHold`. -/
theorem test_meets_controls : inUnit 0x00000000#32 ∧ inUnit 0x80000000#32 ∧ inUnit 0x3F800000#32 ∧ inUnit 0x3BFFFFFF#32 ∧
    value 0x3BFFFFFF#32 < value 0x3C000000#32 ∧ value 0x80000000#32 = 0 ∧ isFinite 0xFF7FFFFF#32 = true := by decide +kernel

/-- `AllpassChainInSeries`: a zero, a word that is not zero, and an infinity. -/
theorem test_meets_allpass : isNaN 0x80000000#32 = false ∧ isNaN 0x00000001#32 = false ∧ value 0x00000001#32 ≠ 0 ∧
    isNaN 0xFF800000#32 = false := by decide +kernel

/-- `OscillatorValueIsBounded`: the first and the last phase; a step that stays below 1 and one that wraps (V10). -/
theorem test_meets_phase : belowFrom0 0x3F800000#32 0x00000000#32 ∧ belowFrom0 0x3F800000#32 0x3F7FFFFF#32 ∧
    fge (fadd 0x3F000000#32 (fdiv 0x40000000#32 (i2f 44100))) 0x3F800000#32 = false ∧
    fge (fadd 0x3F7FF972#32 (fdiv 0x41200000#32 (i2f 44100))) 0x3F800000#32 = true := by decide +kernel

/-- `QuantiserCases`, `ScaleRomHoldsItsFormula`: their words and depths at the edges. -/
theorem test_meets_quantiser : isNaN 0x80000000#32 = false ∧ 0 ≤ value 0x80000000#32 ∧ isNaN 0x80000001#32 = false ∧
    value 0x80000001#32 < 0 ∧ isNaN 0x7FC00000#32 = true ∧ 2 ≤ 32 ∧ 1 ≤ 1 := by decide +kernel

/-- `DecimatorBypassCaptureHold`: a rate that bypasses, one that does not, a lane that captures and one that holds. -/
theorem test_meets_decimator : holdFor fogpad 0x00000000#32 = 0 ∧ holdFor fogpad 0x3C000000#32 ≠ 0 ∧ Lane.cleared.dcnt = 0 ∧
    ({ Lane.cleared with dcnt := 1 } : Lane).dcnt ≠ 0 := by decide +kernel

/-- `UnitSpeedTapIsTheIdentity`: at the first tail word and at the last. -/
theorem test_meets_unit_speed : Admitted stereoBlock ∧ stereoBlock.params.playrate = 0x3F000000#32 ∧
    stereoBlock.trp = i2f stereoBlock.tw ∧ Admitted { stereoBlock with tw := 4095, trp := 0x457FF000#32 } ∧
    (0x457FF000#32 : Word) = i2f 4095 ∧ stereoBlock.lane0.tail.wf :=
  ⟨test_stereo_admitted, rfl, by decide +kernel, ⟨rfl, by decide, .inr rfl, by decide +kernel⟩, by decide +kernel, wf_cleared⟩

/-- `UnitSpeedTapIsTheIdentity`: a read position that wraps and one that does not; one with a fraction and one without. -/
theorem test_meets_tap :
    fge (fadd 0x457FF800#32 (playMultiplier fogpad 0x3F000000#32)) 0x45800000#32 = true ∧
    fge (fadd 0x41240000#32 (playMultiplier fogpad 0x00000000#32)) 0x45800000#32 = false ∧
    feq (fsub 0x41240000#32 (ffloor 0x41240000#32)) 0x00000000#32 = false ∧
    feq (fsub 0x41200000#32 (ffloor 0x41200000#32)) 0x00000000#32 = true := by decide +kernel

/-- `DryOnlyMixIsTheInput`, `FilterRecurrence`: finite words, the largest among them. -/
theorem test_meets_mix : (dryOnly stereoBlock).params.dry = 0x3F800000#32 ∧ (dryOnly stereoBlock).params.wet = 0x00000000#32 ∧
    isFinite 0x7F7FFFFF#32 = true ∧ isFinite 0x00000001#32 = true ∧ value 0x00000001#32 ≠ 0 ∧
    isFinite 0x3DC5406F#32 = true := by decide +kernel

/-- `OutputsNeverExceedTheThreshold`: DRY 1.0, WET 0.0 and inputs of 2^126 and -2.0. -/
theorem test_meets_ceiling :
    let s := { dryOnly stereoBlock with in0 := 0x7E800000#32, in1 := 0xC0000000#32 }
    s.Inv ∧ s.life = .active ∧ s.rem ≠ 0#16 ∧
    isNaN (mix0 s (wet0 fogpad s).1 (wet1 fogpad s).1) = false ∧
    mag (mix0 s (wet0 fogpad s).1 (wet1 fogpad s).1) = mag 0x7E800000#32 ∧ s.nch = 2#2 ∧
    isNaN (mix1 s (wet0 fogpad s).1 (wet1 fogpad s).1) = false ∧
    mag (mix1 s (wet0 fogpad s).1 (wet1 fogpad s).1) ≤ mag 0x7E800000#32 := by
  refine ⟨inv_with (s := dryOnly stereoBlock) ⟨⟨memoriesWf_cleared, memoriesWf_cleared⟩, by decide, by decide, (fun h => nomatch h),
    fun _ => ActiveInv_of_fields (test_stereo_inv.active rfl) rfl rfl ?_ (test_stereo_inv.active rfl).lane0
      (test_stereo_inv.active rfl).lane1 (test_stereo_inv.active rfl).tw (test_stereo_inv.active rfl).trp
      (test_stereo_inv.active rfl).bcph (test_stereo_inv.active rfl).flph (test_stereo_inv.active rfl).env⟩ rfl _ _ _ _,
    rfl, by decide, by decide +kernel, by decide +kernel, rfl, by decide +kernel, by decide +kernel⟩
  constructor <;> decide +kernel

/-- `QuietFramesPassTheLimiterUnchanged`: the constructed block with an input of 1.0. -/
theorem test_meets_quiet :
    let s := { stereoBlock with in0 := 0x3F800000#32 }
    s.Inv ∧ s.life = .active ∧ s.rem ≠ 0#16 ∧ s.env = 0x3F800000#32 ∧ s.numout ≠ 0#2 ∧
    isNaN (mix0 s (wet0 fogpad s).1 (wet1 fogpad s).1) = false ∧
    mag (mix0 s (wet0 fogpad s).1 (wet1 fogpad s).1) ≤ mag 0x3F800000#32 ∧ s.nch = 2#2 ∧
    isNaN (mix1 s (wet0 fogpad s).1 (wet1 fogpad s).1) = false ∧
    mag (mix1 s (wet0 fogpad s).1 (wet1 fogpad s).1) ≤ mag 0x3F800000#32 :=
  ⟨inv_with test_stereo_inv rfl _ _ _ _, rfl, by decide, rfl, by decide, by decide +kernel, by decide +kernel, rfl,
    by decide +kernel, by decide +kernel⟩

/-- `QuietFramesPassTheLimiterUnchanged`: one lane and an input of 1.0, at every NUMOUT. -/
theorem test_meets_quiet_mono (n : BitVec 2) (hn : n.toNat ≤ 2) :
    let s := { monoBlock with in0 := 0x3F800000#32, numout := n }
    s.Inv ∧ s.life = .active ∧ s.rem ≠ 0#16 ∧ s.env = 0x3F800000#32 ∧ s.nch = 1#2 ∧
    isNaN (mix0 s (wet0 fogpad s).1 (wet1 fogpad s).1) = false ∧
    mag (mix0 s (wet0 fogpad s).1 (wet1 fogpad s).1) ≤ mag 0x3F800000#32 :=
  have h := test_mono_inv.active rfl
  ⟨⟨⟨memoriesWf_cleared, memoriesWf_cleared⟩, test_mono_inv.numin, hn, (fun hi => nomatch hi), fun _ =>
      ActiveInv_of_fields h rfl rfl h.params h.lane0 h.lane1 h.tw h.trp h.bcph h.flph h.env⟩,
    rfl, (by decide : monoBlock.rem ≠ 0#16), rfl, rfl, by revert n; decide +kernel, by revert n; decide +kernel⟩

/-- `LimiterAttacksHoldsAndReleases`: an attack, an envelope held (V52, frame 7), and releases at a peak of 0.5 and a NaN. -/
theorem test_meets_limiter :
    fgt 0x40000000#32 0x3F800000#32 = true ∧ flt (fdiv 0x3F800000#32 0x40000000#32) 0x3F800000#32 = true ∧
    fgt 0x3F800001#32 0x3F800000#32 = true ∧ flt (fdiv 0x3F800000#32 0x3F800001#32) 0x3F6E6A89#32 = false ∧
    fgt 0x3F000000#32 0x3F800000#32 = false ∧ fgt 0x7FC00000#32 0x3F800000#32 = false ∧
    inUnit 0x3F6E6A89#32 ∧ inUnit 0x3F800000#32 := by decide +kernel

/-- `WetPathComposesItsStages`: both settings of BC_POSTMIX, and that they differ on a sample of 1.0 at 1 bit. -/
theorem test_meets_wet_path : stereoBlock.params.bcPostmix = 0#1 ∧
    (withParams stereoBlock fun p => { p with bcPostmix := 1#1 }).params.bcPostmix = 1#1 ∧
    (wetChain fogpad paramsAtConfig stereoBlock.coef 1 0x3F800000#32 Lane.cleared).1 = 0x3D9322F4#32 ∧
    (wetChain fogpad { paramsAtConfig with bcPostmix := 1#1 } stereoBlock.coef 1 0x3F800000#32 Lane.cleared).1 =
      0x3F800000#32 := by decide +kernel

end Sys2Proof.Tests
end

section
/-! The scope family of spec/00_scope.md: clamps (R11), delay lengths (R13, R66) and the comb feedback (R6, R123). First the
laws of the operations, then the statements they settle. -/

open Sys2Proof Sys2Proof.Machine

namespace Sys2Proof.Proofs

/-! ### Comparisons and clamps (R10, R11) -/

theorem fle_iff {a b : Word} : fle a b = true ↔ isNaN a = false ∧ isNaN b = false ∧ value a ≤ value b := by
  simp [fle, and_assoc]

theorem fle_eq_false_of_nan_right {a b : Word} (h : isNaN b = true) : fle a b = false := by
  simp [fle, h]

theorem fle_eq_false_of_lt {a b : Word} (h : value b < value a) : fle a b = false := by
  simp [fle, h]

/-- The lower bound is stored exactly where the comparison with it fails, which a NaN does too. -/
theorem clamp_of_not_fle_lo {v lo hi : Word} (h : fle lo v = false) : clamp v lo hi = lo := by
  simp [clamp, fge, h]

theorem clamp_of_above {v lo hi : Word} (hlo : fle lo v = true) (hhi : fle v hi = false) : clamp v lo hi = hi := by
  simp [clamp, fge, hlo, hhi]

theorem clampi_eq_max_min {n lo hi : Int} (h : lo ≤ hi) : clampi n lo hi = max lo (min n hi) := by
  unfold clampi
  split
  · split <;> omega
  · omega

/-! ### Delay lengths (R13) -/

theorem combLens_get (cfg : Config) (fs : BitVec 24) (k : Fin 8) :
    (combLens cfg fs)[k] = dlen cfg cfg.combTuning[k] fs := mapPlaces_get _ _ _ k.isLt

theorem apLens_get (cfg : Config) (fs : BitVec 24) (j : Fin 4) :
    (apLens cfg fs)[j] = dlen cfg cfg.apTuning[j] fs := mapPlaces_get _ _ _ j.isLt

theorem combLens_toList (cfg : Config) (fs : BitVec 24) :
    (combLens cfg fs).toList = cfg.combTuning.toList.map (dlen cfg · fs) := rfl

theorem apLens_toList (cfg : Config) (fs : BitVec 24) :
    (apLens cfg fs).toList = cfg.apTuning.toList.map (dlen cfg · fs) := rfl

theorem dlen_fogpad (t : Nat) (fs : BitVec 24) : dlen fogpad t fs = (2 * t * fs.toNat + 44100) / 88200 := rfl

/-- A delay grows with the sample rate. -/
theorem dlen_mono (cfg : Config) (t : Nat) {fs fs' : BitVec 24} (h : fs.toNat ≤ fs'.toNat) :
    dlen cfg t fs ≤ dlen cfg t fs' :=
  Nat.div_le_div_right (Nat.add_le_add_right (Nat.mul_le_mul_left _ h) _)

/-- At REF_RATE a delay is its tuning constant. -/
theorem dlen_refRate (t : Nat) : dlen fogpad t 44100#24 = t := by
  rw [dlen_fogpad, show (44100#24).toNat = 44100 from rfl]
  omega

theorem tuning_le_dlen (t : Nat) {fs : BitVec 24} (h : 44100 ≤ fs.toNat) : t ≤ dlen fogpad t fs :=
  calc t = dlen fogpad t 44100#24 := (dlen_refRate t).symm
    _ ≤ dlen fogpad t fs := dlen_mono fogpad t h

theorem combTuning_ge_225 : ∀ k : Fin 8, 225 ≤ fogpad.combTuning[k] := by decide

theorem apTuning_ge_225 : ∀ j : Fin 4, 225 ≤ fogpad.apTuning[j] := by decide

/-- The built capacity of a comb memory is its length at FS_MAX (R66). -/
theorem combLens_fsMax : ∀ k : Fin 8,
    (combLens fogpad 192000#24)[k] = #v[4859, 5172, 5560, 5904, 6191, 6491, 6779, 7040][k] := by decide +kernel

/-- The built capacity of an allpass memory is its length at FS_MAX (R66). -/
theorem apLens_fsMax : ∀ j : Fin 4, (apLens fogpad 192000#24)[j] = #v[2421, 1920, 1485, 980][j] := by decide +kernel

theorem combLens_bounds {fs : BitVec 24} (hlo : 44100 ≤ fs.toNat) (hhi : fs.toNat ≤ 192000) (k : Fin 8) :
    225 ≤ (combLens fogpad fs)[k] ∧ (combLens fogpad fs)[k] ≤ (combLens fogpad 192000#24)[k] := by
  simp only [combLens_get]
  exact ⟨(combTuning_ge_225 k).trans (tuning_le_dlen _ hlo), dlen_mono _ _ hhi⟩

theorem apLens_bounds {fs : BitVec 24} (hlo : 44100 ≤ fs.toNat) (hhi : fs.toNat ≤ 192000) (j : Fin 4) :
    225 ≤ (apLens fogpad fs)[j] ∧ (apLens fogpad fs)[j] ≤ (apLens fogpad 192000#24)[j] := by
  simp only [apLens_get]
  exact ⟨(apTuning_ge_225 j).trans (tuning_le_dlen _ hlo), dlen_mono _ _ hhi⟩

/-! ### The comb feedback (R123) -/

theorem feedback_fogpad (r : Word) : feedback fogpad r = fadd (fmul r 0x3E8F5C29#32) 0x3F333333#32 := rfl

/-- A word times a control in [0, 1] lies between zero and the word. -/
theorem fmul_inUnit_within {r c : Word} (hr : inUnit r) (hc : isFinite c = true) (h0 : 0 ≤ value c) :
    within posZero c (fmul r c) := by
  obtain ⟨_, hpos, _⟩ := fraction_bounds hr hc
  obtain ⟨hlow, hhigh⟩ := hpos h0
  exact ⟨isNaN_fmul (isFinite_of_inUnit hr) hc, value_posZero.trans_le hlow, hhigh⟩

/-- ROOM_OFFSET is FB_MIN, and the rounding of ROOM_OFFSET + ROOM_SCALE, the greatest sum, does not pass FB_MAX. -/
theorem feedback_stable {r : Word} (hr : inUnit r) : stableFeedback fogpad (feedback fogpad r) := by
  have hscale : isFinite fogpad.roomScale = true := by decide
  have hoffset : isFinite fogpad.roomOffset = true := by decide
  have hmin : value fogpad.fbMin = value fogpad.roomOffset := rfl
  have hmax : value fogpad.roomScale + value fogpad.roomOffset ≤ value fogpad.fbMax := by decide +kernel
  obtain ⟨_, hlow, hhigh⟩ := fmul_inUnit_within hr hscale (by decide +kernel)
  have hprod : isFinite (fmul r fogpad.roomScale) = true := isFinite_of_bounds isFinite_posZero hscale hlow hhigh
  rw [value_posZero] at hlow
  exact ⟨isNaN_fadd hprod hoffset, le_value_fadd hprod hoffset (by decide) (by omega),
    value_fadd_le hprod hoffset (by decide) (by omega)⟩

theorem fbMax_lt_one : value fogpad.fbMax < value fOne := by decide +kernel

/-! ### The statements -/

/-- Settles O44: a length grows with the rate from its tuning constant at 44100 Hz to its capacity at 192000 Hz. -/
theorem delayLengthsAreWithinTheBuiltCapacity : Obligations.DelayLengthsAreWithinTheBuiltCapacity := by
  refine ⟨fun fs => ⟨fun k => ?_, fun j => ?_⟩, fun fs hlo hhi => ⟨fun k => ?_, fun j => ?_⟩⟩
  · exact (combLens_get fogpad fs k).trans (dlen_fogpad _ fs)
  · exact (apLens_get fogpad fs j).trans (dlen_fogpad _ fs)
  · rw [← combLens_fsMax]
    exact combLens_bounds hlo hhi k
  · rw [← apLens_fsMax]
    exact apLens_bounds hlo hhi j

/-- Settles O45: the product is between zero and ROOM_SCALE, so the sum is between FB_MIN and FB_MAX. -/
theorem feedbackStaysInTheStableRange : Obligations.FeedbackStaysInTheStableRange := by
  refine ⟨rfl, rfl, feedback_fogpad, fun r hr => ?_, ?_, ?_, ?_⟩
  · obtain ⟨hnan, hmin, hmax⟩ := feedback_stable hr
    exact ⟨⟨hnan, hmin, hmax⟩, hmax.trans_lt fbMax_lt_one⟩
  all_goals decide +kernel

/-- Settles O31, by the outcomes of the two comparisons of R11. -/
theorem clampStoresTheNearestBound : Obligations.ClampStoresTheNearestBound := by
  refine ⟨fun v lo hi hlo hhi hle => ⟨fun hnan => ?_, fun _ hbelow => ?_, fun hv habove => ?_, fun hv h1 h2 => ?_⟩,
    fun _ _ _ => clampi_eq_max_min⟩
  · exact clamp_of_not_fle_lo (fle_eq_false_of_nan_right hnan)
  · exact clamp_of_not_fle_lo (fle_eq_false_of_lt hbelow)
  · exact clamp_of_above (fle_iff.2 ⟨hlo, hv, hle.trans habove.le⟩) (fle_eq_false_of_lt habove)
  · exact clamp_of_between hv hlo hhi h1 h2

/-- Settles O43, by evaluating DLEN on the tuning constants at each rate of R66's table. -/
theorem delayLengthsAtTheCommonRates : Obligations.DelayLengthsAtTheCommonRates := by
  unfold Obligations.DelayLengthsAtTheCommonRates
  simp only [combLens_toList, apLens_toList]
  decide +kernel

end Sys2Proof.Proofs
end

section
/-! The state family of spec/10_state.md: reset (R57), the lifecycle (R21), the sticky flags (R25), the invariant (R59) and
the block that drains (R259). First what an operation can be and what it can do, said once; then the statements. -/

open Sys2Proof Sys2Proof.Machine Sys2Proof.Claims

namespace Sys2Proof.Proofs

/-! ### What each operation is -/

/-- A value read from a state that the error flags do not enter. -/
def IgnoresErr (v : State → Word) : Prop := ∀ (s : State) (e : BitVec 4), v { s with err := e } = v s

/-- The effects of the register writes at or above `0x08` that store one register each: a parameter, an input sample, or
an oscillator's restarted phase. -/
inductive RegisterWrite : (State → State) → Prop
  | params (g : Params → Params) (keepsLegal : ∀ p, p.Legal fogpad → (g p).Legal fogpad) :
      RegisterWrite fun s => setParams (g s.params) s
  | in0 (w : Word) : RegisterWrite fun s => { s with in0 := w }
  | in1 (w : Word) : RegisterWrite fun s => { s with in1 := w }
  | bcph : RegisterWrite fun s => { s with bcph := posZero }
  | flph : RegisterWrite fun s => { s with flph := posZero }

/-- What an operation is, whatever state it meets. -/
inductive ExecForm (i : Instr) : Prop
  | systemRead (v : State → Word) (ignoresErr : i = .rdErr ∨ IgnoresErr v) (h : ∀ s, exec i s = .next (answer (v s) s))
  | read (v : State → Word) (ignoresErr : IgnoresErr v) (h : ∀ s, exec i s = .next (readActive v s))
  | clear (w : Word) (hi : i = .wrErr w)
  | config (w : Word) (hi : i = .wrConfig w)
  | block (w : Word) (hi : i = .wrBlock w)
  | frame (w : Word) (hi : i = .wrFrame w)
  | write (f : State → State) (hf : RegisterWrite f) (h : ∀ s, exec i s = .next (writeActive f s))

/-- A parameter write stores through a change of the parameters that keeps them legal. -/
theorem ExecForm.paramWrite {i : Instr} (g : Params → Params) (keepsLegal : ∀ p, p.Legal fogpad → (g p).Legal fogpad)
    (h : ∀ s, exec i s = .next (writeActive (fun s => setParams (g s.params) s) s)) : ExecForm i :=
  .write _ (.params g keepsLegal) h

/-- Every operation has one of the forms; a parameter write stores its operand clamped into the register's range (R47). -/
theorem execForm : ∀ i : Instr, ExecForm i
  | .rdId => .systemRead (fun _ => fogpad.idWord) (.inr fun _ _ => rfl) fun _ => rfl
  | .rdStatus => .systemRead statusView (.inr fun _ _ => rfl) fun _ => rfl
  | .rdErr => .systemRead errView (.inl rfl) fun _ => rfl
  | .wrErr w => .clear w rfl
  | .rdConfig => .systemRead configView (.inr fun _ _ => rfl) fun _ => rfl
  | .wrConfig w => .config w rfl
  | .rdRem => .systemRead remView (.inr fun _ _ => rfl) fun _ => rfl
  | .wrBlock w => .block w rfl
  | .wrFrame w => .frame w rfl
  | .rdIn0 => .read (fun s => s.in0) (fun _ _ => rfl) fun _ => rfl
  | .wrIn0 w => .write _ (.in0 w) fun _ => rfl
  | .rdIn1 => .read (fun s => s.in1) (fun _ _ => rfl) fun _ => rfl
  | .wrIn1 w => .write _ (.in1 w) fun _ => rfl
  | .rdOut0 => .read (fun s => s.out0) (fun _ _ => rfl) fun _ => rfl
  | .rdOut1 => .read (fun s => s.out1) (fun _ _ => rfl) fun _ => rfl
  | .rdGr => .read (fun s => s.env) (fun _ _ => rfl) fun _ => rfl
  | .rdRoomsize => .read (fun s => s.params.roomsize) (fun _ _ => rfl) fun _ => rfl
  | .wrRoomsize w => .paramWrite (fun p => { p with roomsize := unitOperand w })
      (fun _ hp => { hp with roomsize := unitOperand_inUnit w }) fun _ => rfl
  | .rdWidth => .read (fun s => s.params.width) (fun _ _ => rfl) fun _ => rfl
  | .wrWidth w => .paramWrite (fun p => { p with width := unitOperand w })
      (fun _ hp => { hp with width := unitOperand_inUnit w }) fun _ => rfl
  | .rdDry => .read (fun s => s.params.dry) (fun _ _ => rfl) fun _ => rfl
  | .wrDry w => .paramWrite (fun p => { p with dry := unitOperand w })
      (fun _ hp => { hp with dry := unitOperand_inUnit w }) fun _ => rfl
  | .rdWet => .read (fun s => s.params.wet) (fun _ _ => rfl) fun _ => rfl
  | .wrWet w => .paramWrite (fun p => { p with wet := unitOperand w })
      (fun _ hp => { hp with wet := unitOperand_inUnit w }) fun _ => rfl
  | .rdMode => .read (fun s => s.params.mode.setWidth 32) (fun _ _ => rfl) fun _ => rfl
  | .wrMode w => .paramWrite (fun p => { p with mode := flagOperand w }) (fun _ hp => { hp with }) fun _ => rfl
  | .rdPlayrate => .read (fun s => s.params.playrate) (fun _ _ => rfl) fun _ => rfl
  | .wrPlayrate w => .paramWrite (fun p => { p with playrate := unitOperand w })
      (fun _ hp => { hp with playrate := unitOperand_inUnit w }) fun _ => rfl
  | .rdBcAmount => .read (fun s => s.params.bcAmount) (fun _ _ => rfl) fun _ => rfl
  | .wrBcAmount w => .paramWrite (fun p => { p with bcAmount := unitOperand w })
      (fun _ hp => { hp with bcAmount := unitOperand_inUnit w }) fun _ => rfl
  | .rdBcLfoRate => .read (fun s => s.params.bcLfoRate) (fun _ _ => rfl) fun _ => rfl
  | .wrBcLfoRate w => .paramWrite (fun p => { p with bcLfoRate := rateOperand fogpad w })
      (fun _ hp => { hp with bcLfoRate := rateOperand_within w }) fun _ => rfl
  | .rdBcLfoDepth => .read (fun s => s.params.bcLfoDepth) (fun _ _ => rfl) fun _ => rfl
  | .wrBcLfoDepth w => .paramWrite (fun p => { p with bcLfoDepth := unitOperand w })
      (fun _ hp => { hp with bcLfoDepth := unitOperand_inUnit w }) fun _ => rfl
  | .rdBcPostmix => .read (fun s => s.params.bcPostmix.setWidth 32) (fun _ _ => rfl) fun _ => rfl
  | .wrBcPostmix w => .paramWrite (fun p => { p with bcPostmix := flagOperand w }) (fun _ hp => { hp with }) fun _ => rfl
  | .wrBcLfoRst _ => .write _ .bcph fun _ => rfl
  | .rdDecBits => .read (fun s => s.params.decBits) (fun _ _ => rfl) fun _ => rfl
  | .wrDecBits w => .paramWrite (fun p => { p with decBits := bitsOperand fogpad w })
      (fun _ hp => { hp with decBits := bitsOperand_le w }) fun _ => rfl
  | .rdDecRate => .read (fun s => s.params.decRate) (fun _ _ => rfl) fun _ => rfl
  | .wrDecRate w => .paramWrite (fun p => { p with decRate := unitOperand w })
      (fun _ hp => { hp with decRate := unitOperand_inUnit w }) fun _ => rfl
  | .rdFltCutoff => .read (fun s => s.params.fltCutoff) (fun _ _ => rfl) fun _ => rfl
  | .wrFltCutoff w => .paramWrite (fun p => { p with fltCutoff := cutoffOperand fogpad w })
      (fun _ hp => { hp with fltCutoff := cutoffOperand_within w }) fun _ => rfl
  | .rdFltRes => .read (fun s => s.params.fltRes) (fun _ _ => rfl) fun _ => rfl
  | .wrFltRes w => .paramWrite (fun p => { p with fltRes := resonanceOperand fogpad w })
      (fun _ hp => { hp with fltRes := resonanceOperand_within w }) fun _ => rfl
  | .rdFltLfoRate => .read (fun s => s.params.fltLfoRate) (fun _ _ => rfl) fun _ => rfl
  | .wrFltLfoRate w => .paramWrite (fun p => { p with fltLfoRate := rateOperand fogpad w })
      (fun _ hp => { hp with fltLfoRate := rateOperand_within w }) fun _ => rfl
  | .rdFltLfoDepth => .read (fun s => s.params.fltLfoDepth) (fun _ _ => rfl) fun _ => rfl
  | .wrFltLfoDepth w => .paramWrite (fun p => { p with fltLfoDepth := unitOperand w })
      (fun _ hp => { hp with fltLfoDepth := unitOperand_inUnit w }) fun _ => rfl
  | .wrFltLfoRst _ => .write _ .flph fun _ => rfl

/-! ### What an operation that answers a next state has done -/

/-- The outcomes of an operation `i` performed on a state `s`. -/
inductive Performed (i : Instr) (s : State) : State → Prop
  | answered (d : Word) : Performed i s (answer d s)
  | refused (isRead : Bool) : Performed i s (raiseError .seq isRead s)
  | cleared (w : Word) (hi : i = .wrErr w) : Performed i s (acknowledge (clearErrors (errMaskOperand w) s))
  | rejected (w : Word) (hi : i = .wrConfig w) (hr : configRejected fogpad (configFs w) (configNch w) = true) :
      Performed i s (rejectConfig s)
  | constructed (w : Word) (hi : i = .wrConfig w) (hr : configRejected fogpad (configFs w) (configNch w) = false) :
      Performed i s (construct fogpad (configFs w) (configNch w) s)
  | opened (w : Word) (hi : i = .wrBlock w) (hl : s.life = .active) :
      Performed i s (acknowledge (openBlock fogpad w s))
  | framed (w : Word) (hi : i = .wrFrame w) (hl : s.life = .active) (hr : s.rem ≠ 0#16) :
      Performed i s (acknowledge (frame fogpad s))
  | wrote (f : State → State) (hf : RegisterWrite f) (hl : s.life = .active) : Performed i s (acknowledge (f s))

theorem performed_readActive (i : Instr) (v : State → Word) (s : State) : Performed i s (readActive v s) := by
  rcases life_cases s with hl | hl
  · rw [readActive_idle v hl]; exact .refused true
  · rw [readActive_active v hl]; exact .answered _

theorem performed_writeActive {i : Instr} {f : State → State} {s : State}
    (h : s.life = .active → Performed i s (acknowledge (f s))) : Performed i s (writeActive f s) := by
  rcases life_cases s with hl | hl
  · rw [writeActive_idle f hl]; exact .refused false
  · rw [writeActive_active f hl]; exact h hl

/-- `exec` answers one state: its outcome is known from the form of the operation. -/
theorem performed_of_next {i : Instr} {s t u : State} (h : exec i s = .next t) (hu : exec i s = .next u)
    (hp : Performed i s u) : Performed i s t := by
  rw [h] at hu
  injection hu with e
  exact e ▸ hp

/-- The inversion of `exec`: from the form of the operation, and where that admits or refuses, from the shared cases. -/
theorem performed_of_exec {i : Instr} {s t : State} (h : exec i s = .next t) : Performed i s t := by
  cases execForm i with
  | systemRead v _ hv => exact performed_of_next h (hv s) (.answered _)
  | read v _ hv => exact performed_of_next h (hv s) (performed_readActive i v s)
  | clear w hi => subst hi; exact performed_of_next h rfl (.cleared w rfl)
  | config w hi =>
    subst hi
    rcases execWrConfig_cases w s with ⟨hr, hc⟩ | ⟨hr, hc⟩
    · exact performed_of_next h hc (.rejected w rfl hr)
    · exact performed_of_next h hc (.constructed w rfl hr)
  | block w hi =>
    subst hi
    exact performed_of_next h rfl (performed_writeActive (.opened w rfl))
  | frame w hi =>
    subst hi
    rcases execWrFrame_cases w s with ⟨_, hc⟩ | ⟨hl, hr, _, hc⟩ | ⟨_, _, _, hc⟩
    · exact performed_of_next h hc (.refused false)
    · exact performed_of_next h hc (.framed w rfl hl hr)
    · exact nomatch h.symm.trans hc
  | write f hf hw => exact performed_of_next h (hw s) (performed_writeActive (.wrote f hf))

/-! ### The lifecycle state (R21) -/

theorem RegisterWrite.life {f : State → State} (hf : RegisterWrite f) (s : State) : (f s).life = s.life := by
  cases hf <;> rfl

theorem raiseError_life (c : ErrCause) (isRead : Bool) (s : State) : (raiseError c isRead s).life = s.life := by
  rw [raiseError_eq]

theorem openBlock_life (cfg : Config) (w : Word) (s : State) : (openBlock cfg w s).life = s.life := by
  rw [openBlock_eq]

/-- No operation but WR.CONFIG changes the lifecycle state. -/
theorem exec_life {i : Instr} {s t : State} (hi : ∀ w, i ≠ .wrConfig w) (h : exec i s = .next t) : t.life = s.life := by
  cases performed_of_exec h with
  | answered | cleared | framed => rfl
  | refused isRead => exact raiseError_life ..
  | rejected w hw | constructed w hw => exact absurd hw (hi w)
  | opened w => exact openBlock_life fogpad w s
  | wrote f hf => exact hf.life s

/-- The model's rejection is the complement of the spec's acceptance (R246, R293). -/
theorem configRejected_eq_false_iff (w : Word) :
    configRejected fogpad (configFs w) (configNch w) = false ↔ Accepted w := by
  have hlanes : ∀ n : BitVec 2, (n.toNat ≠ 0 ∧ n.toNat ≤ 2) ↔ n = 1#2 ∨ n = 2#2 := by decide
  unfold Accepted
  rw [← hlanes]
  simp only [configRejected, Bool.or_eq_false_iff, decide_eq_false_iff_not, not_lt, and_assoc]
  rfl

/-- WR.CONFIG sets the lifecycle state by its word alone. -/
theorem execWrConfig_life {w : Word} {s t : State} (h : exec (.wrConfig w) s = .next t) :
    (Accepted w → t.life = .active) ∧ (¬Accepted w → t.life = .idle) := by
  rw [← configRejected_eq_false_iff]
  rcases execWrConfig_cases w s with ⟨hr, hc⟩ | ⟨hr, hc⟩ <;> injection h.symm.trans hc with e <;> subst e
  · exact ⟨fun ha => absurd (hr.symm.trans ha) (by decide), fun _ => rfl⟩
  · exact ⟨fun _ => rfl, fun hn => absurd hr hn⟩

theorem statusView_idle {s : State} (hl : s.life = .idle) : statusView s = 0#32 := by simp [statusView, hl]

theorem configView_idle {s : State} (hl : s.life = .idle) : configView s = 0#32 := by simp [configView, hl]

theorem exec_rdStatus_idle {s : State} (hl : s.life = .idle) : exec .rdStatus s = .next (answer 0#32 s) :=
  congrArg (fun d => Host.Outcome.next (answer d s)) (statusView_idle hl)

theorem exec_rdConfig_idle {s : State} (hl : s.life = .idle) : exec .rdConfig s = .next (answer 0#32 s) :=
  congrArg (fun d => Host.Outcome.next (answer d s)) (configView_idle hl)

/-- Bit 0 of STATUS is ACTIVE (R24). -/
theorem statusView_bit0 (s : State) : (statusView s).getLsbD 0 = decide (s.life = .active) := by
  have hlast : ∀ v : BitVec 4, ((v ++ 1#1).setWidth 32).getLsbD 0 = true := by decide
  rcases life_cases s with hl | hl
  · simp [statusView_idle hl, hl]
  · simp only [statusView, hl, decide_true]
    exact hlast _

/-! ### The flags (R25, R297) -/

theorem RegisterWrite.err {f : State → State} (hf : RegisterWrite f) (s : State) : (f s).err = s.err := by
  cases hf <;> rfl

/-- What one operation does to ERR: WR.ERR clears what it names, every other leaves ERR or sets one flag. -/
theorem exec_err {i : Instr} {s t : State} (h : exec i s = .next t) :
    (∃ w, i = .wrErr w ∧ t.err = errClear (errMaskOperand w) s.err) ∨ t.err = s.err ∨
      ∃ c, t.err = errSet c s.err := by
  cases performed_of_exec h with
  | answered | constructed => exact .inr (.inl rfl)
  | refused isRead => rw [raiseError_eq]; exact .inr (.inr ⟨.seq, rfl⟩)
  | cleared w hi => exact .inl ⟨w, hi, rfl⟩
  | rejected => exact .inr (.inr ⟨.cfg, rfl⟩)
  | opened w =>
    rw [acknowledge_err, openBlock_eq]
    by_cases hrem : s.rem = 0#16
    · exact .inr (.inl (if_pos hrem))
    · exact .inr (.inr ⟨.seq, if_neg hrem⟩)
  | framed =>
    rw [acknowledge_err, frame_err]
    by_cases hn : nonFiniteInput s = true
    · exact .inr (.inr ⟨.nonfin, if_pos hn⟩)
    · exact .inr (.inl (if_neg hn))
  | wrote f hf => exact .inr (.inl (hf.err s))

theorem getLsbD_errSet {e : BitVec 4} {k : Nat} (c : ErrCause) (h : e.getLsbD k = true) :
    (errSet c e).getLsbD k = true := by
  simp [errSet, h]

/-- A flag that WR.ERR clears has a one in the written word. -/
theorem written_of_errClear {w : Word} {e : BitVec 4} {k : Nat} (hset : e.getLsbD k = true)
    (hclear : (errClear (errMaskOperand w) e).getLsbD k = false) : w.getLsbD k = true := by
  have hk : k < 4 := BitVec.lt_of_getLsbD hset
  simpa [errClear, errMaskOperand, hset, hk] using hclear

/-! ### Two states that differ in ERR alone (R25) -/

theorem RegisterWrite.withErr {f : State → State} (hf : RegisterWrite f) (s : State) (e : BitVec 4) :
    f { s with err := e } = { f s with err := e } := by
  cases hf <;> rfl

theorem wet0_withErr (cfg : Config) (s : State) (e : BitVec 4) : wet0 cfg { s with err := e } = wet0 cfg s :=
  wetPath_congr cfg s.lane0 rfl rfl rfl rfl rfl rfl rfl rfl rfl rfl rfl

theorem wet1_withErr (cfg : Config) (s : State) (e : BitVec 4) : wet1 cfg { s with err := e } = wet1 cfg s := by
  cases hst : stereo s
  · rw [wet1, wet1, hst, show stereo { s with err := e } = false from hst]; rfl
  · rw [wet1_stereo cfg hst, wet1_stereo cfg (s := { s with err := e }) hst]
    exact wetPath_congr cfg s.lane1 rfl rfl rfl rfl rfl rfl rfl rfl rfl rfl rfl

/-- A frame reads ERR for nothing but ERR: its wet paths, mix and limiter are those of the other state. -/
theorem frame_withErr (cfg : Config) (s : State) (e : BitVec 4) :
    frame cfg { s with err := e } = { frame cfg s with err := (frame cfg { s with err := e }).err } := by
  unfold frame
  rw [wet0_withErr, wet1_withErr]
  rfl

/-- On two states that differ in ERR alone an operation has outcomes that differ in ERR alone. -/
def ErrBlind (i : Instr) (s : State) (e : BitVec 4) : Prop :=
  (∃ t e', exec i s = .next t ∧ exec i { s with err := e } = .next { t with err := e' }) ∨
    ∃ f, exec i s = .fault f ∧ exec i { s with err := e } = .fault f

theorem readActive_withErr {v : State → Word} (hv : IgnoresErr v) (s : State) (e : BitVec 4) :
    ∃ e', readActive v { s with err := e } = { readActive v s with err := e' } := by
  rcases life_cases s with hl | hl
  · rw [readActive_idle v hl, readActive_idle v (s := { s with err := e }) hl]
    exact ⟨errSet .seq e, rfl⟩
  · rw [readActive_active v hl, readActive_active v (s := { s with err := e }) hl, hv s e]
    exact ⟨e, rfl⟩

theorem writeActive_withErr {f : State → State} (s : State) (e : BitVec 4)
    (hf : ∃ e', f { s with err := e } = { f s with err := e' }) :
    ∃ e', writeActive f { s with err := e } = { writeActive f s with err := e' } := by
  rcases life_cases s with hl | hl
  · rw [writeActive_idle f hl, writeActive_idle f (s := { s with err := e }) hl]
    exact ⟨errSet .seq e, rfl⟩
  · obtain ⟨e', he⟩ := hf
    rw [writeActive_active f hl, writeActive_active f (s := { s with err := e }) hl, he]
    exact ⟨e', rfl⟩

theorem openBlock_withErr (cfg : Config) (w : Word) (s : State) (e : BitVec 4) :
    ∃ e', openBlock cfg w { s with err := e } = { openBlock cfg w s with err := e' } := by
  rw [openBlock_eq, openBlock_eq]
  exact ⟨_, rfl⟩

theorem errBlind_wrConfig (w : Word) (s : State) (e : BitVec 4) : ErrBlind (.wrConfig w) s e := by
  rcases execWrConfig_cases w s with ⟨hr, hc⟩ | ⟨hr, hc⟩
  · exact .inl ⟨_, errSet .cfg e, hc, if_pos hr⟩
  · exact .inl ⟨_, e, hc, if_neg (by simp [hr])⟩

theorem errBlind_wrFrame (w : Word) (s : State) (e : BitVec 4) : ErrBlind (.wrFrame w) s e := by
  rcases execWrFrame_cases w s with ⟨hrefused, hc⟩ | ⟨hl, hr, hidx, hc⟩ | ⟨hl, hr, hidx, hc⟩
  · exact .inl ⟨_, errSet .seq e, hc, if_pos hrefused⟩
  · refine .inl ⟨_, (frame fogpad { s with err := e }).err, hc, ?_⟩
    rcases execWrFrame_cases w { s with err := e } with ⟨hrefused, _⟩ | ⟨_, _, _, hc'⟩ | ⟨_, _, hidx', _⟩
    · exact absurd hrefused (by simp [hl, hr])
    · exact hc'.trans (congrArg (fun u => Host.Outcome.next (acknowledge u)) (frame_withErr fogpad s e))
    · exact absurd (hidx.symm.trans hidx') (by decide)
  · refine .inr ⟨_, hc, ?_⟩
    rcases execWrFrame_cases w { s with err := e } with ⟨hrefused, _⟩ | ⟨_, _, hidx', _⟩ | ⟨_, _, _, hc'⟩
    · exact absurd hrefused (by simp [hl, hr])
    · exact absurd (hidx'.symm.trans hidx) (by decide)
    · exact hc'

/-- An operation that answers `u s` whatever the state is blind to ERR where `u` is. -/
theorem errBlind_of_next {i : Instr} {u : State → State} (h : ∀ s, exec i s = .next (u s)) {s : State} {e : BitVec 4}
    (hu : ∃ e', u { s with err := e } = { u s with err := e' }) : ErrBlind i s e := by
  obtain ⟨e', he⟩ := hu
  exact .inl ⟨u s, e', h s, by rw [h, he]⟩

theorem errBlind_of_ne_rdErr {i : Instr} (hi : i ≠ .rdErr) (s : State) (e : BitVec 4) : ErrBlind i s e := by
  cases execForm i with
  | systemRead v hv h =>
    have hv : IgnoresErr v := hv.resolve_left hi
    exact errBlind_of_next h ⟨e, by rw [hv s e]; rfl⟩
  | read v hv h => exact errBlind_of_next h (readActive_withErr hv s e)
  | clear w hi => subst hi; exact .inl ⟨_, errClear (errMaskOperand w) e, rfl, rfl⟩
  | config w hi => subst hi; exact errBlind_wrConfig w s e
  | block w hi =>
    subst hi
    exact errBlind_of_next (fun _ => rfl) (writeActive_withErr s e (openBlock_withErr fogpad w s e))
  | frame w hi => subst hi; exact errBlind_wrFrame w s e
  | write f hf h => exact errBlind_of_next h (writeActive_withErr s e ⟨e, hf.withErr s e⟩)

/-! ### The invariant (R59) -/

/-- The invariant does not speak of ERR, of the port and of the answer. -/
theorem inv_withErrPortResp {s : State} (h : s.Inv) (e : BitVec 4) (p : List PortEvent) (r : Option Word) :
    { s with err := e, port := p, resp := r }.Inv where
  memories := ⟨h.memories.lane0, h.memories.lane1⟩
  numin := h.numin
  numout := h.numout
  idle hl := { h.idle hl with }
  active hl := { h.active hl with }

theorem inv_of_active {s : State} (hl : s.life = .active) (hm : s.MemoriesWf) (hin : s.numin.toNat ≤ 2)
    (hout : s.numout.toNat ≤ 2) (ha : s.ActiveInv fogpad) : s.Inv :=
  ⟨hm, hin, hout, fun hi => (nomatch hl.symm.trans hi), fun _ => ha⟩

/-- The reset state holds zeros and cleared lanes, and an IDLE state has no ACTIVE part. -/
theorem reset_inv : State.reset.Inv where
  memories := ⟨memoriesWf_cleared, memoriesWf_cleared⟩
  numin := by decide
  numout := by decide
  idle _ := ⟨rfl, rfl, rfl, rfl, rfl, rfl, rfl⟩
  active hl := nomatch hl

theorem construct_inv {w : Word} (hw : Accepted w) (s : State) : (construct fogpad (configFs w) (configNch w) s).Inv := by
  obtain ⟨hlow, hhigh, hnch⟩ := hw
  refine inv_of_active rfl ⟨memoriesWf_cleared, memoriesWf_cleared⟩ (Nat.zero_le _) (Nat.zero_le _) ?_
  exact
    { fsLow := hlow
      fsHigh := hhigh
      nch := hnch
      params := paramsAtConfig_legal
      lane0 := bounded_cleared hlow
      lane1 := bounded_cleared hlow
      tw := by rw [construct_tw]; decide
      trp := by rw [construct_trp]; decide +kernel
      bcph := by rw [construct_bcph]; decide +kernel
      flph := by rw [construct_flph]; decide +kernel
      env := by rw [construct_env]; decide +kernel }

theorem openBlock_inv {s : State} (h : s.Inv) (hl : s.life = .active) (w : Word) : (openBlock fogpad w s).Inv := by
  have ha := h.active hl
  rw [openBlock_eq]
  exact inv_of_active hl ⟨h.memories.lane0, h.memories.lane1⟩ (channelCount_le _) (channelCount_le _) { ha with }

theorem frame_inv {s : State} (h : s.Inv) (hl : s.life = .active) : (frame fogpad s).Inv :=
  inv_of_active hl ⟨wetPath_memoriesWf h.memories.lane0, wet1_memoriesWf h.memories.lane1⟩ h.numin h.numout
    (frame_activeInv (h.active hl))

theorem RegisterWrite.inv {f : State → State} (hf : RegisterWrite f) {s : State} (h : s.Inv) (hl : s.life = .active) :
    (f s).Inv := by
  have ha := h.active hl
  have hphase : belowFrom0 fOne posZero := by decide +kernel
  refine inv_of_active ((hf.life s).trans hl) ?_ ?_ ?_ ?_
  · cases hf <;> exact ⟨h.memories.lane0, h.memories.lane1⟩
  · cases hf <;> exact h.numin
  · cases hf <;> exact h.numout
  · cases hf with
    | params g keepsLegal => exact { ha with params := keepsLegal _ ha.params }
    | in0 | in1 => exact { ha with }
    | bcph => exact { ha with bcph := hphase }
    | flph => exact { ha with flph := hphase }

theorem exec_inv {i : Instr} {s t : State} (h : s.Inv) (he : exec i s = .next t) : t.Inv := by
  cases performed_of_exec he with
  | answered d => exact inv_withErrPortResp h s.err s.port (some d)
  | refused isRead => rw [raiseError_eq]; exact inv_withErrPortResp h _ s.port _
  | cleared w => exact inv_withErrPortResp h _ s.port none
  | rejected => exact inv_withErrPortResp reset_inv _ s.port none
  | constructed w _ hr => exact construct_inv ((configRejected_eq_false_iff w).1 hr) s
  | opened w _ hl => exact inv_withErrPortResp (openBlock_inv h hl w) _ _ none
  | framed _ _ hl => exact inv_withErrPortResp (frame_inv h hl) _ _ none
  | wrote f hf hl => exact inv_withErrPortResp (hf.inv h hl) _ _ none

theorem step_inv {s t : State} (h : s.Inv) (hstep : step s = .next t) : t.Inv := by
  rcases step_cases hstep with ⟨_, rfl⟩ | ⟨rest, _, rfl⟩ | ⟨x, rest, i, _, _, he⟩ | ⟨x, rest, e, _, _, rfl⟩
  · exact h
  · exact inv_withErrPortResp reset_inv _ rest _
  · exact exec_inv (inv_withErrPortResp h s.err rest s.resp) he
  · rw [refuseXact_eq]
    exact inv_withErrPortResp h _ rest _

/-! ### Frames of an open block (R259) -/

theorem decode_encode_wrFrame (w : Word) : decode (encode (.wrFrame w)) = .ok (.wrFrame w) := by
  rw [decode, xactOpcode_encode, xactData_encode]
  rfl

/-- Under the invariant a presented FRAME of an open block is performed. -/
theorem step_wrFrame {s : State} {w : Word} {rest : List PortEvent} (h : s.Inv) (hl : s.life = .active)
    (hr : s.rem ≠ 0#16) (hp : s.port = .xact (encode (.wrFrame w)) :: rest) :
    step s = .next (acknowledge (frame fogpad { s with port := rest })) := by
  have hidx := frameIndicesInRange_of_activeInv ((inv_withErrPortResp h s.err rest s.resp).active hl)
  rw [step_decoded hp (decode_encode_wrFrame w)]
  exact (if_neg (by simp [hl, hr])).trans (if_pos hidx)

theorem run_frames (n : Nat) {s : State} {w : Word} {rest : List PortEvent} (h : s.Inv) (hl : s.life = .active)
    (hr : s.rem.toNat = n) (hp : s.port = List.replicate n (.xact (encode (.wrFrame w))) ++ rest) :
    ∃ t : State, Sys2Proof.core.run n s = .next t ∧ t.rem = 0#16 ∧ t.port = rest ∧ t.life = .active := by
  induction n generalizing s with
  | zero => exact ⟨s, rfl, BitVec.eq_of_toNat_eq hr, hp, hl⟩
  | succ n ih =>
    have hopen : s.rem ≠ 0#16 := by rintro e; simp [e] at hr
    have hstep := step_wrFrame h hl hopen hp
    have hcount : (s.rem - 1#16).toNat = n := by bv_omega
    rw [run_succ hstep]
    exact ih (step_inv h hstep) hl hcount rfl

/-! ### The statements -/

/-- Settles O9: by the kinds of events, and for an operation by its outcomes. -/
theorem everyStepKeepsTheInvariant : Obligations.EveryStepKeepsTheInvariant := fun _ _ => step_inv

/-- Settles O15: no operation but RD.ERR reads ERR to decide anything but ERR. -/
theorem errorFlagsInfluenceNothing : Obligations.ErrorFlagsInfluenceNothing := by
  intro s e hx
  obtain ⟨p, hp⟩ : ∃ p, s.port = p := ⟨_, rfl⟩
  match p, hp with
  | [], hp => exact .inl ⟨s, { s with err := e }, step_nothing_presented hp, step_nothing_presented hp, rfl⟩
  | .hardwareReset :: rest, hp => exact .inl ⟨_, _, step_hardwareReset hp, step_hardwareReset hp, rfl⟩
  | .xact x :: rest, hp =>
    have hp' : { s with err := e }.port = .xact x :: rest := hp
    cases hd : decode x with
    | error d =>
      refine .inl ⟨_, _, step_refused_xact hp hd, step_refused_xact hp' hd, ?_⟩
      rw [refuseXact_eq, refuseXact_eq]
    | ok i =>
      have hi : i ≠ .rdErr := fun hi => hx x rest hp (hi ▸ hd)
      rw [step_decoded hp hd, step_decoded hp' hd]
      rcases errBlind_of_ne_rdErr hi { s with port := rest } e with ⟨t, e', ht, ht'⟩ | ⟨f, hf, hf'⟩
      · exact .inl ⟨t, _, ht, ht', rfl⟩
      · exact .inr ⟨f, hf, hf'⟩

/-- Settles O12: each event's own case, and for an operation other than WR.CONFIG that it keeps the lifecycle state. -/
theorem onlyConfigAndResetChangeTheLifecycle : Obligations.OnlyConfigAndResetChangeTheLifecycle := by
  intro s t hstep
  refine ⟨rfl, statusView_bit0 t, ?_⟩
  rcases step_cases hstep with ⟨hp, rfl⟩ | ⟨_, hp, rfl⟩ | ⟨_, rest, i, hp, hd, he⟩ | ⟨_, _, e, hp, hd, rfl⟩ <;> rw [hp]
  · exact ⟨fun _ => rfl, nofun, nofun⟩
  · exact ⟨nofun, fun _ _ => rfl, nofun⟩
  · refine ⟨nofun, nofun, ?_⟩
    rintro _ _ ⟨⟩
    rw [hd]
    refine ⟨?_, fun hi => exec_life (s := { s with port := rest }) (fun w hw => hi w (congrArg _ hw)) he⟩
    rintro w ⟨⟩
    exact execWrConfig_life he
  · refine ⟨nofun, nofun, ?_⟩
    rintro _ _ ⟨⟩
    rw [hd]
    exact ⟨nofun, fun _ => raiseError_life ..⟩

/-- Settles O13: an event that is no reset keeps every set flag, but for those that WR.ERR names. -/
theorem errorFlagsAreSticky : Obligations.ErrorFlagsAreSticky := by
  intro s t k hstep hset hcleared
  rcases step_cases hstep with ⟨_, rfl⟩ | ⟨rest, hp, _⟩ | ⟨x, rest, i, hp, hd, he⟩ | ⟨x, rest, e, _, _, rfl⟩
  · exact absurd (hset.symm.trans hcleared) (by decide)
  · exact .inl ⟨rest, hp⟩
  · rcases exec_err he with ⟨w, hi, herr⟩ | herr | ⟨c, herr⟩ <;> rw [herr] at hcleared
    · exact .inr ⟨x, rest, w, hp, hi ▸ hd, written_of_errClear hset hcleared⟩
    · exact absurd (hset.symm.trans hcleared) (by decide)
    · exact absurd ((getLsbD_errSet c hset).symm.trans hcleared) (by decide)
  · rw [refuseXact_eq] at hcleared
    exact absurd ((getLsbD_errSet .addr hset).symm.trans hcleared) (by decide)

/-- Settles O42, by induction on the number of frames still to be processed. -/
theorem openBlockDrainsInItsNumberOfFrames : Obligations.OpenBlockDrainsInItsNumberOfFrames :=
  fun n _ _ _ => run_frames n

/-- Settles O7: the reset step, and the reset state's registers and reads, each by evaluation. -/
theorem hardwareResetLeavesTheSpecsValues : Obligations.HardwareResetLeavesTheSpecsValues := by
  refine ⟨fun s rest hp => ⟨_, step_hardwareReset hp, rfl⟩, rfl, rfl, rfl, rfl, rfl, rfl, rfl, rfl, rfl, ?_⟩
  intro t ht
  have hidle : t.life = .idle := by rw [ht]; rfl
  exact ⟨exec_rdStatus_idle hidle, exec_rdConfig_idle hidle, rfl⟩

/-- Settles O8. -/
theorem invariantHoldsAtReset : Obligations.InvariantHoldsAtReset := reset_inv

end Sys2Proof.Proofs
end

section
/-! The memory and port family of spec/20_memory.md: the order of events (R69), what an operation leaves alone (R64, R106,
R107), reads without side effect (R64, R292 a), and the memories of a frame (R60, R66, R67, R136, R146). -/

open Sys2Proof Sys2Proof.Machine Sys2Proof.Claims

namespace Sys2Proof.Proofs

/-! ### What an operation other than FRAME and CONFIG leaves alone -/

/-- What stands where only the registers that a host writes, the sequencer, the coefficients, the phases, the flags and the
answer may have changed. -/
structure KeepsSignal (s t : State) : Prop where
  lane0 : t.lane0 = s.lane0
  lane1 : t.lane1 = s.lane1
  env : t.env = s.env
  tw : t.tw = s.tw
  trp : t.trp = s.trp
  out0 : t.out0 = s.out0
  out1 : t.out1 = s.out1
  fs : t.fs = s.fs
  nch : t.nch = s.nch
  life : t.life = s.life
  port : t.port = s.port

/-- The block sequencer and the coefficients it latched (R248). -/
def KeepsSequencer (s t : State) : Prop :=
  t.coef = s.coef ∧ t.rem = s.rem ∧ t.numin = s.numin ∧ t.numout = s.numout

theorem RegisterWrite.keepsSignal {f : State → State} (hf : RegisterWrite f) (s : State) :
    KeepsSignal s (acknowledge (f s)) := by
  cases hf <;> constructor <;> rfl

theorem RegisterWrite.keepsSequencer {f : State → State} (hf : RegisterWrite f) (s : State) :
    KeepsSequencer s (acknowledge (f s)) := by
  cases hf <;> exact ⟨rfl, rfl, rfl, rfl⟩

theorem raiseError_keepsSignal (c : ErrCause) (isRead : Bool) (s : State) : KeepsSignal s (raiseError c isRead s) := by
  rw [raiseError_eq]; constructor <;> rfl

theorem openBlock_keepsSignal (cfg : Config) (w : Word) (s : State) :
    KeepsSignal s (acknowledge (openBlock cfg w s)) := by
  rw [openBlock_eq]; constructor <;> rfl

theorem exec_keepsSignal {i : Instr} {s t : State} (hframe : ∀ w, i ≠ .wrFrame w) (hconfig : ∀ w, i ≠ .wrConfig w)
    (h : exec i s = .next t) : KeepsSignal s t := by
  cases performed_of_exec h with
  | answered | cleared => constructor <;> rfl
  | refused isRead => exact raiseError_keepsSignal ..
  | rejected w hi | constructed w hi => exact absurd hi (hconfig w)
  | opened w => exact openBlock_keepsSignal fogpad w s
  | framed w hi => exact absurd hi (hframe w)
  | wrote f hf => exact hf.keepsSignal s

theorem exec_keepsSequencer {i : Instr} {s t : State} (hframe : ∀ w, i ≠ .wrFrame w) (hconfig : ∀ w, i ≠ .wrConfig w)
    (hblock : ∀ w, i ≠ .wrBlock w) (h : exec i s = .next t) : KeepsSequencer s t := by
  cases performed_of_exec h with
  | answered | cleared => exact ⟨rfl, rfl, rfl, rfl⟩
  | refused isRead => rw [raiseError_eq]; exact ⟨rfl, rfl, rfl, rfl⟩
  | rejected w hi | constructed w hi => exact absurd hi (hconfig w)
  | opened w hi => exact absurd hi (hblock w)
  | framed w hi => exact absurd hi (hframe w)
  | wrote f hf => exact hf.keepsSequencer s

/-! ### The phases (R106, R107) -/

theorem readActive_phases (v : State → Word) (s : State) :
    (readActive v s).bcph = s.bcph ∧ (readActive v s).flph = s.flph := by
  rcases readActive_cases v s with ⟨_, h⟩ | ⟨_, h⟩ <;> rw [h] <;> exact ⟨rfl, rfl⟩

theorem writeActive_bcph {f : State → State} (s : State) (hf : (f s).bcph = s.bcph) :
    (writeActive f s).bcph = s.bcph := by
  rcases writeActive_cases f s with ⟨_, h⟩ | ⟨_, h⟩ <;> rw [h]
  exact hf

theorem writeActive_flph {f : State → State} (s : State) (hf : (f s).flph = s.flph) :
    (writeActive f s).flph = s.flph := by
  rcases writeActive_cases f s with ⟨_, h⟩ | ⟨_, h⟩ <;> rw [h]
  exact hf

/-- Of the operations other than FRAME and CONFIG only its own restart changes a phase. -/
theorem exec_phases {i : Instr} {s t : State} (hframe : ∀ w, i ≠ .wrFrame w) (hconfig : ∀ w, i ≠ .wrConfig w)
    (h : exec i s = .next t) :
    ((∀ w, i ≠ .wrBcLfoRst w) → t.bcph = s.bcph) ∧ ((∀ w, i ≠ .wrFltLfoRst w) → t.flph = s.flph) := by
  cases i with
  | wrFrame w => exact absurd rfl (hframe w)
  | wrConfig w => exact absurd rfl (hconfig w)
  | wrBcLfoRst w =>
    injection h with e
    exact ⟨fun hi => absurd rfl (hi w), fun _ => e ▸ writeActive_flph s rfl⟩
  | wrFltLfoRst w =>
    injection h with e
    exact ⟨fun _ => e ▸ writeActive_bcph s rfl, fun hi => absurd rfl (hi w)⟩
  | wrBlock w =>
    injection h with e
    subst e
    exact ⟨fun _ => writeActive_bcph s (by rw [openBlock_eq]), fun _ => writeActive_flph s (by rw [openBlock_eq])⟩
  | rdId | rdStatus | rdErr | wrErr w | rdConfig | rdRem =>
    injection h with e
    subst e
    exact ⟨fun _ => rfl, fun _ => rfl⟩
  | rdIn0 | rdIn1 | rdOut0 | rdOut1 | rdGr | rdRoomsize | rdWidth | rdDry | rdWet | rdMode | rdPlayrate | rdBcAmount
  | rdBcLfoRate | rdBcLfoDepth | rdBcPostmix | rdDecBits | rdDecRate | rdFltCutoff | rdFltRes | rdFltLfoRate
  | rdFltLfoDepth =>
    injection h with e
    subst e
    exact ⟨fun _ => (readActive_phases _ s).1, fun _ => (readActive_phases _ s).2⟩
  | wrIn0 w | wrIn1 w | wrRoomsize w | wrWidth w | wrDry w | wrWet w | wrMode w | wrPlayrate w | wrBcAmount w
  | wrBcLfoRate w | wrBcLfoDepth w | wrBcPostmix w | wrDecBits w | wrDecRate w | wrFltCutoff w | wrFltRes w
  | wrFltLfoRate w | wrFltLfoDepth w =>
    injection h with e
    subst e
    exact ⟨fun _ => writeActive_bcph s rfl, fun _ => writeActive_flph s rfl⟩

/-! ### The port (R69) -/

theorem exec_port {i : Instr} {s t : State} (h : exec i s = .next t) : t.port = s.port := by
  cases performed_of_exec h with
  | answered | cleared | rejected | constructed | framed => rfl
  | refused isRead => exact (raiseError_keepsSignal .seq isRead s).port
  | opened w => exact (openBlock_keepsSignal fogpad w s).port
  | wrote f hf => exact (hf.keepsSignal s).port

/-! ### The canonical form of the memories (R60) -/

theorem KeepsSignal.memoriesWf {s t : State} (hk : KeepsSignal s t) (h : s.MemoriesWf) : t.MemoriesWf :=
  ⟨hk.lane0 ▸ h.lane0, hk.lane1 ▸ h.lane1⟩

theorem frame_memoriesWf {s : State} (h : s.MemoriesWf) : (frame fogpad s).MemoriesWf :=
  ⟨wetPath_memoriesWf h.lane0, wet1_memoriesWf h.lane1⟩

theorem exec_memoriesWf {i : Instr} {s t : State} (h : s.MemoriesWf) (he : exec i s = .next t) : t.MemoriesWf := by
  cases performed_of_exec he with
  | answered | cleared => exact ⟨h.lane0, h.lane1⟩
  | refused isRead => exact (raiseError_keepsSignal .seq isRead s).memoriesWf h
  | rejected | constructed => exact ⟨memoriesWf_cleared, memoriesWf_cleared⟩
  | opened w => exact (openBlock_keepsSignal fogpad w s).memoriesWf h
  | framed =>
    have hf := frame_memoriesWf h
    exact ⟨hf.lane0, hf.lane1⟩
  | wrote f hf => exact (hf.keepsSignal s).memoriesWf h

/-! ### Reads (R64, R292 a) -/

/-- What a read is: a system register, legal in IDLE, or a register from 0x08 on; its word does not depend on the answer
before it. -/
inductive ReadForm (i : Instr) : Prop
  | system (v : State → Word) (haddr : i.line.addr < 8) (h : ∀ s, exec i s = .next (answer (v s) s))
      (hv : ∀ (s : State) (d : Word), v (answer d s) = v s)
  | register (v : State → Word) (haddr : 8 ≤ i.line.addr) (h : ∀ s, exec i s = .next (readActive v s))
      (hv : ∀ (s : State) (d : Word), v (answer d s) = v s)

theorem readForm {i : Instr} (hread : i.line.write = false) : ReadForm i := by
  cases i with
  | rdId | rdStatus | rdErr | rdConfig | rdRem =>
    exact .system _ (by decide) (fun _ => rfl) (fun _ _ => rfl)
  | rdIn0 | rdIn1 | rdOut0 | rdOut1 | rdGr | rdRoomsize | rdWidth | rdDry | rdWet | rdMode | rdPlayrate | rdBcAmount
  | rdBcLfoRate | rdBcLfoDepth | rdBcPostmix | rdDecBits | rdDecRate | rdFltCutoff | rdFltRes | rdFltLfoRate
  | rdFltLfoDepth =>
    exact .register _ (by decide) (fun _ => rfl) (fun _ _ => rfl)
  | wrErr | wrConfig | wrBlock | wrFrame | wrIn0 | wrIn1 | wrRoomsize | wrWidth | wrDry | wrWet | wrMode | wrPlayrate
  | wrBcAmount | wrBcLfoRate | wrBcLfoDepth | wrBcPostmix | wrBcLfoRst | wrDecBits | wrDecRate | wrFltCutoff | wrFltRes
  | wrFltLfoRate | wrFltLfoDepth | wrFltLfoRst =>
    exact nomatch hread

/-- A flag that is set already stays as it is (R25). -/
theorem errSet_errSet (c : ErrCause) (e : BitVec 4) : errSet c (errSet c e) = errSet c e := by
  simp [errSet, BitVec.or_assoc]

theorem answer_again {v : State → Word} {s : State} (hv : ∀ d, v (answer d s) = v s) :
    answer (v (answer (v s) s)) (answer (v s) s) = answer (v s) s := by
  rw [hv]; rfl

theorem readActive_refused_again (v : State → Word) {s : State} (hl : s.life = .idle) :
    readActive v (raiseError .seq true s) = raiseError .seq true s := by
  rw [readActive_idle v ((raiseError_life ..).trans hl), raiseError_eq, raiseError_eq, errSet_errSet]

theorem readActive_answered_again {v : State → Word} {s : State} (hv : ∀ d, v (answer d s) = v s)
    (hl : s.life = .active) : readActive v (answer (v s) s) = answer (v s) s :=
  (readActive_active v (s := answer (v s) s) hl).trans (answer_again hv)

/-! ### The memories of a frame (R66, R67, R136, R146) -/

theorem exec_wrFrame_admitted {s : State} (h : Admitted s) (w : Word) :
    exec (.wrFrame w) s = .next (acknowledge (frame fogpad s)) := by
  obtain ⟨hl, hr, _, hidx⟩ := h
  exact (if_neg (by simp [hl, hr])).trans (if_pos hidx)

theorem stereo_of_two {s : State} (h : s.nch = 2#2) : stereo s = true := by simp [stereo, h]

theorem stereo_of_one {s : State} (h : s.nch = 1#2) : stereo s = false := by simp [stereo, h]

/-- A lane in use after an admitted frame is the lane its wet path leaves. -/
theorem laneInUse_frame {s : State} {c : Nat} {l l' : Lane} (h : LaneInUse s (acknowledge (frame fogpad s)) c l l') :
    l' = (wetPath fogpad s (inputSample s c) l).2 := by
  obtain ⟨rfl, rfl, rfl⟩ | ⟨rfl, hnch, rfl, rfl⟩ := h
  · rfl
  · rw [acknowledge_lane1, frame_lane1, wet1_stereo fogpad (stereo_of_two hnch)]

theorem wetPath_comb_frame (cfg : Config) (s : State) (xin : Word) (l : Lane) (k : Fin 8) :
    (wetPath cfg s xin l).2.combs[k].idx = nextIndex l.combs[k].idx (combLens cfg s.fs)[k] ∧
      ∀ i, i ≠ l.combs[k].idx → (wetPath cfg s xin l).2.combs[k].mem.read i = l.combs[k].mem.read i := by
  rw [wetPath_combs, combBank_comb]
  obtain ⟨_, _, hidx, _, hother⟩ := combStep_spec (combLens cfg s.fs)[k] (combDrive cfg s.params xin).tin
    (combDrive cfg s.params xin).fb (combDrive cfg s.params xin).dmp l.combs[k]
  exact ⟨hidx, hother⟩

theorem wetPath_ap_frame (cfg : Config) (s : State) (xin : Word) (l : Lane) (j : Fin 4) :
    (wetPath cfg s xin l).2.aps[j].idx = nextIndex l.aps[j].idx (apLens cfg s.fs)[j] ∧
      ∀ i, i ≠ l.aps[j].idx → (wetPath cfg s xin l).2.aps[j].mem.read i = l.aps[j].mem.read i := by
  obtain ⟨a, ha⟩ := wetPath_aps cfg s xin l
  obtain ⟨b, hb⟩ := apChain_aps cfg s.fs a l.aps j
  rw [ha, hb]
  obtain ⟨_, hidx, _, hother⟩ := apStep_spec cfg (apLens cfg s.fs)[j] b l.aps[j]
  exact ⟨hidx, hother⟩

theorem wetPath_tail_frame (cfg : Config) (s : State) (xin : Word) (l : Lane) {i : Nat} (h : i ≠ s.tw) :
    (wetPath cfg s xin l).2.tail.read i = l.tail.read i := by
  rw [wetPath_tail]
  exact read_write_other l.tail _ h.symm

/-! ### The statements -/

/-- Settles O6: by the kinds of events; no operation touches the port. -/
theorem eventsAreTakenInOrder : Obligations.EventsAreTakenInOrder := by
  refine ⟨fun s t hstep => ?_, fun s hp => step_nothing_presented hp⟩
  rcases step_cases hstep with ⟨hp, rfl⟩ | ⟨rest, hp, rfl⟩ | ⟨x, rest, i, hp, _, he⟩ | ⟨x, rest, e, hp, _, rfl⟩
  · rw [hp]; rfl
  · rw [hp]; rfl
  · rw [hp]; exact exec_port he
  · rw [hp, refuseXact_eq]; rfl

/-- Settles O11: by the kinds of events; reset and CONFIG clear the memories, a frame writes them word by word, and
everything else leaves them alone. -/
theorem memoriesKeepTheirCanonicalForm : Obligations.MemoriesKeepTheirCanonicalForm := by
  intro s t h hstep
  rcases step_cases hstep with ⟨_, rfl⟩ | ⟨rest, _, rfl⟩ | ⟨x, rest, i, _, _, he⟩ | ⟨x, rest, e, _, _, rfl⟩
  · exact h
  · exact ⟨memoriesWf_cleared, memoriesWf_cleared⟩
  · exact exec_memoriesWf (s := { s with port := rest }) ⟨h.lane0, h.lane1⟩ he
  · exact (raiseError_keepsSignal .addr _ { s with port := rest }).memoriesWf ⟨h.lane0, h.lane1⟩

/-- Settles O16: a system read answers in every state; a register read is refused in IDLE, again and again, and answers in
ACTIVE. -/
theorem readsHaveNoSideEffect : Obligations.ReadsHaveNoSideEffect := by
  intro i s hread
  cases readForm hread with
  | system v haddr h hv =>
    refine ⟨v s, ?_⟩
    rw [if_neg fun hc => absurd hc.2 (by omega)]
    exact ⟨h s, (h _).trans (congrArg _ (answer_again (hv s)))⟩
  | register v haddr h hv =>
    rcases life_cases s with hl | hl
    · refine ⟨0#32, ?_⟩
      rw [if_pos ⟨hl, haddr⟩]
      exact ⟨(h s).trans (congrArg _ (readActive_idle v hl)), (h _).trans (congrArg _ (readActive_refused_again v hl))⟩
    · refine ⟨v s, ?_⟩
      rw [if_neg fun hc => absurd (hc.1.symm.trans hl) (by decide)]
      exact ⟨(h s).trans (congrArg _ (readActive_active v hl)),
        (h _).trans (congrArg _ (readActive_answered_again (hv s) hl))⟩

/-- Settles O17, from the three frames of an operation: the signal state, the sequencer and the phases. -/
theorem onlyCommandsTouchTheSignalState : Obligations.OnlyCommandsTouchTheSignalState := by
  intro i s t h hframe hconfig
  have hk := exec_keepsSignal hframe hconfig h
  exact ⟨hk.lane0, hk.lane1, hk.env, hk.tw, hk.trp, hk.out0, hk.out1, hk.fs, hk.nch, hk.life,
    fun hblock => exec_keepsSequencer hframe hconfig hblock h, exec_phases hframe hconfig h⟩

/-- Settles O35: a lane in use is left by its wet path, which writes one word of each memory; with one lane the other's
state is passed through. -/
theorem frameWritesOneWordOfEachMemory : Obligations.FrameWritesOneWordOfEachMemory := by
  intro w s hs
  refine ⟨_, exec_wrFrame_admitted hs w, fun hnch => wet1_mono fogpad (stereo_of_one hnch), ?_⟩
  intro c l l' hlane
  obtain rfl := laneInUse_frame hlane
  exact ⟨wetPath_comb_frame fogpad s _ l, wetPath_ap_frame fogpad s _ l, fun _ => wetPath_tail_frame fogpad s _ l⟩

/-- Settles O5. -/
theorem stepRunsTheDecodedInstruction : Obligations.StepRunsTheDecodedInstruction := fun _ _ _ _ => step_decoded

end Sys2Proof.Proofs
end

section
/-! The encoding family of spec/30_encoding.md: the fields of a transaction (R80), the opcode map as a relation between
operations and opcodes (R84), the decoder as the encoder's inverse (R81). First the laws of the decoder, then the
statements. -/

open Sys2Proof Sys2Proof.Machine

namespace Sys2Proof.Proofs

/-! ### The fields of a transaction (R80) -/

theorem xact_eq_append (x : Xact) : x = (xactOpcode x ++ xactData x : BitVec 41) := by
  have hx := x.isLt
  apply BitVec.eq_of_toNat_eq
  rw [toNat_append]
  simp only [xactOpcode, xactData, BitVec.extractLsb'_toNat, Nat.shiftRight_eq_div_pow]
  omega

theorem xactWrite_eq (x : Xact) : xactWrite x = (xactOpcode x).getLsbD 8 :=
  (congrArg xactWrite (xact_eq_append x)).trans (xactWrite_append _ _)

theorem xactAddr_eq (x : Xact) : xactAddr x = (xactOpcode x).extractLsb' 0 8 :=
  (congrArg xactAddr (xact_eq_append x)).trans (xactAddr_append _ _)

/-! ### The opcode map (R84) -/

/-- Bit 8 of an opcode is W (R80). -/
theorem opcode_write (i : Instr) : i.opcode.getLsbD 8 = i.line.write := by
  cases i <;> simp [Instr.opcode, Instr.line, readLine, writeLine]

/-- R90: a read is written with DATA zero. -/
theorem operand_eq_ite (i : Instr) : i.operand = if i.line.write then i.operand else 0#32 := by
  cases i <;> rfl

/-- What an entry of the opcode map says: the operation's opcode, and for a write its operand. -/
theorem of_opcodeMap {n : Nat} {w : Word} {i : Instr} (h : opcodeMap n w = some i) :
    n = i.opcode.toNat ∧ i.operand = if i.line.write then w else 0#32 := by
  unfold opcodeMap at h
  split at h <;> cases h <;> exact ⟨rfl, rfl⟩

/-- Every operation has its entry in the opcode map; a read's is found with every DATA word. -/
theorem opcodeMap_opcode {i : Instr} {w : Word} (h : i.operand = if i.line.write then w else 0#32) :
    opcodeMap i.opcode.toNat w = some i := by
  cases i with
  | rdId | rdStatus | rdErr | rdConfig | rdRem | rdIn0 | rdIn1 | rdOut0 | rdOut1 | rdGr | rdRoomsize | rdWidth | rdDry
  | rdWet | rdMode | rdPlayrate | rdBcAmount | rdBcLfoRate | rdBcLfoDepth | rdBcPostmix | rdDecBits | rdDecRate
  | rdFltCutoff | rdFltRes | rdFltLfoRate | rdFltLfoDepth =>
    rfl
  | wrErr v | wrConfig v | wrBlock v | wrFrame v | wrIn0 v | wrIn1 v | wrRoomsize v | wrWidth v | wrDry v | wrWet v
  | wrMode v | wrPlayrate v | wrBcAmount v | wrBcLfoRate v | wrBcLfoDepth v | wrBcPostmix v | wrBcLfoRst v | wrDecBits v
  | wrDecRate v | wrFltCutoff v | wrFltRes v | wrFltLfoRate v | wrFltLfoDepth v | wrFltLfoRst v =>
    obtain rfl : v = w := h
    rfl

/-- The opcode map as a relation: the opcode names the operation, and DATA matters to a write alone. -/
theorem opcodeMap_eq_some_iff {op : BitVec 9} {w : Word} {i : Instr} :
    opcodeMap op.toNat w = some i ↔ op = i.opcode ∧ i.operand = if i.line.write then w else 0#32 := by
  constructor
  · intro h
    obtain ⟨hop, hw⟩ := of_opcodeMap h
    exact ⟨BitVec.eq_of_toNat_eq hop, hw⟩
  · rintro ⟨rfl, hw⟩
    exact opcodeMap_opcode hw

theorem opcodeMap_of_read {op : BitVec 9} (hread : op.getLsbD 8 = false) (w v : Word) :
    opcodeMap op.toNat w = opcodeMap op.toNat v := by
  refine Option.ext fun i => ?_
  rw [opcodeMap_eq_some_iff, opcodeMap_eq_some_iff]
  refine and_congr_right ?_
  rintro rfl
  rw [← opcode_write, hread]
  rfl

/-! ### The decoder (R81) -/

theorem decode_eq_ok_iff {x : Xact} {i : Instr} :
    decode x = .ok i ↔ xactOpcode x = i.opcode ∧ i.operand = if i.line.write then xactData x else 0#32 := by
  rw [← opcodeMap_eq_some_iff, decode]
  cases opcodeMap (xactOpcode x).toNat (xactData x) <;> simp

theorem decode_encode (i : Instr) : decode (encode i) = .ok i := by
  rw [decode_eq_ok_iff, xactOpcode_encode, xactData_encode]
  exact ⟨rfl, operand_eq_ite i⟩

/-- A decoded write is the encoding of its operation. -/
theorem encode_of_decode_write {x : Xact} {i : Instr} (h : decode x = .ok i) (hwrite : xactWrite x = true) :
    encode i = x := by
  obtain ⟨hop, hdata⟩ := decode_eq_ok_iff.mp h
  have hline : i.line.write = true := by rw [← opcode_write, ← hop, ← xactWrite_eq, hwrite]
  rw [encode, hdata, if_pos hline, ← hop]
  exact (xact_eq_append x).symm

/-- Which refusal a transaction meets depends on its opcode alone. -/
theorem decodeErrorOf_congr {x y : Xact} (h : xactOpcode x = xactOpcode y) : decodeErrorOf x = decodeErrorOf y := by
  simp only [decodeErrorOf, xactAddr_eq, xactWrite_eq, h]

theorem decode_read_congr {x y : Xact} (hread : xactWrite x = false) (h : xactOpcode x = xactOpcode y) :
    decode x = decode y := by
  have hmap := opcodeMap_of_read ((xactWrite_eq x).symm.trans hread) (xactData x) (xactData y)
  rw [decode, decode, hmap, decodeErrorOf_congr h, h]

/-! ### Well-formed lines (R29, R80, R86) and table words -/

theorem line_operand (i : Instr) : i.line.operand = i.operand.toNat := by
  cases i <;> rfl

/-- Address and kind are fixed by the operation and allowed by the register map. -/
theorem line_addr_kind (i : Instr) :
    i.line.addrFits = true ∧ i.line.addrDefined = true ∧ i.line.kindAllowed = true := by
  cases i <;> exact ⟨rfl, rfl, rfl⟩

/-- R87: no operand makes an operation ill-formed. -/
theorem instr_wellFormed (i : Instr) : i.wellFormed = true := by
  obtain ⟨haddr, hdefined, hkind⟩ := line_addr_kind i
  have hoperand : i.line.operandFits = true := decide_eq_true ((line_operand i).trans_lt i.operand.isLt)
  rw [Instr.wellFormed, Line.wellFormed, haddr, hoperand, hdefined, hkind]
  rfl

/-- A transaction fits every table word of at least 41 bits. -/
theorem tableXact_toNat {nbits : Nat} (h : 41 ≤ nbits) (x : Xact) : tableXact nbits x.toNat = some x := by
  have hfits : x.toNat < 2 ^ nbits := x.isLt.trans_le (Nat.pow_le_pow_right (by decide) h)
  rw [tableXact, Nat.mod_eq_of_lt hfits, if_pos x.isLt, BitVec.ofNat_toNat, BitVec.setWidth_eq]

theorem decodeTableWord_encode {nbits : Nat} (h : 41 ≤ nbits) (i : Instr) :
    decodeTableWord nbits (encode i).toNat = some i := by
  simp only [decodeTableWord, tableXact_toNat h, decode_encode]

/-! ### The statements -/

/-- Settles O1: the encoding's opcode is the operation's own, and the opcode map sends it back. -/
theorem decodeOfEncodeIsTheInstruction : Obligations.DecodeOfEncodeIsTheInstruction := fun i =>
  ⟨instr_wellFormed i, decode_encode i, decodeTableWord_encode (by decide) i⟩

/-- Settles O2: from what a decoded transaction's opcode and DATA are. -/
theorem encodeOfDecodeIsTheTransaction : Obligations.EncodeOfDecodeIsTheTransaction := by
  refine ⟨fun x i h => ⟨?_, encode_of_decode_write h⟩, fun x y => decode_read_congr⟩
  rw [xactOpcode_encode, (decode_eq_ok_iff.mp h).1]

/-- Settles O3: the opcode field of each word is that of its operation, and of a write the DATA field is the operand. -/
theorem specWordsDecode : Obligations.SpecWordsDecode := by
  unfold Obligations.SpecWordsDecode
  simp only [decode_eq_ok_iff]
  decide

end Sys2Proof.Proofs
end

section
/-! The oscillator family of spec/40_lfo.md: the sine ROM and its symmetries (R101), the interpolated lookup (R102, R103),
the phase step (R104) and the restarts (R106, R107). First the laws of the ROM, of the interpolation and of a register
write, then the statements. -/

open Sys2Proof Sys2Proof.Machine Sys2Proof.Claims

namespace Sys2Proof.Proofs

-- As in Laws/Signal: kernel evaluations one at a time, so that no waiting one holds a stack.
set_option Elab.async false

/-! ### The sine ROM (R101) -/

/-- The first half of the period, folded at its middle onto the stored quadrant. -/
def sineHalf (j : Nat) : Word := fogpad.sineQuadrant.getD (if j ≤ 64 then j else 128 - j) posZero

theorem sineRom_of_le {i : Nat} (h : i ≤ 128) : sineRom fogpad i = sineHalf i := if_pos h

theorem sineRom_of_gt {i : Nat} (h : 128 < i) : sineRom fogpad i = fneg (sineHalf (i - 128)) :=
  if_neg (Nat.not_le.2 h)

theorem sineHalf_mirror {j : Nat} (h : j ≤ 128) : sineHalf (128 - j) = sineHalf j := by
  have hfold : (if 128 - j ≤ 64 then 128 - j else 128 - (128 - j)) = if j ≤ 64 then j else 128 - j := by
    split <;> split <;> omega
  rw [sineHalf, sineHalf, hfold]

/-- A word that is finite and of magnitude at most 1 (R101's named property of an entry). -/
def UnitEntry (w : Word) : Prop := isFinite w = true ∧ mag w ≤ mag fOne

theorem unitEntry_fneg {w : Word} (h : UnitEntry w) : UnitEntry (fneg w) := by
  obtain ⟨hf, hm⟩ := h
  refine ⟨isFinite_fneg hf, ?_⟩
  rwa [mag_eq_magOf, magBits_fneg (isNaN_of_isFinite hf), ← mag_eq_magOf]

theorem unitEntry_of_mem_quadrant {w : Word} (h : w ∈ fogpad.sineQuadrant) : UnitEntry w := by
  have hall : fogpad.sineQuadrant.all (fun w => isFinite w && decide (mag w ≤ mag fOne)) = true := by decide +kernel
  simpa [UnitEntry] using List.all_eq_true.1 hall w h

theorem unitEntry_sineHalf (j : Nat) : UnitEntry (sineHalf j) := by
  rw [sineHalf, List.getD_eq_getElem?_getD]
  cases hw : fogpad.sineQuadrant[if j ≤ 64 then j else 128 - j]? with
  | none => exact ⟨isFinite_posZero, by decide +kernel⟩
  | some w => exact unitEntry_of_mem_quadrant (List.mem_of_getElem? hw)

theorem unitEntry_sineRom (i : Nat) : UnitEntry (sineRom fogpad i) := by
  rcases Nat.lt_or_ge 128 i with h | h
  · rw [sineRom_of_gt h]; exact unitEntry_fneg (unitEntry_sineHalf _)
  · rw [sineRom_of_le h]; exact unitEntry_sineHalf i

/-- An entry and the rounded difference to its neighbour: their exact sum does not leave [-1, 1] (log 15). -/
theorem sineRom_step : ∀ j : Fin 256,
    let a := sineRom fogpad j
    let d := fsub (sineRom fogpad ((j + 1) % 256)) a
    isFinite d = true ∧ value fMinusOne ≤ value a + value d ∧ value a + value d ≤ value fOne := by
  decide +kernel

/-- The same at every pair of neighbours, modulo 256 (R102). -/
theorem sineRom_neighbours (i : Int) :
    let a := sineRom fogpad (i % 256).toNat
    let d := fsub (sineRom fogpad ((i + 1) % 256).toNat) a
    isFinite d = true ∧ value fMinusOne ≤ value a + value d ∧ value a + value d ≤ value fOne := by
  have hnext : ((i + 1) % 256).toNat = ((i % 256).toNat + 1) % 256 := by omega
  rw [hnext]
  exact sineRom_step ⟨(i % 256).toNat, by omega⟩

theorem value_fMinusOne : value fMinusOne = -value fOne := by decide +kernel

theorem within_of_unitEntry {w : Word} (h : UnitEntry w) : within fMinusOne fOne w := by
  obtain ⟨hf, hm⟩ := h
  have hone := value_fMinusOne
  have hle := mag_le_natAbs_iff.1 hm
  have hpos : 0 ≤ value fOne := by decide +kernel
  exact ⟨isNaN_of_isFinite hf, by omega, by omega⟩

/-! ### Interpolation (R102) -/

/-- A fraction of a difference added to `a` stays where both `a` and `a` with the whole difference lie. -/
theorem interpolation_within {lo hi k a d : Word} (hlo : isNaN lo = false) (hhi : isNaN hi = false) (hk : inUnit k)
    (ha : isFinite a = true) (hd : isFinite d = true) (hal : value lo ≤ value a) (hah : value a ≤ value hi)
    (hsl : value lo ≤ value a + value d) (hsh : value a + value d ≤ value hi) :
    within lo hi (fadd a (fmul k d)) := by
  obtain ⟨hf, hpos, hneg⟩ := fraction_bounds hk hd
  have hsum : value lo ≤ value a + value (fmul k d) ∧ value a + value (fmul k d) ≤ value hi := by
    rcases le_total 0 (value d) with h | h
    · obtain ⟨h0, h1⟩ := hpos h
      omega
    · obtain ⟨h1, h0⟩ := hneg h
      omega
  exact ⟨isNaN_fadd ha hf, le_value_fadd ha hf hlo hsum.1, value_fadd_le ha hf hhi hsum.2⟩

/-- What is left of a value above its floor is a fraction. -/
theorem fsub_ffloor_inUnit {x : Word} (hf : isFinite x = true) (h0 : 0 ≤ value x) (h : value x < 2 ^ 24 * unitsPerOne) :
    inUnit (fsub x (ffloor x)) := by
  have hU : (0 : Int) < unitsPerOne := by exact_mod_cast unitsPerOne_pos
  have hfl := isFinite_ffloor hf h0 h
  have hrem : value x - value (ffloor x) = value x % unitsPerOne := by
    have hdiv := Int.emod_add_ediv_mul (value x) unitsPerOne
    rw [value_ffloor hf h0 h]
    omega
  have hlow := Int.emod_nonneg (value x) hU.ne'
  have hhigh := Int.emod_lt_of_pos (value x) hU
  refine ⟨isNaN_fsub hf hfl, le_value_fsub hf hfl (by decide) ?_, value_fsub_le hf hfl (by decide) ?_⟩
  · rw [value_posZero]; omega
  · rw [value_fOne]; omega

theorem value_tableLen : value 0x43800000#32 = 256 * unitsPerOne := by decide +kernel

/-- The position of a phase in the table. -/
theorem tablePosition_bounds {p : Word} (hp : belowFrom0 fOne p) :
    let pos := fmul p 0x43800000#32
    isFinite pos = true ∧ 0 ≤ value pos ∧ value pos ≤ 256 * unitsPerOne := by
  have hpf := isFinite_of_belowFrom0 isFinite_fOne hp
  obtain ⟨_, hp0, hp1⟩ := hp
  have hlen : isFinite 0x43800000#32 = true := by decide
  have hv := value_tableLen
  have hlow : value posZero ≤ value (fmul p 0x43800000#32) := by
    refine le_value_fmul hpf hlen (by decide) ?_
    rw [value_posZero, Int.zero_mul, hv]
    exact Int.mul_nonneg hp0 (by omega)
  have hhigh : value (fmul p 0x43800000#32) ≤ value 0x43800000#32 := by
    refine value_fmul_le hpf hlen (by decide) ?_
    rw [Int.mul_comm, ← value_fOne]
    exact Int.mul_le_mul_of_nonneg_left hp1.le (by omega)
  exact ⟨isFinite_of_bounds isFinite_posZero hlen hlow hhigh, value_posZero ▸ hlow, hv ▸ hhigh⟩

/-! ### The oscillator (R102 to R104) -/

theorem i2f_tableLen : i2f fogpad.tableLen = 0x43800000#32 := by decide +kernel

/-- R102, with TABLE_LEN and its word written out. -/
theorem sinLookup_fogpad (p : Word) :
    let pos := fmul p 0x43800000#32
    let i := f2i (ffloor pos)
    let a := sineRom fogpad (i % 256).toNat
    let b := sineRom fogpad ((i + 1) % 256).toNat
    sinLookup fogpad p = fadd a (fmul (fsub pos (ffloor pos)) (fsub b a)) := by
  rw [← i2f_tableLen]
  rfl

theorem lfoStep_of_not_ge {fs : BitVec 24} {ph rate : Word} (h : fge (fadd ph (fdiv rate (fsF fs))) fOne = false) :
    lfoStep fs ph rate = fadd ph (fdiv rate (fsF fs)) := by
  simp [lfoStep, h]

theorem lfoStep_of_ge {fs : BitVec 24} {ph rate : Word} (h : fge (fadd ph (fdiv rate (fsF fs))) fOne = true) :
    lfoStep fs ph rate = fsub (fadd ph (fdiv rate (fsF fs))) (ffloor (fadd ph (fdiv rate (fsF fs)))) := by
  simp [lfoStep, h]

theorem lfoValue_within {p : Word} (hp : belowFrom0 fOne p) : within fMinusOne fOne (lfoValue fogpad p) := by
  obtain ⟨hf, h0, h1⟩ := tablePosition_bounds hp
  have hk := fsub_ffloor_inUnit hf h0 (by have := unitsPerOne_pos; omega)
  rw [lfoValue, sinLookup_fogpad]
  generalize f2i _ = i
  obtain ⟨hd, hsl, hsh⟩ := sineRom_neighbours i
  have hentry := unitEntry_sineRom (i % 256).toNat
  obtain ⟨_, hal, hah⟩ := within_of_unitEntry hentry
  exact interpolation_within (by decide) (by decide) hk hentry.1 hd hal hah hsl hsh

/-! ### Register writes (R292 a) -/

/-- A register write has its effect in ACTIVE and is refused in IDLE. -/
theorem writesActive_of_exec {i : Instr} {f : State → State} (h : ∀ s, exec i s = .next (writeActive f s)) :
    WritesActive i f := fun s =>
  ⟨fun hl => (h s).trans (congrArg _ (writeActive_active f hl)),
    fun hl => (h s).trans (congrArg _ ((writeActive_idle f hl).trans (raiseError_eq .seq false s)))⟩

/-! ### The statements -/

/-- Settles O48: the position's fraction is in [0, 1], and no pair of neighbouring entries interpolates out of [-1, 1]. -/
theorem oscillatorValueIsBounded : Obligations.OscillatorValueIsBounded :=
  ⟨fun p => ⟨sinLookup_fogpad p, rfl⟩, fun _ _ _ => ⟨lfoStep_of_not_ge, lfoStep_of_ge⟩, fun _ => lfoValue_within⟩

/-- Settles O47: each entry is one of the first quadrant, mirrored or negated. -/
theorem sineRomIsBoundedAndSymmetric : Obligations.SineRomIsBoundedAndSymmetric := by
  refine ⟨fun i => unitEntry_sineRom i, fun i => ?_, fun i => ?_, rfl, rfl, rfl, rfl⟩
  · have hi := i.isLt
    rw [sineRom_of_le (by omega), sineRom_of_le (by omega)]
    exact sineHalf_mirror (by omega)
  · have hi := i.isLt
    have hoffset : 129 + i.val - 128 = 1 + i.val := by omega
    rw [sineRom_of_gt (by omega), sineRom_of_le (by omega), hoffset]

/-- Settles O28: each restart is a register write whose effect is its own phase. -/
theorem oscillatorRestarts : Obligations.OscillatorRestarts := fun _ =>
  ⟨writesActive_of_exec fun _ => rfl, writesActive_of_exec fun _ => rfl⟩

end Sys2Proof.Proofs
end

section
/-! The comb family of spec/41_comb.md: the comb step and the bank inside a frame (R121 to R124), freeze (R124, R330), the
register writes and reads (R125 to R128 and their like), and the wet path that the bank opens (R256). -/

open Sys2Proof Sys2Proof.Machine Sys2Proof.Claims

namespace Sys2Proof.Proofs

/-! ### Register reads (R292 a) -/

/-- A register read answers its word in ACTIVE and is refused in IDLE. -/
theorem readsActive_of_exec {i : Instr} {v : State → Word} (h : ∀ s, exec i s = .next (readActive v s)) :
    ReadsActive i v := fun s =>
  ⟨fun hl => (h s).trans (congrArg _ (readActive_active v hl)),
    fun hl => (h s).trans (congrArg _ ((readActive_idle v hl).trans (raiseError_eq .seq true s)))⟩

/-! ### Zeros (R9) -/

theorem eq_zero_word_of_mag {a : Word} (h : mag a = 0) : a = 0x00000000#32 ∨ a = 0x80000000#32 := by
  cases hs : signBit a
  · exact .inl (eq_of_sign_mag (hs.trans (by decide)) (h.trans (by decide)))
  · exact .inr (eq_of_sign_mag (hs.trans (by decide)) (h.trans (by decide)))

theorem isFinite_of_mag_zero {a : Word} (h : mag a = 0) : isFinite a = true :=
  isFinite_of_mag_le isFinite_posZero (h.trans_le (Nat.zero_le _))

theorem value_of_mag_zero {a : Word} (h : mag a = 0) : value a = 0 := by
  rw [← Int.natAbs_eq_zero, natAbs_value, h]

/-- A finite word times +0.0 is a zero, of either sign. -/
theorem mag_fmul_posZero {a : Word} (ha : isFinite a = true) : mag (fmul a posZero) = 0 := by
  rw [fmul_of_finite ha isFinite_posZero]
  exact mag_roundTo_exact (c := posZero) unitsPerOne_pos (by decide) (by simp [show mag posZero = 0 by decide])

theorem mag_fadd_of_zeros {a b : Word} (ha : mag a = 0) (hb : mag b = 0) : mag (fadd a b) = 0 := by
  have hsum : value (fadd a b) = value posZero :=
    value_fadd_exact (isFinite_of_mag_zero ha) (isFinite_of_mag_zero hb) (by decide)
      (by rw [value_of_mag_zero ha, value_of_mag_zero hb, value_posZero]; rfl)
  rw [← natAbs_value, hsum, value_posZero, Int.natAbs_zero]

theorem fadd_comm_of_finite {a b : Word} (ha : isFinite a = true) (hb : isFinite b = true) : fadd a b = fadd b a := by
  rw [fadd_of_finite ha hb, fadd_of_finite hb ha, Int.add_comm, Bool.and_comm]

/-- What +0.0 plus a finite word is: the word, but that a -0.0 becomes +0.0. -/
theorem posZero_fadd {a : Word} (ha : isFinite a = true) :
    fadd posZero a = if a = 0x80000000#32 then 0x00000000#32 else a := by
  by_cases h0 : mag a = 0
  · rcases eq_zero_word_of_mag h0 with rfl | rfl <;> decide
  · rw [if_neg fun h => h0 (by rw [h]; decide), fadd_comm_of_finite isFinite_posZero ha]
    exact fadd_zero_right ha (by decide) h0

theorem posZero_fadd_of_mag_zero {a : Word} (h : mag a = 0) : fadd posZero a = posZero := by
  rcases eq_zero_word_of_mag h with rfl | rfl <;> decide

/-- A zero added to a finite word is lost in a sum with +0.0. -/
theorem posZero_fadd_fadd_zero {a z : Word} (ha : isFinite a = true) (hz : mag z = 0) :
    fadd posZero (fadd a z) = fadd posZero a := by
  by_cases h0 : mag a = 0
  · rw [posZero_fadd_of_mag_zero h0, posZero_fadd_of_mag_zero (mag_fadd_of_zeros h0 hz)]
  · rw [fadd_zero_right ha hz h0]

/-! ### The drive of the combs (R123, R124) -/

theorem combDrive_fogpad (p : Params) (x : Word) :
    combDrive fogpad p x =
      { tin := if p.mode = 1#1 then 0x00000000#32 else x
        fb := if p.mode = 1#1 then 0x3F800000#32 else fadd (fmul p.roomsize 0x3E8F5C29#32) 0x3F333333#32
        dmp := if p.mode = 1#1 then 0x00000000#32 else 0x3F000000#32 } := by
  by_cases h : p.mode = 1#1
  · rw [combDrive_frozen fogpad x h, if_pos h, if_pos h, if_pos h]; rfl
  · rw [combDrive_running fogpad x h, if_neg h, if_neg h, if_neg h]; rfl

/-! ### The comb bank (R121, R122) -/

/-- A comb after the wet path of its lane has made its step with the drive of the frame. -/
theorem wetPath_comb (cfg : Config) (s : State) (xin : Word) (l : Lane) (k : Fin 8) :
    (wetPath cfg s xin l).2.combs[k] =
      (combStep (combLens cfg s.fs)[k] (combDrive cfg s.params xin).tin (combDrive cfg s.params xin).fb
        (combDrive cfg s.params xin).dmp l.combs[k]).2 := by
  rw [wetPath_combs, combBank_comb]

/-- The outputs of the bank are the delayed samples, in the order of the combs. -/
theorem combBank_out (cfg : Config) (fs : BitVec 24) (tin fb dmp : Word) (us : Vector Comb 8) :
    (combBank cfg fs tin fb dmp us).1 =
      fmul (sumInOrder (List.ofFn fun k : Fin 8 => us[k].mem.read us[k].idx)) cfg.combGain := by
  simp only [combBank]
  congr 2
  refine List.ext_getElem (by simp) fun k _ _ => ?_
  rw [List.getElem_ofFn]
  simp [combStep]

theorem laneInUse_memoriesWf {s t : State} {c : Nat} {l l' : Lane} (h : LaneInUse s t c l l') (hs : s.MemoriesWf) :
    l.MemoriesWf := by
  obtain ⟨_, rfl, _⟩ | ⟨_, _, rfl, _⟩ := h
  · exact hs.lane0
  · exact hs.lane1

/-! ### Freeze (R124, R330) -/

/-- What a frozen comb writes: its damping store takes the delayed sample, up to the sign of a zero, and the sum with the
suppressed input turns a -0.0 into +0.0. -/
theorem frozen_word {d st : Word} (hd : isFinite d = true) (hst : isFinite st = true) :
    fadd posZero (fmul (fadd (fmul d (fsub fOne posZero)) (fmul st posZero)) fOne) =
      if d = 0x80000000#32 then 0x00000000#32 else d := by
  have hz := mag_fmul_posZero hst
  rw [show fsub fOne posZero = fOne by decide +kernel, fmul_one (isNaN_of_isFinite hd),
    fmul_one (isNaN_fadd hd (isFinite_of_mag_zero hz)), posZero_fadd_fadd_zero hd hz, posZero_fadd hd]

/-- The memory of a comb after a frozen step (R124). -/
theorem combStep_frozen_read (len : Nat) {u : Comb} (hwf : u.mem.wf) (hd : isFinite (u.mem.read u.idx) = true)
    (hst : isFinite u.store = true) (i : Nat) :
    (combStep len posZero fOne posZero u).2.mem.read i =
      if i = u.idx ∧ u.mem.read i = 0x80000000#32 then 0x00000000#32 else u.mem.read i := by
  obtain ⟨_, _, _, hmem, hother⟩ := combStep_spec len posZero fOne posZero u
  by_cases hi : i = u.idx
  · subst hi
    rw [hmem, read_write_same hwf, frozen_word hd hst]
    simp
  · rw [hother i hi, if_neg fun h => hi h.1]

/-- While frozen, the wet path of a lane reads neither its input sample nor the input registers. -/
theorem wetPath_frozen (cfg : Config) {s : State} (hmode : s.params.mode = 1#1) (a b x y : Word) (l : Lane) :
    wetPath cfg s x l = wetPath cfg { s with in0 := a, in1 := b } y l :=
  wetPath_congr cfg l ((combDrive_frozen cfg x hmode).trans (combDrive_frozen cfg y hmode).symm) rfl rfl rfl rfl rfl
    rfl rfl rfl rfl rfl

theorem wet0_frozen (cfg : Config) {s : State} (hmode : s.params.mode = 1#1) (a b : Word) :
    (wet0 cfg s).2 = (wet0 cfg { s with in0 := a, in1 := b }).2 :=
  congrArg Prod.snd (wetPath_frozen cfg hmode a b _ _ s.lane0)

theorem wet1_frozen (cfg : Config) {s : State} (hmode : s.params.mode = 1#1) (a b : Word) :
    (wet1 cfg s).2 = (wet1 cfg { s with in0 := a, in1 := b }).2 := by
  cases hst : stereo s
  · rw [wet1_mono cfg hst, wet1_mono cfg (s := { s with in0 := a, in1 := b }) hst]
  · rw [wet1_stereo cfg hst, wet1_stereo cfg (s := { s with in0 := a, in1 := b }) hst,
      wetPath_frozen cfg hmode a b _ (inputSample { s with in0 := a, in1 := b } 1)]

/-! ### The stages of the wet path (R145, R174, R256) -/

theorem tank_fogpad (fs : BitVec 24) (p : Params) (x : Word) (l : Lane) :
    let tin := if p.mode = 1#1 then 0x00000000#32 else x
    let fb := if p.mode = 1#1 then 0x3F800000#32 else fadd (fmul p.roomsize 0x3E8F5C29#32) 0x3F333333#32
    let dmp := if p.mode = 1#1 then 0x00000000#32 else 0x3F000000#32
    let bank := combBank fogpad fs tin fb dmp l.combs
    let chain := apChain fogpad fs bank.1 l.aps
    tank fogpad fs p x l = (chain.1, { l with combs := bank.2, aps := chain.2 }) := by
  simp only [tank, combDrive_fogpad]

/-- With BC_POSTMIX 0 the BitCrusher comes first (R174). -/
theorem wetChain_crush_first (cfg : Config) {p : Params} (h : p.bcPostmix = 0#1) (k : Coef) (bm : Nat) (x : Word)
    (l : Lane) :
    let d := decimate cfg p (quant cfg x bm) l
    wetChain cfg p k bm x l = filterStep k d.1 d.2 := if_pos h

/-- With BC_POSTMIX 1 the BitCrusher comes last (R174). -/
theorem wetChain_crush_last (cfg : Config) {p : Params} (h : p.bcPostmix = 1#1) (k : Coef) (bm : Nat) (x : Word)
    (l : Lane) :
    let d := decimate cfg p x l
    let f := filterStep k d.1 d.2
    wetChain cfg p k bm x l = (quant cfg f.1 bm, f.2) := if_neg (by simp [h])

/-! ### The statements -/

/-- Settles O36: a lane in use is left by its wet path, whose combs each make the step of R121; the eight outputs are
added in their order. -/
theorem combStepInAFrame : Obligations.CombStepInAFrame := by
  refine ⟨fun w s hs hwf => ⟨_, exec_wrFrame_admitted hs w, fun c l l' hlane k => ?_⟩, fun fs tin fb dmp us => ?_⟩
  · have hcomb := (laneInUse_memoriesWf hlane hwf).combs k
    obtain rfl := laneInUse_frame hlane
    rw [wetPath_comb, combDrive_fogpad]
    exact ⟨rfl, read_write_same hcomb _ _, rfl⟩
  · rw [combBank_out]
    rfl

/-- Settles O37: a frozen comb writes back the word it read. -/
theorem frozenCombsRepeatTheirContents : Obligations.FrozenCombsRepeatTheirContents := by
  refine fun w s hs hwf hmode => ⟨_, exec_wrFrame_admitted hs w, fun c l l' hlane k hd hst i => ?_⟩
  have hcomb := (laneInUse_memoriesWf hlane hwf).combs k
  obtain rfl := laneInUse_frame hlane
  rw [wetPath_comb, combDrive_frozen fogpad _ hmode]
  exact combStep_frozen_read _ hcomb hd hst i

/-- Settles O38: frozen, no lane's wet path reads its input; phases and tail pointers never do. -/
theorem frozenTankIgnoresTheInput : Obligations.FrozenTankIgnoresTheInput := by
  intro w s a b hs hmode
  have hs' : Admitted { s with in0 := a, in1 := b } := hs
  refine ⟨_, _, exec_wrFrame_admitted hs w, exec_wrFrame_admitted hs' w, ?_⟩
  simp only [acknowledge_lane0, acknowledge_lane1, acknowledge_bcph, acknowledge_flph, acknowledge_tw, acknowledge_trp,
    frame_lane0, frame_lane1, frame_bcph, frame_flph, frame_tw, frame_trp, and_true]
  exact ⟨wet0_frozen fogpad hmode a b, wet1_frozen fogpad hmode a b⟩

/-- Settles O25: each is a register write whose effect is its own parameter. -/
theorem reverbParameterWrites : Obligations.ReverbParameterWrites := fun _ =>
  ⟨writesActive_of_exec fun _ => rfl, writesActive_of_exec fun _ => rfl, writesActive_of_exec fun _ => rfl,
    writesActive_of_exec fun _ => rfl, writesActive_of_exec fun _ => rfl, writesActive_of_exec fun _ => rfl⟩

/-- Settles O29: each is a register read of its own parameter. -/
theorem parametersReadBackTheStoredWord : Obligations.ParametersReadBackTheStoredWord := by
  refine ⟨?_, ?_, ?_, ?_, ?_, ?_, ?_, ?_, ?_, ?_, ?_, ?_⟩ <;> exact readsActive_of_exec fun _ => rfl

/-- Settles O60: the tank with the drive of R124, then the tap, then the wet chain in the order BC_POSTMIX selects. -/
theorem wetPathComposesItsStages : Obligations.WetPathComposesItsStages := by
  intro s x l
  dsimp only
  rw [wetPath, tank_fogpad]
  exact ⟨fun h => wetChain_crush_first fogpad h _ _ _ _, fun h => wetChain_crush_last fogpad h _ _ _ _⟩

end Sys2Proof.Proofs
end

section
/-! The allpass family of spec/42_allpass.md: the chain stage by stage (R136, R137), and what a cleared chain, which subtracts
from +0.0 four times, makes of its input. -/

open Sys2Proof Sys2Proof.Machine

namespace Sys2Proof.Proofs

/-! ### The chain (R136, R137) -/

/-- The delayed sample of allpass `j`: the `d` of R136. -/
def apDelayed (us : Vector Allpass 4) (j : Fin 4) : Word := us[j].mem.read us[j].idx

/-- What goes into each allpass: `a0` to `a3` of R137, each the output of the stage before. -/
def apInputs (a0 : Word) (us : Vector Allpass 4) : Vector Word 4 :=
  let a1 := fsub (apDelayed us 0) a0
  let a2 := fsub (apDelayed us 1) a1
  let a3 := fsub (apDelayed us 2) a2
  #v[a0, a1, a2, a3]

/-- Each allpass of the chain makes the step of R136 on its input. -/
theorem apChain_stage (cfg : Config) (fs : BitVec 24) (a0 : Word) (us : Vector Allpass 4) :
    ∀ j : Fin 4, (apChain cfg fs a0 us).2[j] = (apStep cfg (apLens cfg fs)[j] (apInputs a0 us)[j] us[j]).2
  | 0 => rfl
  | 1 => rfl
  | 2 => rfl
  | 3 => rfl

/-- The chain answers what its last allpass does. -/
theorem apChain_out (cfg : Config) (fs : BitVec 24) (a0 : Word) (us : Vector Allpass 4) :
    (apChain cfg fs a0 us).1 = fsub (apDelayed us 3) (apInputs a0 us)[3] := rfl

/-- Every delayed sample of a cleared chain is +0.0. -/
theorem apDelayed_cleared : ∀ j : Fin 4, apDelayed Lane.cleared.aps j = posZero
  | 0 => rfl
  | 1 => rfl
  | 2 => rfl
  | 3 => rfl

/-- A cleared chain subtracts from +0.0 four times (R137). -/
theorem apChain_cleared (cfg : Config) (fs : BitVec 24) (a0 : Word) :
    (apChain cfg fs a0 Lane.cleared.aps).1 = fsub posZero (fsub posZero (fsub posZero (fsub posZero a0))) := by
  simp [apChain_out, apInputs, apDelayed_cleared]

/-! ### Subtraction from +0.0 (R9) -/

theorem isInf_of_not_isFinite {a : Word} (hn : isNaN a = false) (hf : isFinite a = false) : isInf a = true := by
  have hle := (isNaN_eq_false_iff a).1 hn
  have hge : ¬ magBits a < infBits := by rw [← isFinite_iff, hf]; decide
  exact (isInf_iff a).2 (by omega)

/-- `posZero_fadd` for infinities too. -/
theorem posZero_fadd_of_not_nan {b : Word} (h : isNaN b = false) :
    fadd posZero b = if b = 0x80000000#32 then 0x00000000#32 else b := by
  cases hf : isFinite b
  · have hb : b ≠ 0x80000000#32 := fun e => absurd hf (by rw [e]; decide)
    rw [if_neg hb, fadd]
    simp [h, isInf_of_not_isFinite h hf, isNaN_of_isFinite isFinite_posZero, isInf_of_isFinite isFinite_posZero]
  · exact posZero_fadd hf

theorem isNaN_posZero_fadd {b : Word} (h : isNaN b = false) : isNaN (fadd posZero b) = false := by
  rw [posZero_fadd_of_not_nan h]
  split
  · decide
  · exact h

theorem value_posZero_fadd {b : Word} (h : isNaN b = false) : value (fadd posZero b) = value b := by
  rw [posZero_fadd_of_not_nan h]
  split
  next hb => rw [hb]; decide
  next => rfl

theorem isNaN_posZero_fsub {a : Word} (h : isNaN a = false) : isNaN (fsub posZero a) = false :=
  isNaN_posZero_fadd ((isNaN_fneg a).trans h)

theorem value_posZero_fsub {a : Word} (h : isNaN a = false) : value (fsub posZero a) = -value a :=
  (value_posZero_fadd ((isNaN_fneg a).trans h)).trans (value_fneg h)

theorem value_posZero_fsub_twice {a : Word} (h : isNaN a = false) :
    value (fsub posZero (fsub posZero a)) = value a := by
  rw [value_posZero_fsub (isNaN_posZero_fsub h), value_posZero_fsub h, Int.neg_neg]

/-- A cleared chain passes its input at once, as a value: the four sign changes cancel (R137). -/
theorem value_apChain_cleared (cfg : Config) (fs : BitVec 24) {a0 : Word} (h : isNaN a0 = false) :
    value (apChain cfg fs a0 Lane.cleared.aps).1 = value a0 := by
  rw [apChain_cleared, value_posZero_fsub_twice (isNaN_posZero_fsub (isNaN_posZero_fsub h)),
    value_posZero_fsub_twice h]

/-! ### The statements -/

/-- Settles O46: each stage is an allpass step on the output of the one before; two values that are equal and no zero are
one word. -/
theorem allpassChainInSeries : Obligations.AllpassChainInSeries := by
  refine ⟨fun fs a0 us => ⟨apChain_out fogpad fs a0 us, fun j => ?_⟩, fun fs a0 h => ?_⟩
  · obtain ⟨_, hidx, hmem, _⟩ := apStep_spec fogpad (apLens fogpad fs)[j] (apInputs a0 us)[j] us[j]
    rw [apChain_stage]
    exact ⟨hmem, hidx⟩
  · have hvalue := value_apChain_cleared fogpad fs h
    exact ⟨hvalue, eq_of_value_eq hvalue⟩

end Sys2Proof.Proofs
end

section
/-! The tank and wobble family of spec/43_tank_wobble.md: the mix after the wet paths (R150, R151) inside a frame (R256 to
R258), the tap at unit speed (R146 to R148), the width gains (R149), and what does not depend on the mix controls (R156).
First the laws of the operations, then the statements. -/

open Sys2Proof Sys2Proof.Machine Sys2Proof.Claims

namespace Sys2Proof.Proofs

/-! ### A frame with one lane and with two (R150, R151, R231, R256 to R258) -/

theorem output0_eq (s : State) (y0 : Word) : output0 s y0 = if s.numout = 0#2 then 0x00000000#32 else y0 := by
  by_cases h : s.numout = 0#2
  · simp [output0, h]
  · have hpos : 0 < s.numout.toNat := by bv_omega
    rw [output0, if_pos hpos, if_neg h]

theorem output1_eq (s : State) (y0 y1 : Word) :
    output1 s y0 y1 = if s.numout.toNat ≤ 1 then 0x00000000#32 else if stereo s then y1 else y0 := by
  simp only [output1, ← Nat.not_le, ite_not]

/-- With one lane the wet sample is mixed as it is (R150), the peak is its mix's magnitude, and both outputs carry it. -/
theorem frame_oneLane (cfg : Config) {s : State} (h : stereo s = false) :
    let m := dryWet s.params (inputSample s 0) (wet0 cfg s).1
    let g := limiterGain cfg s.fs (peakMono m) s.env
    (frame cfg s).lane1 = s.lane1 ∧ (frame cfg s).env = g.2 ∧
      (frame cfg s).out0 = (if s.numout = 0#2 then 0x00000000#32 else fmul m g.1) ∧
      (frame cfg s).out1 = (if s.numout.toNat ≤ 1 then 0x00000000#32 else fmul m g.1) := by
  refine ⟨wet1_mono cfg h, ?_⟩
  simp [framePeak, mix0, processed0, output0_eq, output1_eq, h]

/-- With two lanes the wet samples are mixed by the width gains (R150), and one gain, from the larger magnitude, serves both
(R231). -/
theorem frame_twoLanes (cfg : Config) {s : State} (h : stereo s = true) :
    let w0 := wet0 cfg s
    let w1 := wetPath cfg s (inputSample s 1) s.lane1
    let m0 := dryWet s.params (inputSample s 0) (widthMix s.params.width w0.1 w1.1)
    let m1 := dryWet s.params (inputSample s 1) (widthMix s.params.width w1.1 w0.1)
    let g := limiterGain cfg s.fs (peakStereo m0 m1) s.env
    (frame cfg s).lane1 = w1.2 ∧ (frame cfg s).env = g.2 ∧
      (frame cfg s).out0 = (if s.numout = 0#2 then 0x00000000#32 else fmul m0 g.1) ∧
      (frame cfg s).out1 = (if s.numout.toNat ≤ 1 then 0x00000000#32 else fmul m1 g.1) := by
  simp [wet1_stereo cfg h, framePeak, mix0, mix1, processed0, processed1, output0_eq, output1_eq, h]

/-! ### The wet paths and the mix controls (R156, R256) -/

/-- A wet path reads none of DRY, WET and WIDTH. -/
theorem wetPath_withMixControls (cfg : Config) (s : State) (dry wet width xin : Word) (l : Lane) :
    wetPath cfg { s with params := { s.params with dry := dry, wet := wet, width := width } } xin l =
      wetPath cfg s xin l :=
  wetPath_congr cfg l rfl rfl rfl rfl rfl rfl rfl rfl rfl rfl rfl

theorem wet0_withMixControls (cfg : Config) (s : State) (dry wet width : Word) :
    wet0 cfg { s with params := { s.params with dry := dry, wet := wet, width := width } } = wet0 cfg s :=
  wetPath_withMixControls cfg s dry wet width _ s.lane0

theorem wet1_withMixControls (cfg : Config) (s : State) (dry wet width : Word) :
    wet1 cfg { s with params := { s.params with dry := dry, wet := wet, width := width } } = wet1 cfg s :=
  congrArg (fun path => if stereo s then path else (posZero, s.lane1))
    (wetPath_withMixControls cfg s dry wet width (inputSample s 1) s.lane1)

theorem frame_err_withMixControls (cfg : Config) (s : State) (dry wet width : Word) :
    (frame cfg { s with params := { s.params with dry := dry, wet := wet, width := width } }).err = (frame cfg s).err :=
  rfl

/-! ### Words of integers (R12) -/

/-- Integers are added exactly below 2^24. -/
theorem fadd_i2f {m n : Nat} (h : m + n < 2 ^ 24) : fadd (i2f m) (i2f n) = i2f ((m + n : Nat) : Int) := by
  rcases Nat.eq_zero_or_pos (m + n) with h0 | hpos
  · obtain ⟨rfl, rfl⟩ := Nat.add_eq_zero_iff.1 h0
    decide
  · have hm : (m : Int).natAbs < 2 ^ 24 := by omega
    have hn : (n : Int).natAbs < 2 ^ 24 := by omega
    have hsum : ((m + n : Nat) : Int).natAbs < 2 ^ 24 := h
    have hnan := isNaN_of_isFinite (isFinite_i2f hsum)
    refine eq_of_value_eq (value_fadd_exact (isFinite_i2f hm) (isFinite_i2f hn) hnan ?_) ?_
    · rw [value_i2f hm, value_i2f hn, value_i2f hsum]
      push_cast
      ring
    · rw [value_i2f hsum]
      exact mul_ne_zero (by omega) (by exact_mod_cast unitsPerOne_pos.ne')

/-- A finite word minus itself is +0.0 (R9). -/
theorem fsub_self {a : Word} (ha : isFinite a = true) : fsub a a = posZero := by
  have hn := isNaN_of_isFinite ha
  rw [fsub, fadd_of_finite ha (isFinite_fneg ha), value_fneg hn, signBit_fneg hn, if_pos (by omega), Bool.and_not_self]
  decide

theorem fge_i2f {m n : Nat} (hm : m < 2 ^ 24) (hn : n < 2 ^ 24) : fge (i2f m) (i2f n) = decide (n ≤ m) := by
  have hU : (0 : Int) < unitsPerOne := by exact_mod_cast unitsPerOne_pos
  have hle : (n : Int) * unitsPerOne ≤ m * unitsPerOne ↔ n ≤ m := by
    rw [Int.mul_le_mul_iff_of_pos_right hU, Int.ofNat_le]
  rw [fge, fle, isNaN_of_isFinite (isFinite_i2f (n := m) hm), isNaN_of_isFinite (isFinite_i2f (n := n) hn),
    value_i2f (n := m) hm, value_i2f (n := n) hn]
  simp [hle]

theorem value_i2f_div {n : Nat} (h : n < 2 ^ 24) : value (i2f n) / (unitsPerOne : Int) = n := by
  rw [value_i2f (n := n) h]
  exact Int.mul_ediv_cancel _ (by exact_mod_cast unitsPerOne_pos.ne')

/-- An integer is its own floor, as a word. -/
theorem ffloor_i2f {n : Nat} (h : n < 2 ^ 24) : ffloor (i2f n) = i2f n := by
  rw [ffloor, if_pos (isFinite_i2f (n := n) h), value_i2f_div h, i2f, signBit_roundTo]

theorem tapIndex_i2f {n : Nat} (h : n < 2 ^ 24) : tapIndex (i2f n) = n := by
  rw [tapIndex, ffloor_i2f h]
  exact f2i_of_integral (isNaN_of_isFinite (isFinite_i2f (n := n) h)) (value_i2f (n := n) h)
    (lt_trans h (by decide))

/-! ### The read position and the tap (R146 to R148) -/

theorem i2f_tailLen : i2f fogpad.tailLen = 0x45800000#32 := by decide +kernel

theorem advanceReadPos_of_not_ge {v trp : Word}
    (h : fge (fadd trp (playMultiplier fogpad v)) (i2f fogpad.tailLen) = false) :
    advanceReadPos fogpad v trp = fadd trp (playMultiplier fogpad v) := by
  simp [advanceReadPos, h]

theorem advanceReadPos_of_ge {v trp : Word}
    (h : fge (fadd trp (playMultiplier fogpad v)) (i2f fogpad.tailLen) = true) :
    advanceReadPos fogpad v trp = fsub (fadd trp (playMultiplier fogpad v)) (i2f fogpad.tailLen) := by
  simp [advanceReadPos, h]

theorem tw_lt_of_admitted {s : State} (h : Admitted s) : s.tw < fogpad.tailLen := by
  obtain ⟨_, _, _, hrange⟩ := h
  simp only [frameIndicesInRange, Bool.and_eq_true, decide_eq_true_eq] at hrange
  obtain ⟨⟨⟨_, htw⟩, _⟩, _⟩ := hrange
  exact htw

/-- PLAYRATE 0.5 is unit speed (R148). -/
theorem playMultiplier_half : playMultiplier fogpad 0x3F000000#32 = i2f (1 : Nat) := by decide +kernel

/-- At unit speed a read position on a tail index advances to the next one, with the same wrap at 4096 (R147). -/
theorem advanceReadPos_unitSpeed {n : Nat} (h : n < fogpad.tailLen) :
    advanceReadPos fogpad 0x3F000000#32 (i2f n) = i2f (nextIndex n fogpad.tailLen) := by
  have hlen : fogpad.tailLen = 4096 := rfl
  have hsum : fadd (i2f n) (playMultiplier fogpad 0x3F000000#32) = i2f ((n + 1 : Nat) : Int) := by
    rw [playMultiplier_half]
    exact fadd_i2f (by omega)
  have hge : fge (fadd (i2f n) (playMultiplier fogpad 0x3F000000#32)) (i2f fogpad.tailLen) =
      decide (fogpad.tailLen ≤ n + 1) := by
    rw [hsum]
    exact fge_i2f (by omega) (by omega)
  rcases Nat.lt_or_ge (n + 1) fogpad.tailLen with hlt | hle
  · rw [advanceReadPos_of_not_ge (hge.trans (decide_eq_false (by omega))), hsum, nextIndex, Nat.mod_eq_of_lt hlt]
  · have hend : n + 1 = fogpad.tailLen := by omega
    rw [advanceReadPos_of_ge (hge.trans (decide_eq_true hle)), hsum, nextIndex, hend, Nat.mod_self,
      fsub_self isFinite_tailLen]
    decide

theorem tapRead_of_integral (cfg : Config) {trp : Word} (m : Memory) (h : feq (fsub trp (ffloor trp)) posZero = true) :
    tapRead cfg trp m = m.read (tapIndex trp).toNat := if_pos h

theorem tapRead_of_fraction (cfg : Config) {trp : Word} (m : Memory)
    (h : feq (fsub trp (ffloor trp)) posZero = false) :
    let a := m.read (tapIndex trp).toNat
    let b := m.read (nextIndex (tapIndex trp).toNat cfg.tailLen)
    tapRead cfg trp m = fadd a (fmul (fsub trp (ffloor trp)) (fsub b a)) := if_neg (by simp [h])

/-- On a tail index the position has no fraction, and the tap reads that word (R146). -/
theorem tapRead_i2f (cfg : Config) {n : Nat} (h : n < 2 ^ 24) (m : Memory) : tapRead cfg (i2f n) m = m.read n := by
  have hfr : fsub (i2f n) (ffloor (i2f n)) = posZero := by
    rw [ffloor_i2f h, fsub_self (isFinite_i2f (n := n) h)]
  rw [tapRead_of_integral cfg m (by rw [hfr]; decide), tapIndex_i2f h, Int.toNat_natCast]

/-! ### The width gains (R149) -/

theorem fmul_comm_of_finite {a b : Word} (ha : isFinite a = true) (hb : isFinite b = true) : fmul a b = fmul b a := by
  rw [fmul_of_finite ha hb, fmul_of_finite hb ha, Nat.mul_comm, bne_comm]

/-- Half of a control in [0, 1] lies in [0, 0.5]. -/
theorem fmul_half_within {v : Word} (hv : inUnit v) : within posZero fHalf (fmul fHalf v) := by
  have hhalf : isFinite fHalf = true := by decide
  rw [fmul_comm_of_finite hhalf (isFinite_of_inUnit hv)]
  exact fmul_inUnit_within hv hhalf (by decide +kernel)

/-- 0.5 plus or minus a word in [0, 0.5] stays above or below 0.5, within [0, 1]. -/
theorem widthGains_within {v : Word} (hv : inUnit v) :
    within posZero fHalf (widthGain2 v) ∧ within fHalf fOne (widthGain1 v) := by
  have hhalf : isFinite fHalf = true := by decide
  have hsum : 2 * value fHalf = value fOne := value_halfOne.trans value_fOne.symm
  obtain ⟨_, hlow, hhigh⟩ := fmul_half_within hv
  have hf : isFinite (fmul fHalf v) = true := isFinite_of_bounds isFinite_posZero hhalf hlow hhigh
  have hzero := value_posZero
  exact ⟨⟨isNaN_fsub hhalf hf, le_value_fsub hhalf hf (by decide) (by omega),
      value_fsub_le hhalf hf (by decide) (by omega)⟩,
    isNaN_fadd hhalf hf, le_value_fadd hhalf hf (by decide) (by omega), value_fadd_le hhalf hf (by decide) (by omega)⟩

/-! ### The dry/wet mix (R151) -/

/-- With DRY 1.0 and WET 0.0 the mix adds a zero to the input. -/
theorem dryWet_dryOnly {p : Params} {xin pw : Word} (hdry : p.dry = fOne) (hwet : p.wet = posZero)
    (hx : isFinite xin = true) : dryWet p xin pw = fadd xin (fmul posZero pw) := by
  rw [dryWet, hdry, hwet, fmul_comm_of_finite isFinite_fOne hx, fmul_one (isNaN_of_isFinite hx)]

/-! ### The statements -/

/-- Settles O53: an integral read position has no fraction and, at unit speed, keeps step with the write index, so the tap
reads the word it has just written. -/
theorem unitSpeedTapIsTheIdentity : Obligations.UnitSpeedTapIsTheIdentity := by
  refine ⟨fun _ => rfl, fun v trp => ?_, fun _ _ _ _ => ⟨rfl, tapRead_of_integral fogpad _, tapRead_of_fraction fogpad _⟩,
    fun w s hs hrate hpos => ?_⟩
  · rw [← i2f_tailLen]
    exact ⟨advanceReadPos_of_not_ge, advanceReadPos_of_ge⟩
  · have htw := tw_lt_of_admitted hs
    refine ⟨⟨_, exec_wrFrame_admitted hs w, ?_⟩, fun ap l hwf => ?_⟩
    · rw [acknowledge_trp, acknowledge_tw, frame_trp, frame_tw, hrate, hpos]
      exact advanceReadPos_unitSpeed htw
    · rw [hpos]
      exact (tapRead_i2f fogpad (lt_trans htw (by decide)) _).trans (read_write_same hwf s.tw ap)

/-- Settles O40: with or without other mix controls each lane is left by the same wet path, and neither ERR nor REM reads
them. -/
theorem wetPathIgnoresTheMixControls : Obligations.WetPathIgnoresTheMixControls := by
  intro w s dry wet width hs
  have hs' : Admitted { s with params := { s.params with dry := dry, wet := wet, width := width } } := hs
  refine ⟨_, _, exec_wrFrame_admitted hs w, exec_wrFrame_admitted hs' w, ?_⟩
  simp only [acknowledge_lane0, acknowledge_lane1, acknowledge_err, acknowledge_rem, frame_lane0, frame_lane1, frame_rem,
    frame_err_withMixControls, wet0_withMixControls, wet1_withMixControls, and_self]

/-- Settles O54: WIDTH's half is in [0, 0.5], so what is added to 0.5 and taken from it is too. -/
theorem widthGainsAreOrdered : Obligations.WidthGainsAreOrdered := by
  refine ⟨fun _ => ⟨rfl, rfl⟩, ?_, ?_, ?_, fun _ => widthGains_within⟩
  all_goals decide +kernel

/-- Settles O55: 1.0 leaves the input, and the wet sample's product is a zero. -/
theorem dryOnlyMixIsTheInput : Obligations.DryOnlyMixIsTheInput := by
  intro p xin pw hdry hwet hx hpw
  have hzero : mag (fmul posZero pw) = 0 := by
    rw [fmul_comm_of_finite isFinite_posZero hpw]
    exact mag_fmul_posZero hpw
  have hvalue : value (dryWet p xin pw) = value xin := by
    rw [dryWet_dryOnly hdry hwet hx]
    exact value_fadd_exact hx (isFinite_of_mag_zero hzero) (isNaN_of_isFinite hx)
      (by rw [value_of_mag_zero hzero, Int.add_zero])
  exact ⟨hvalue, eq_of_value_eq hvalue⟩

/-- Settles O34, from the frame with one lane and the frame with two. -/
theorem frameComposesTheSignalPath : Obligations.FrameComposesTheSignalPath := fun w _ hs =>
  ⟨_, exec_wrFrame_admitted hs w, rfl, fun hnch => frame_oneLane fogpad (stereo_of_one hnch),
    fun hnch => frame_twoLanes fogpad (stereo_of_two hnch)⟩

end Sys2Proof.Proofs
end

section
/-! The BitCrusher family of spec/44_bitcrusher.md: the ROM SCALE (R183), the quantiser case by case (R171), the target and
the modulated bit depth (R170, R172), and the writes of the BitCrusher and Decimator registers (R175 to R195). First the laws
of the operations, then the statements. -/

open Sys2Proof Sys2Proof.Machine

namespace Sys2Proof.Proofs

-- A kernel evaluation waits for the theorems before it; one at a time, no waiting one holds a stack.
set_option Elab.async false

/-! ### A NaN operand (R9) -/

theorem fmul_of_nan_left {a : Word} (b : Word) (h : isNaN a = true) : fmul a b = nanWord := by simp [fmul, h]

theorem fdiv_of_nan_left {a : Word} (b : Word) (h : isNaN a = true) : fdiv a b = nanWord := by simp [fdiv, h]

/-! ### The quantiser (R171) -/

theorem quant_zero (cfg : Config) (x : Word) : quant cfg x 0 = x := rfl

theorem quant_one (cfg : Config) (x : Word) : quant cfg x 1 = if fle posZero x then fOne else fMinusOne := rfl

theorem quant_of_two_le (cfg : Config) (x : Word) {n : Nat} (h : 2 ≤ n) :
    quant cfg x n = clamp (fdiv (roundHaz (fmul x (scaleRom cfg n))) (scaleRom cfg n)) fMinusOne fOne := by
  rw [quant, if_neg (by omega), if_neg (by omega)]

/-- A NaN goes through the product, the rounding and the quotient, and the clamp stores its lower bound for it. -/
theorem quant_of_nan (cfg : Config) {x : Word} {n : Nat} (hn : 1 ≤ n) (hx : isNaN x = true) :
    quant cfg x n = fMinusOne := by
  rcases hn.eq_or_lt with rfl | h2
  · rw [quant_one, fle_eq_false_of_nan_right hx]
    rfl
  · have hround : roundHaz nanWord = nanWord := by decide
    have hnan : isNaN nanWord = true := by decide
    rw [quant_of_two_le cfg x h2, fmul_of_nan_left _ hx, hround, fdiv_of_nan_left _ hnan]
    exact clamp_of_not_fle_lo (fle_eq_false_of_nan_right hnan)

theorem quant_within (cfg : Config) (x : Word) {n : Nat} (hn : 1 ≤ n) : within fMinusOne fOne (quant cfg x n) := by
  have horder : value fMinusOne ≤ value fOne := by decide +kernel
  rcases hn.eq_or_lt with rfl | h2
  · rw [quant_one]
    split
    · exact ⟨by decide, horder, le_rfl⟩
    · exact ⟨by decide, le_rfl, horder⟩
  · rw [quant_of_two_le cfg x h2]
    exact clamp_between (by decide) (by decide) horder

/-! ### Rounding half away from zero (R12) -/

/-- The rounded integer of a non-negative value at most `n`. -/
theorem f2i_roundHaz_bounds {a : Word} {n : Nat} (hf : isFinite a = true) (hn : n < 2 ^ 23) (h0 : 0 ≤ value a)
    (h : value a ≤ n * unitsPerOne) : 0 ≤ f2i (roundHaz a) ∧ f2i (roundHaz a) ≤ n := by
  have hU := unitsPerOne_pos
  have hvalue : value a = mag a := by rw [← natAbs_value, Int.natAbs_of_nonneg h0]
  have hmag : mag a ≤ n * unitsPerOne := by exact_mod_cast hvalue ▸ h
  have hlow : 0 ≤ f2i (roundHaz a) := by
    rw [f2i_roundHaz hf (hmag.trans_lt (Nat.mul_lt_mul_of_pos_right hn hU))]
    split
    · next hsign =>
      have hzero : mag a = 0 := by
        rw [value_eq, if_pos hsign] at h0
        omega
      rw [hzero, Nat.div_eq_of_lt (by omega)]
      rfl
    · exact Int.natCast_nonneg _
  have hhigh := f2i_roundHaz_le hf hn hmag
  omega

/-- An integer is its own rounding. -/
theorem f2i_roundHaz_i2f {n : Nat} (h : n < 2 ^ 23) : f2i (roundHaz (i2f n)) = n := by
  have hU := unitsPerOne_pos
  have hn : (n : Int).natAbs < 2 ^ 24 := by omega
  have hmag : mag (i2f n) = n * unitsPerOne := by
    rw [← natAbs_value, value_i2f hn, Int.natAbs_mul, Int.natAbs_natCast, Int.natAbs_natCast]
  have hsign : signBit (i2f n) = false := by rw [i2f, signBit_roundTo, decide_eq_false (by omega)]
  have hhalf : (2 * (n * unitsPerOne) + unitsPerOne) / (2 * unitsPerOne) = n := by
    refine Nat.div_eq_of_lt_le ?_ ?_
    · calc n * (2 * unitsPerOne) = 2 * (n * unitsPerOne) := by ring
        _ ≤ _ := Nat.le_add_right _ _
    · calc 2 * (n * unitsPerOne) + unitsPerOne < 2 * (n * unitsPerOne) + 2 * unitsPerOne := by omega
        _ = (n + 1) * (2 * unitsPerOne) := by ring
  rw [f2i_roundHaz (isFinite_i2f hn) (hmag.trans_lt (Nat.mul_lt_mul_of_pos_right h hU)), hsign, hmag, hhalf]
  rfl

/-! ### The bit depth (R170, R172) -/

theorem i2f_fifteen : i2f 15 = 0x41700000#32 := by decide +kernel

theorem bcBits_fogpad (a : Word) : bcBits fogpad a = 16 - f2i (roundHaz (fmul a 0x41700000#32)) := by
  rw [← i2f_fifteen]
  rfl

/-- A legal amount times 15 lies in [0, 15], and so does its rounding. -/
theorem bcBits_bounds {a : Word} (ha : inUnit a) : 1 ≤ bcBits fogpad a ∧ bcBits fogpad a ≤ 16 := by
  have hfinite : isFinite 0x41700000#32 = true := by decide
  have hspan : value 0x41700000#32 = 15 * unitsPerOne := by decide +kernel
  have hpos : 0 ≤ value 0x41700000#32 := by decide +kernel
  obtain ⟨_, hlow, hhigh⟩ := fmul_inUnit_within ha hfinite hpos
  have hprod := isFinite_of_bounds isFinite_posZero hfinite hlow hhigh
  obtain ⟨h0, h15⟩ := f2i_roundHaz_bounds (n := 15) hprod (by decide) (value_posZero ▸ hlow) (hspan ▸ hhigh)
  rw [bcBits_fogpad]
  omega

theorem modulatedDepth_eq_clampi (p : Params) (lb : Word) :
    (modulatedDepth fogpad p lb : Int) =
      clampi (f2i (roundHaz (fadd (i2f (bcBits fogpad p.bcAmount)) (fmul (fmul p.bcLfoDepth lb) 0x40F00000#32)))) 1 16 :=
  Int.toNat_of_nonneg (zero_le_one.trans (clampi_between (by decide)).1)

theorem modulatedDepth_bounds (p : Params) (lb : Word) :
    1 ≤ modulatedDepth fogpad p lb ∧ modulatedDepth fogpad p lb ≤ 16 := by
  have hdepth := modulatedDepth_eq_clampi p lb
  generalize f2i _ = n at hdepth
  obtain ⟨hlow, hhigh⟩ := clampi_between (n := n) (lo := 1) (hi := 16) (by decide)
  omega

/-- A zero times a finite word is a zero. -/
theorem mag_fmul_of_mag_zero {a b : Word} (ha : mag a = 0) (hb : isFinite b = true) : mag (fmul a b) = 0 := by
  rw [fmul_of_finite (isFinite_of_mag_zero ha) hb, ha, Nat.zero_mul]
  exact mag_roundTo_exact (c := posZero) unitsPerOne_pos (by decide) (by simp [show mag posZero = 0 by decide])

/-- With depth 0.0 a zero is added to the target depth, which is an integer from 1 to 16. -/
theorem modulatedDepth_of_depth_zero {p : Params} {lb : Word} (hamount : inUnit p.bcAmount)
    (hdepth : value p.bcLfoDepth = 0) (hlb : isFinite lb = true) :
    (modulatedDepth fogpad p lb : Int) = bcBits fogpad p.bcAmount := by
  have hbits := bcBits_bounds hamount
  have hdepth0 : mag p.bcLfoDepth = 0 := by rw [← natAbs_value, hdepth, Int.natAbs_zero]
  have hterm := mag_fmul_of_mag_zero (mag_fmul_of_mag_zero hdepth0 hlb) (b := 0x40F00000#32) (by decide)
  rw [modulatedDepth_eq_clampi]
  obtain ⟨n, hn⟩ := Int.eq_ofNat_of_zero_le (zero_le_one.trans hbits.1)
  rw [hn] at hbits ⊢
  have hn24 : (n : Int).natAbs < 2 ^ 24 := by omega
  have hn0 : mag (i2f n) ≠ 0 := by
    rw [← natAbs_value, value_i2f hn24]
    exact Int.natAbs_ne_zero.2 (mul_ne_zero (by omega) (by exact_mod_cast unitsPerOne_pos.ne'))
  rw [fadd_zero_right (isFinite_i2f hn24) hterm hn0, f2i_roundHaz_i2f (by omega), clampi_eq_max_min (by decide)]
  omega

/-! ### The ROM SCALE (R183) -/

/-- The table of R183, entry by entry against its formula. -/
theorem scaleRom_entry : ∀ k : Fin 32,
    scaleRom fogpad (k + 1) = fsub (BitVec.ofNat 32 ((127 + k) * 2 ^ 23)) 0x3F800000#32 := by decide +kernel

/-! ### The statements -/

/-- Settles O50, by the branches of R171: the word at 0 bits, the sign at 1, the clamped quotient from 2 on. -/
theorem quantiserCases : Obligations.QuantiserCases := by
  refine fun x n _ => ⟨?_, ?_, ?_, quant_of_nan fogpad, quant_of_two_le fogpad x, quant_within fogpad x⟩
  · rintro rfl
    exact quant_zero fogpad x
  · rintro rfl hx h
    exact if_pos (fle_iff.2 ⟨by decide, hx, value_posZero.trans_le h⟩)
  · rintro rfl _ h
    rw [quant_one, fle_eq_false_of_lt (h.trans_eq value_posZero.symm)]
    rfl

/-- Settles O51: the target depth is 16 less a rounding in [0, 15], and the modulated depth is clamped. -/
theorem bitDepthStaysInRange : Obligations.BitDepthStaysInRange := by
  refine ⟨bcBits_fogpad, fun p lb => ?_, fun _ => bcBits_bounds, modulatedDepth_bounds,
    fun _ _ => modulatedDepth_of_depth_zero, ?_, ?_, ?_, ?_⟩
  · dsimp only
    rw [modulatedDepth_eq_clampi, clampi_eq_max_min (by decide), min_comm]
  all_goals decide +kernel

/-- Settles O26: each is a register write whose effect is its own parameter. -/
theorem crusherAndDecimatorWrites : Obligations.CrusherAndDecimatorWrites := fun _ =>
  ⟨writesActive_of_exec fun _ => rfl, writesActive_of_exec fun _ => rfl, writesActive_of_exec fun _ => rfl,
    writesActive_of_exec fun _ => rfl, writesActive_of_exec fun _ => rfl, writesActive_of_exec fun _ => rfl⟩

/-- Settles O49: entry `n` of the ROM is the `n - 1`st of its 32 words. -/
theorem scaleRomHoldsItsFormula : Obligations.ScaleRomHoldsItsFormula := by
  intro n h1 h32
  obtain ⟨k, rfl⟩ := Nat.exists_eq_add_of_le' h1
  have hindex : 126 + (k + 1) = 127 + k := by omega
  rw [hindex]
  exact scaleRom_entry ⟨k, by omega⟩

end Sys2Proof.Proofs
end

section
/-! The Decimator family of spec/45_decimator.md: the stage case by case (R191), the hold length (R190), and the hold
counters of the two lanes (R191). First the laws of the operations, then the statements. -/

open Sys2Proof Sys2Proof.Machine

namespace Sys2Proof.Proofs

-- A kernel evaluation waits for the theorems before it; one at a time, no waiting one holds a stack.
set_option Elab.async false

/-! ### The stage, branch by branch (R191) -/

theorem decimate_bypass (cfg : Config) {p : Params} (x : Word) (l : Lane) (h : holdFor cfg p.decRate = 0) :
    decimate cfg p x l = (x, { l with dcnt := 0 }) := if_pos h

theorem decimate_capture (cfg : Config) {p : Params} (x : Word) {l : Lane} (h : holdFor cfg p.decRate ≠ 0)
    (hd : l.dcnt = 0) :
    decimate cfg p x l = (quant cfg x p.decBits.toNat,
      { l with dheld := quant cfg x p.decBits.toNat, dcnt := holdFor cfg p.decRate }) :=
  (if_neg h).trans (if_pos hd)

theorem decimate_hold (cfg : Config) {p : Params} (x : Word) {l : Lane} (h : holdFor cfg p.decRate ≠ 0)
    (hd : l.dcnt ≠ 0) : decimate cfg p x l = (l.dheld, { l with dcnt := l.dcnt - 1 }) :=
  (if_neg h).trans (if_neg hd)

/-! ### The hold counter through a frame (R191) -/

/-- The hold counter after a frame, from the hold length and the counter before it. -/
def nextCount (hold n : Nat) : Nat := if hold = 0 then 0 else if n = 0 then hold else n - 1

theorem decimate_dcnt (cfg : Config) (p : Params) (x : Word) (l : Lane) :
    (decimate cfg p x l).2.dcnt = nextCount (holdFor cfg p.decRate) l.dcnt := by
  unfold nextCount
  rcases decimate_cases cfg p x l with ⟨h, he⟩ | ⟨h, hd, he⟩ | ⟨h, hd, he⟩ <;> rw [he]
  · exact (if_pos h).symm
  · rw [if_neg h, if_pos hd]
  · rw [if_neg h, if_neg hd]

theorem wetChain_dcnt (cfg : Config) (p : Params) (k : Coef) (bm : Nat) (x : Word) (l : Lane) :
    (wetChain cfg p k bm x l).2.dcnt = nextCount (holdFor cfg p.decRate) l.dcnt := by
  obtain ⟨y, hy⟩ := wetChain_lane cfg p k bm x l
  rw [hy]
  exact decimate_dcnt cfg p y l

/-- The tank and the tap leave the counter to the wet chain, and no sample decides what it becomes. -/
theorem wetPath_dcnt_eq (cfg : Config) (s : State) (xin : Word) (l : Lane) :
    (wetPath cfg s xin l).2.dcnt = nextCount (holdFor cfg s.params.decRate) l.dcnt :=
  wetChain_dcnt cfg s.params s.coef (frameDepth cfg s) _ _

/-- The lanes of a stereo block hold the same count (R191). -/
def SameCount (s : State) : Prop := s.life = .active → s.nch = 2#2 → s.lane0.dcnt = s.lane1.dcnt

theorem KeepsSignal.sameCount {s t : State} (hk : KeepsSignal s t) (h : SameCount s) : SameCount t := by
  unfold SameCount
  rw [hk.life, hk.nch, hk.lane0, hk.lane1]
  exact h

/-- Both lanes of a frame see the same hold length. -/
theorem frame_sameCount (cfg : Config) {s : State} (h : SameCount s) : SameCount (frame cfg s) := by
  intro hl hnch
  rw [frame_life] at hl
  rw [frame_nch] at hnch
  rw [frame_lane0, frame_lane1, wet1_stereo cfg (stereo_of_two hnch), wet0, wetPath_dcnt_eq, wetPath_dcnt_eq, h hl hnch]

theorem exec_sameCount {i : Instr} {s t : State} (h : SameCount s) (he : exec i s = .next t) : SameCount t := by
  cases performed_of_exec he with
  | answered | cleared => exact h
  | refused isRead => exact (raiseError_keepsSignal .seq isRead s).sameCount h
  | rejected => exact fun hl => nomatch hl
  | constructed => exact fun _ _ => rfl
  | opened w => exact (openBlock_keepsSignal fogpad w s).sameCount h
  | framed => exact frame_sameCount fogpad h
  | wrote f hf => exact (hf.keepsSignal s).sameCount h

/-! ### The hold length (R190) -/

theorem i2f_maxHold : i2f fogpad.maxHold = 0x42800000#32 := by decide +kernel

theorem value_maxHold : value 0x42800000#32 = 64 * unitsPerOne := by decide +kernel

theorem holdFor_fogpad (r : Word) : holdFor fogpad r = (f2i (roundHaz (fmul r 0x42800000#32))).toNat := by
  rw [← i2f_maxHold]
  rfl

/-- A legal rate times MAX_HOLD lies in [0, MAX_HOLD]. -/
theorem fmul_maxHold_bounds {r : Word} (hr : inUnit r) :
    isFinite (fmul r 0x42800000#32) = true ∧ 0 ≤ value (fmul r 0x42800000#32) ∧
      value (fmul r 0x42800000#32) ≤ 64 * unitsPerOne := by
  have hfinite : isFinite 0x42800000#32 = true := by decide
  obtain ⟨_, hlow, hhigh⟩ := fmul_inUnit_within hr hfinite (by decide +kernel)
  exact ⟨isFinite_of_bounds isFinite_posZero hfinite hlow hhigh, value_posZero ▸ hlow, value_maxHold ▸ hhigh⟩

/-- The rounded product of a legal rate is no negative integer, so `holdFor` truncates nothing. -/
theorem holdFor_eq_f2i {r : Word} (hr : inUnit r) :
    (holdFor fogpad r : Int) = f2i (roundHaz (fmul r 0x42800000#32)) := by
  obtain ⟨hfinite, hlow, hhigh⟩ := fmul_maxHold_bounds hr
  rw [holdFor_fogpad]
  exact Int.toNat_of_nonneg (f2i_roundHaz_bounds (n := 64) hfinite (by decide) hlow hhigh).1

/-- A magnitude below one half rounds to zero (R12). -/
theorem f2i_roundHaz_of_lt_half {a : Word} (hf : isFinite a = true) (h : 2 * mag a < unitsPerOne) :
    f2i (roundHaz a) = 0 := by
  have hU := unitsPerOne_pos
  rw [f2i_roundHaz hf (by omega), Nat.div_eq_of_lt (by omega)]
  exact ite_self 0

/-- No magnitude lies between two neighbouring words. -/
theorem mag_le_of_lt_next {a b c : Word} (hbc : magBits c = magBits b + 1) (h : mag a < mag c) : mag a ≤ mag b := by
  rw [mag_eq_magOf, mag_eq_magOf, magOf_lt_magOf, hbc] at h
  rw [mag_eq_magOf, mag_eq_magOf, magOf_le_magOf]
  exact Nat.le_of_lt_succ h

/-- The greatest word below 1/128 times 64 is the greatest word below one half. -/
theorem value_mul_maxHold_below_half :
    value 0x3BFFFFFF#32 * value 0x42800000#32 = value 0x3EFFFFFF#32 * unitsPerOne := by decide +kernel

theorem fmul_maxHold_lt_half {r : Word} (hr : inUnit r) (h : value r < value 0x3C000000#32) :
    2 * mag (fmul r 0x42800000#32) < unitsPerOne := by
  obtain ⟨_, hnonneg, _⟩ := fmul_maxHold_bounds hr
  have hr0 : 0 ≤ value r := value_posZero ▸ hr.2.1
  have hbound : value r ≤ value 0x3BFFFFFF#32 := by
    have hnext : magBits 0x3C000000#32 = magBits 0x3BFFFFFF#32 + 1 := by decide
    have hle := mag_le_of_lt_next (a := r) hnext (by rw [← natAbs_value, ← natAbs_value]; omega)
    rw [← natAbs_value, ← natAbs_value] at hle
    have hpos : 0 ≤ value 0x3BFFFFFF#32 := by decide +kernel
    omega
  have hprod : value (fmul r 0x42800000#32) ≤ value 0x3EFFFFFF#32 := by
    refine value_fmul_le (isFinite_of_inUnit hr) (by decide) (by decide) ?_
    rw [← value_mul_maxHold_below_half]
    exact Int.mul_le_mul_of_nonneg_right hbound (by decide +kernel)
  have hhalf : 2 * value 0x3EFFFFFF#32 < unitsPerOne := by decide +kernel
  rw [← natAbs_value]
  omega

/-- Below 1/128 the stage is bypassed (R190). -/
theorem holdFor_of_lt {r : Word} (hr : inUnit r) (h : value r < value 0x3C000000#32) : holdFor fogpad r = 0 := by
  rw [holdFor_fogpad, f2i_roundHaz_of_lt_half (fmul_maxHold_bounds hr).1 (fmul_maxHold_lt_half hr h)]
  rfl

/-! ### The statements -/

/-- Settles O41, by the kinds of events: reset leaves the block IDLE, CONFIG clears both lanes, a frame gives both counters
the same successor, and nothing else touches a lane. -/
theorem lanesHoldTheSameCount : Obligations.LanesHoldTheSameCount := by
  intro s t hstep h
  change SameCount t
  rcases step_cases hstep with ⟨_, rfl⟩ | ⟨rest, _, rfl⟩ | ⟨x, rest, i, _, _, he⟩ | ⟨x, rest, e, _, _, rfl⟩
  · exact h
  · exact fun hl => nomatch hl
  · exact exec_sameCount (s := { s with port := rest }) h he
  · exact (raiseError_keepsSignal .addr _ { s with port := rest }).sameCount h

/-- Settles O52: the three branches of R191, the formula on the legal rates, R190's values by evaluation, and the rates whose
product with 64 stays below one half. -/
theorem decimatorBypassCaptureHold : Obligations.DecimatorBypassCaptureHold := by
  refine ⟨fun p x l => ⟨decimate_bypass fogpad x l, decimate_capture fogpad x, decimate_hold fogpad x⟩,
    fun r hr => ⟨holdFor_eq_f2i hr, holdFor_le hr⟩, ?_, ?_, ?_, ?_, fun r => holdFor_of_lt⟩
  all_goals decide +kernel

end Sys2Proof.Proofs
end

section
/-! The filter family of spec/46_filter.md: the coefficient update (R206), the recurrence and the first output of a cleared
lane (R208), and the writes and reads of the four filter registers (R210 to R217). First the laws of the operations, then the
statements. -/

open Sys2Proof Sys2Proof.Machine

namespace Sys2Proof.Proofs

-- A kernel evaluation waits for the theorems before it; one at a time, no waiting one holds a stack.
set_option Elab.async false

/-! ### The coefficient update (R206) -/

theorem modulatedCutoff_fogpad (p : Params) (flph : Word) :
    modulatedCutoff fogpad p flph =
      clamp (fadd p.fltCutoff (fmul (fmul p.fltLfoDepth (sinLookup fogpad flph)) 0x461C0400#32))
        0x41F00000#32 0x469C4000#32 := rfl

/-- The coefficients as R206 computes them from `g`, the tangent, and `k`, the inverse of the resonance. -/
def coefOfTangent (g k : Word) : Coef :=
  let a1 := fdiv fOne (fadd fOne (fmul g (fadd g k)))
  ⟨a1, fmul g a1, fmul g (fmul g a1)⟩

/-- The tangent is the quotient of two lookups, a quarter of a period apart. -/
theorem filterCoef_eq_coefOfTangent (cfg : Config) (fs : BitVec 24) (p : Params) (flph : Word) :
    let ph := fdiv (modulatedCutoff cfg p flph) (fmul fTwo (fsF fs))
    filterCoef cfg fs p flph =
      coefOfTangent (fdiv (sinLookup cfg ph) (sinLookup cfg (fadd ph fQuarter))) (fdiv fOne p.fltRes) := rfl

/-- The three words of R206 at the reset parameters and 44100 Hz. -/
theorem filterCoef_reset :
    filterCoef fogpad 44100#24 Claims.resetParams posZero = ⟨0x3DC5406F#32, 0x3DAA5C76#32, 0x3D9322F4#32⟩ := by
  decide +kernel

/-! ### Zeros in a sum (R9) -/

/-- -0.0 is neutral on the left of a sum, for infinities too. -/
theorem negZero_fadd {b : Word} (h : isNaN b = false) : fadd 0x80000000#32 b = b := by
  cases hf : isFinite b
  · simp [fadd, h, isInf_of_not_isFinite h hf, show isNaN 0x80000000#32 = false by decide,
      show isInf 0x80000000#32 = false by decide]
  · by_cases h0 : mag b = 0
    · rcases eq_zero_word_of_mag h0 with rfl | rfl <;> decide
    · rw [fadd_comm_of_finite (by decide) hf, fadd_zero_right hf (by decide) h0]

/-- Taking +0.0 from a finite word leaves the word, a zero of either sign too. -/
theorem fsub_posZero {a : Word} (ha : isFinite a = true) : fsub a posZero = a := by
  rw [fsub, show fneg posZero = 0x80000000#32 by decide, fadd_comm_of_finite ha (by decide),
    negZero_fadd (isNaN_of_isFinite ha)]

/-- A zero of either sign before a word that is no NaN does not show in a sum with +0.0, as a value. -/
theorem value_posZero_fadd_zero_fadd {z b : Word} (hz : mag z = 0) (h : isNaN b = false) :
    value (fadd posZero (fadd z b)) = value b := by
  rcases eq_zero_word_of_mag hz with rfl | rfl
  · exact (value_posZero_fadd (isNaN_posZero_fadd h)).trans (value_posZero_fadd h)
  · rw [negZero_fadd h, value_posZero_fadd h]

/-! ### The recurrence (R208) -/

/-- A cleared lane holds +0.0 in both integrators, so that its first output is the input's product among zeros. -/
theorem filterStep_cleared (k : Coef) {x : Word} (hx : isFinite x = true) :
    (filterStep k x Lane.cleared).1 = fadd posZero (fadd (fmul k.a2 posZero) (fmul k.a3 x)) := by
  change fadd posZero (fadd (fmul k.a2 posZero) (fmul k.a3 (fsub x posZero))) = _
  rw [fsub_posZero hx]

/-! ### The statements -/

/-- Settles O56: the coefficients are those of the tangent at the modulated cutoff; in a cleared lane the input is left as it
is, and the integrators add only zeros to its product with `a3`. -/
theorem filterRecurrence : Obligations.FilterRecurrence := by
  refine ⟨fun fs p flph => ?_, fun _ _ _ => rfl, filterCoef_reset, fun k x ha2 ha3 hx _ => ?_⟩
  · rw [filterCoef_eq_coefOfTangent, modulatedCutoff_fogpad]
    rfl
  · rw [filterStep_cleared k hx]
    exact value_posZero_fadd_zero_fadd (mag_fmul_posZero ha2) (isNaN_fmul ha3 hx)

/-- Settles O27: each is a register write whose effect is its own parameter, clamped to the bounds of the configuration. -/
theorem filterParameterWrites : Obligations.FilterParameterWrites := fun _ =>
  ⟨writesActive_of_exec fun _ => rfl, writesActive_of_exec fun _ => rfl, writesActive_of_exec fun _ => rfl,
    writesActive_of_exec fun _ => rfl⟩

/-- Settles O30: each is a register read of its own parameter. -/
theorem filterParametersReadBack : Obligations.FilterParametersReadBack :=
  ⟨readsActive_of_exec fun _ => rfl, readsActive_of_exec fun _ => rfl, readsActive_of_exec fun _ => rfl,
    readsActive_of_exec fun _ => rfl⟩

end Sys2Proof.Proofs
end

section
/-! The progress part of spec/70_reset_and_hazards.md (R299): under the invariant no operation stops, so every run goes on.
First progress, operation by operation, then the statement. -/
open Sys2Proof Sys2Proof.Machine Sys2Proof.Claims

namespace Sys2Proof.Proofs

/-! ### Progress (R59, R253) -/

/-- An ACTIVE state of the invariant with a block open admits its FRAME: every index lies inside its memory (R59 b, R253). -/
theorem admitted_of_inv {s : State} (h : s.Inv) (hl : s.life = .active) (hr : s.rem ≠ 0#16) : Admitted s :=
  ⟨hl, hr, (h.active hl).nch, frameIndicesInRange_of_activeInv (h.active hl)⟩

theorem exec_wrFrame_refused {s : State} (h : s.life = .idle ∨ s.rem = 0#16) (w : Word) :
    exec (.wrFrame w) s = .next (raiseError .seq false s) := if_pos h

/-- A FRAME is refused, or under the invariant it is admitted: log 8's fault is not met. -/
theorem exec_wrFrame_progress {s : State} (h : s.Inv) (w : Word) : ∃ t, exec (.wrFrame w) s = .next t := by
  by_cases hrefused : s.life = .idle ∨ s.rem = 0#16
  · exact ⟨_, exec_wrFrame_refused hrefused w⟩
  · obtain ⟨hl, hr⟩ := not_or.mp hrefused
    exact ⟨_, exec_wrFrame_admitted (admitted_of_inv h ((life_cases s).resolve_left hl) hr) w⟩

/-- Under the invariant every operation answers a next state; only FRAME could stop, by its form. -/
theorem exec_progress {s : State} (h : s.Inv) (i : Instr) : ∃ t, exec i s = .next t := by
  cases execForm i with
  | systemRead v _ hv | read v _ hv => exact ⟨_, hv s⟩
  | clear w hi => subst hi; exact ⟨_, rfl⟩
  | config w hi => subst hi; rcases execWrConfig_cases w s with ⟨_, hc⟩ | ⟨_, hc⟩ <;> exact ⟨_, hc⟩
  | block w hi => subst hi; exact ⟨_, rfl⟩
  | frame w hi => subst hi; exact exec_wrFrame_progress h w
  | write f _ hw => exact ⟨_, hw s⟩

theorem step_progress {s : State} (h : s.Inv) : ∃ t, step s = .next t := by
  obtain ⟨p, hp⟩ : ∃ p, s.port = p := ⟨_, rfl⟩
  match p, hp with
  | [], hp => exact ⟨s, step_nothing_presented hp⟩
  | .hardwareReset :: _, hp => exact ⟨_, step_hardwareReset hp⟩
  | .xact x :: rest, hp =>
    cases hd : decode x with
    | ok i =>
      obtain ⟨t, ht⟩ := exec_progress (inv_withErrPortResp h s.err rest s.resp) i
      exact ⟨t, (step_decoded hp hd).trans ht⟩
    | error e => exact ⟨_, step_refused_xact hp hd⟩

/-! ### The statement -/

/-- Settles O10, by induction on the number of steps: under the invariant a step answers (progress) and keeps the invariant
(preservation). -/
theorem runsNeverStopUnderTheInvariant : Obligations.RunsNeverStopUnderTheInvariant := by
  intro k
  induction k with
  | zero => exact fun s h => ⟨s, rfl, h⟩
  | succ k ih =>
    intro s h
    obtain ⟨t, ht⟩ := step_progress h
    rw [run_succ ht]
    exact ih t (step_inv h ht)

end Sys2Proof.Proofs
end

section
/-! The orchestrator of spec/48_orchestrator.md: construction and its rejection (R246), the block protocol and the data
registers (R248 to R252), and the frame's admission, input mapping and counts (R253, R254, R259, R268). First the laws of the
operations, then the statements. -/

open Sys2Proof Sys2Proof.Machine Sys2Proof.Claims

namespace Sys2Proof.Proofs

/-! ### Construction (R246) -/

theorem exec_wrConfig_accepted {w : Word} (hw : Accepted w) (s : State) :
    exec (.wrConfig w) s = .next (construct fogpad (configFs w) (configNch w) s) :=
  if_neg (by simp [(configRejected_eq_false_iff w).mpr hw])

theorem exec_wrConfig_rejected {w : Word} (hw : ¬Accepted w) (s : State) :
    exec (.wrConfig w) s = .next (rejectConfig s) :=
  if_pos (Bool.eq_true_of_not_eq_false (mt (configRejected_eq_false_iff w).mp hw))

theorem cleared_comb : ∀ k : Fin 8, Lane.cleared.combs[k] = ⟨.cleared, 0, 0#32⟩ := by decide

theorem cleared_allpass : ∀ j : Fin 4, Lane.cleared.aps[j] = ⟨.cleared, 0⟩ := by decide

/-! ### The input of a frame (R254, R294) -/

theorem nonFinite_iff (w : Word) : NonFinite w ↔ isFinite w = false := by
  unfold NonFinite isFinite expField
  rw [← BitVec.toNat_inj]
  simp

theorem selectedWord_eq (s : State) (c : Nat) : selectedWord s c = inputWord s c := rfl

theorem inputSample_of_nonFinite {s : State} {c : Nat} (h : NonFinite (selectedWord s c)) :
    inputSample s c = 0x00000000#32 := if_neg (by simp [← selectedWord_eq, (nonFinite_iff _).mp h])

theorem inputSample_of_finite {s : State} {c : Nat} (h : ¬NonFinite (selectedWord s c)) :
    inputSample s c = selectedWord s c :=
  if_pos (by rw [nonFinite_iff, Bool.not_eq_false] at h; exact h)

theorem stereo_iff (s : State) : stereo s = true ↔ s.nch = 2#2 := by simp [stereo]

/-- E_NONFIN is for the lanes in use. -/
theorem nonFiniteInput_iff (s : State) : nonFiniteInput s = true ↔
    NonFinite (selectedWord s 0) ∨ (s.nch = 2#2 ∧ NonFinite (selectedWord s 1)) := by
  simp [nonFiniteInput, nonFinite_iff, selectedWord_eq, stereo_iff]

/-! ### One lane (R254, R268) -/

theorem wet1_oneLane (cfg : Config) {s : State} (h : stereo s = false) : wet1 cfg s = (posZero, s.lane1) := by
  simp [wet1, h]

/-- The input of lane 0 is never IN1, and its wet path reads no other lane. -/
theorem wet0_withLane1In1 (cfg : Config) (s : State) (l : Lane) (b : Word) :
    wet0 cfg { s with lane1 := l, in1 := b } = wet0 cfg s :=
  wetPath_congr cfg s.lane0 rfl rfl rfl rfl rfl rfl rfl rfl rfl rfl rfl

/-- With one lane a frame passes lane 1 and IN1 through and reads neither. -/
theorem frame_withLane1In1 (cfg : Config) {s : State} (h : stereo s = false) (l : Lane) (b : Word) :
    frame cfg { s with lane1 := l, in1 := b } = { frame cfg s with lane1 := l, in1 := b } := by
  have h' : stereo { s with lane1 := l, in1 := b } = false := h
  rw [frame, frame, wet0_withLane1In1, wet1_oneLane cfg h, wet1_oneLane cfg h']
  simp only [finishFrame, framePeak, output1, nonFiniteInput, mix0, processed0, h, h', Bool.false_eq_true, if_false,
    Bool.false_and, Bool.or_false]
  rfl

/-- With one lane the indices of lane 1 do not matter to a frame. -/
theorem frameIndicesInRange_withLane1In1 (cfg : Config) {s : State} (h : stereo s = false) (l : Lane) (b : Word) :
    frameIndicesInRange cfg { s with lane1 := l, in1 := b } = frameIndicesInRange cfg s := by
  have h' : stereo { s with lane1 := l, in1 := b } = false := h
  simp only [frameIndicesInRange, h, h', Bool.not_false, Bool.true_or]

theorem admitted_withLane1In1 {s : State} (hs : Admitted s) (hnch : s.nch = 1#2) (l : Lane) (b : Word) :
    Admitted { s with lane1 := l, in1 := b } := by
  obtain ⟨hl, hr, _, hidx⟩ := hs
  exact ⟨hl, hr, .inl hnch, (frameIndicesInRange_withLane1In1 fogpad (stereo_of_one hnch) l b).trans hidx⟩

/-! ### The statements -/

/-- Settles O32: the invariant's NCH and indices make the FRAME an admitted one, and the frame's fields are the rules'
formulas. -/
theorem frameIsPerformedUnderTheInvariant : Obligations.FrameIsPerformedUnderTheInvariant := by
  intro w s h hl hr
  have hs := admitted_of_inv h hl hr
  refine ⟨hs, _, exec_wrFrame_admitted hs w, ?_, rfl, rfl, rfl, ?_, rfl, rfl, rfl, rfl, rfl, rfl, rfl, rfl, rfl, rfl, rfl⟩
  · rw [acknowledge_rem, frame_rem]
    bv_omega
  · rw [← i2f_tailLen]; rfl

/-- Settles O39: the other state's FRAME is admitted too, and its frame differs in lane 1 and IN1 alone. -/
theorem oneLaneIgnoresTheOther : Obligations.OneLaneIgnoresTheOther := by
  intro w s l b hs hnch
  refine ⟨_, _, exec_wrFrame_admitted hs w, exec_wrFrame_admitted (admitted_withLane1In1 hs hnch l b) w, ?_⟩
  rw [frame_withLane1In1 fogpad (stereo_of_one hnch)]
  rfl

/-- Settles O22: an accepted word constructs, any other is rejected; a cleared lane holds zeros. -/
theorem configConstructsOrRejects : Obligations.ConfigConstructsOrRejects := by
  refine ⟨fun w s hw => exec_wrConfig_accepted hw s, fun k i => ?_, fun j i => ?_, fun _ => rfl, ⟨rfl, rfl, rfl, rfl⟩,
    fun w s hw => ⟨_, exec_wrConfig_rejected hw s, rfl, rfl, rfl, rfl, rfl, rfl, rfl, rfl, rfl, rfl, rfl⟩⟩
  · rw [cleared_comb]
    exact ⟨rfl, rfl, rfl⟩
  · rw [cleared_allpass]
    exact ⟨rfl, rfl⟩

/-- Settles O23: BLOCK is a register write whose effect is `openBlock`. -/
theorem blockOpensABlock : Obligations.BlockOpensABlock := by
  intro w
  have hblock : WritesActive (.wrBlock w) (openBlock fogpad w) := writesActive_of_exec fun _ => rfl
  rw [funext (openBlock_eq fogpad w)] at hblock
  exact hblock

/-- Settles O24: each is a register write or read of its own word. -/
theorem dataRegistersAreRawWords : Obligations.DataRegistersAreRawWords :=
  ⟨fun _ => writesActive_of_exec fun _ => rfl, fun _ => writesActive_of_exec fun _ => rfl,
    readsActive_of_exec fun _ => rfl, readsActive_of_exec fun _ => rfl, readsActive_of_exec fun _ => rfl,
    readsActive_of_exec fun _ => rfl, readsActive_of_exec fun _ => rfl⟩

/-- Settles O33: the model's selection is R254's, and its test for E_NONFIN is over the lanes in use. -/
theorem frameInputIsMappedAndSanitised : Obligations.FrameInputIsMappedAndSanitised := by
  refine ⟨fun s c => ⟨inputSample_of_nonFinite, inputSample_of_finite⟩, fun w s hs =>
    ⟨_, exec_wrFrame_admitted hs w, rfl, rfl, rfl, fun h => ?_, fun h => ?_⟩⟩ <;> rw [acknowledge_err, frame_err]
  · rw [if_pos ((nonFiniteInput_iff s).mpr h)]
    rfl
  · exact if_neg (mt (nonFiniteInput_iff s).mp h)

end Sys2Proof.Proofs
end

section
/-! The limiter of spec/47_limiter.md: attack, hold and release (R230, R231), the quiet frame (R233 c) and the ceiling (R233 a)
as a whole frame sees them (R257, R258). First the laws of the operations, then the statements. -/

open Sys2Proof Sys2Proof.Machine Sys2Proof.Claims

namespace Sys2Proof.Proofs

/-! ### The three branches (R231) -/

/-- An envelope moved towards a target by a fraction of the distance. -/
def moveTowards (target k env : Word) : Word := fadd env (fmul k (fsub target env))

theorem limiterGain_attack {fs : BitVec 24} {peak env : Word} (hpeak : fgt peak fOne = true)
    (htgt : flt (fdiv fOne peak) env = true) :
    let tgt := fdiv fOne peak
    let e := moveTowards tgt (attackCoef fogpad fs) env
    limiterGain fogpad fs peak env = (if flt tgt e then tgt else e, e) := by
  rw [limiterGain, if_pos (show fgt peak fogpad.limThreshold = true from hpeak)]
  exact congrArg (fun e => (if flt (fdiv fOne peak) e then fdiv fOne peak else e, e)) (if_pos htgt)

theorem limiterGain_hold {fs : BitVec 24} {peak env : Word} (hpeak : fgt peak fOne = true)
    (htgt : flt (fdiv fOne peak) env = false) : limiterGain fogpad fs peak env = (env, env) := by
  rw [limiterGain, if_pos (show fgt peak fogpad.limThreshold = true from hpeak)]
  simp only [show fogpad.limThreshold = fOne from rfl, htgt, Bool.false_eq_true, if_false]

theorem limiterGain_release {fs : BitVec 24} {peak env : Word} (hpeak : fgt peak fOne = false) :
    let e := moveTowards fOne (releaseCoef fogpad fs) env
    limiterGain fogpad fs peak env = (if fle e fOne then e else fOne, if fle e fOne then e else fOne) :=
  if_neg (by simp [show fogpad.limThreshold = fOne from rfl, hpeak])

/-! ### The direction of a move (R233) -/

/-- A difference of two controls in [0, 1] is finite and has the sign of the exact one. -/
theorem fsub_inUnit {a b : Word} (ha : inUnit a) (hb : inUnit b) :
    isFinite (fsub a b) = true ∧ (value a ≤ value b → value (fsub a b) ≤ 0) ∧
      (value b ≤ value a → 0 ≤ value (fsub a b)) := by
  have haf := isFinite_of_inUnit ha
  have hbf := isFinite_of_inUnit hb
  have hzero := value_posZero
  have hminus : value fMinusOne = -value fOne := by decide +kernel
  obtain ⟨_, ha0, ha1⟩ := ha
  obtain ⟨_, hb0, hb1⟩ := hb
  refine ⟨isFinite_of_bounds (lo := fMinusOne) (by decide) isFinite_fOne (le_value_fsub haf hbf (by decide) (by omega))
    (value_fsub_le haf hbf (by decide) (by omega)), fun h => ?_, fun h => ?_⟩ <;> rw [← value_posZero]
  · exact value_fsub_le haf hbf (by decide) (by omega)
  · exact le_value_fsub haf hbf (by decide) (by omega)

/-- A move never goes away from its target. -/
theorem moveTowards_monotone {target k env : Word} (ht : inUnit target) (hk : inUnit k) (he : inUnit env) :
    (value target ≤ value env → value (moveTowards target k env) ≤ value env) ∧
      (value env ≤ value target → value env ≤ value (moveTowards target k env)) := by
  have hef := isFinite_of_inUnit he
  obtain ⟨hdf, hdown, hup⟩ := fsub_inUnit ht he
  obtain ⟨hmf, hpos, hneg⟩ := fraction_bounds hk hdf
  refine ⟨fun h => value_fadd_le hef hmf he.1 ?_, fun h => le_value_fadd hef hmf he.1 ?_⟩
  · obtain ⟨_, hm⟩ := hneg (hdown h)
    omega
  · obtain ⟨hm, _⟩ := hpos (hup h)
    omega

theorem value_lt_of_flt {a b : Word} (h : flt a b = true) : value a < value b := by
  simp only [flt, Bool.and_eq_true, decide_eq_true_eq] at h
  exact h.2

/-- A peak above 1.0 never raises the envelope. -/
theorem limiterGain_env_le {fs : BitVec 24} {peak env : Word} (hfs : 0 < fs.toNat) (he : inUnit env)
    (hpeak : fgt peak fOne = true) : value (limiterGain fogpad fs peak env).2 ≤ value env := by
  cases htgt : flt (fdiv fOne peak) env with
  | false => rw [limiterGain_hold hpeak htgt]
  | true =>
    rw [limiterGain_attack hpeak htgt]
    exact (moveTowards_monotone (instantGain_inUnit hpeak) (attackCoef_inUnit hfs) he).1 (value_lt_of_flt htgt).le

/-- Any other peak never lowers it. -/
theorem le_limiterGain_env {fs : BitVec 24} {peak env : Word} (hfs : 0 < fs.toNat) (he : inUnit env)
    (hpeak : fgt peak fOne = false) : value env ≤ value (limiterGain fogpad fs peak env).2 := by
  have hone : inUnit fOne := by decide +kernel
  rw [limiterGain_release hpeak]
  dsimp only
  split
  · exact (moveTowards_monotone hone (releaseCoef_inUnit hfs) he).2 he.2.2
  · exact he.2.2

/-! ### The peak of a frame (R231) -/

theorem mag_fabs {a : Word} (h : isNaN a = false) : mag (fabs a) = mag a := by
  rw [mag_eq_magOf, mag_eq_magOf, magBits_fabs h]

theorem fgt_eq_false_iff {a b : Word} (ha : isNaN a = false) (hb : isNaN b = false) :
    fgt a b = false ↔ value a ≤ value b := by
  simp [fgt, flt, ha, hb]

/-- The larger of two magnitudes is one of them and below neither. -/
theorem peakStereo_cases {m0 m1 : Word} (h0 : isNaN m0 = false) (h1 : isNaN m1 = false) :
    (peakStereo m0 m1 = fabs m1 ∧ mag m0 ≤ mag m1) ∨ (peakStereo m0 m1 = fabs m0 ∧ mag m1 ≤ mag m0) := by
  unfold peakStereo
  cases hgt : fgt (fabs m1) (fabs m0) with
  | true =>
    have hlt := value_lt_of_flt hgt
    rw [value_fabs h0, value_fabs h1] at hlt
    exact .inl ⟨rfl, by omega⟩
  | false =>
    rw [fgt_eq_false_iff ((isNaN_fabs m1).trans h1) ((isNaN_fabs m0).trans h0), value_fabs h0, value_fabs h1] at hgt
    exact .inr ⟨rfl, by omega⟩

/-- A word that is no NaN and at most `c` in magnitude. -/
def MagWithin (c m : Word) : Prop := isNaN m = false ∧ mag m ≤ mag c

/-- The peak is no NaN, not negative, below no mixed sample of a lane in use, and within what bounds them all. -/
theorem framePeak_bounds {s : State} {m0 m1 c : Word} (h0 : MagWithin c m0) (h1 : stereo s = true → MagWithin c m1) :
    MagWithin c (framePeak s m0 m1) ∧ 0 ≤ value (framePeak s m0 m1) ∧ mag m0 ≤ mag (framePeak s m0 m1) ∧
      (stereo s = true → mag m1 ≤ mag (framePeak s m0 m1)) := by
  have habs : ∀ {m : Word}, MagWithin c m → MagWithin c (fabs m) ∧ 0 ≤ value (fabs m) := fun {m} ⟨hn, hm⟩ =>
    ⟨⟨(isNaN_fabs m).trans hn, (mag_fabs hn).trans_le hm⟩, by rw [value_fabs hn]; omega⟩
  cases hst : stereo s with
  | false =>
    have hp : framePeak s m0 m1 = fabs m0 := by simp [framePeak, hst, peakMono]
    rw [hp]
    exact ⟨(habs h0).1, (habs h0).2, (mag_fabs h0.1).ge, nofun⟩
  | true =>
    have hp : framePeak s m0 m1 = peakStereo m0 m1 := by simp [framePeak, hst]
    have h1 := h1 hst
    rw [hp]
    rcases peakStereo_cases h0.1 h1.1 with ⟨he, hle⟩ | ⟨he, hle⟩ <;> rw [he]
    · exact ⟨(habs h1).1, (habs h1).2, hle.trans (mag_fabs h1.1).ge, fun _ => (mag_fabs h1.1).ge⟩
    · exact ⟨(habs h0).1, (habs h0).2, (mag_fabs h0.1).ge, fun _ => hle.trans (mag_fabs h0.1).ge⟩

/-! ### The limiter inside a frame (R257, R258) -/

/-- Lane 0's mixed sample of a frame. -/
def frameMix0 (s : State) : Word := mix0 s (wet0 fogpad s).1 (wet1 fogpad s).1

/-- Lane 1's mixed sample of a frame. -/
def frameMix1 (s : State) : Word := mix1 s (wet0 fogpad s).1 (wet1 fogpad s).1

/-- The gain of a frame and the envelope after it. -/
def frameGain (s : State) : Word × Word :=
  limiterGain fogpad s.fs (framePeak s (frameMix0 s) (frameMix1 s)) s.env

/-- The mixed samples of the lanes in use are no NaN and at most `c` in magnitude. -/
def MixesWithin (c : Word) (s : State) : Prop :=
  MagWithin c (frameMix0 s) ∧ (stereo s = true → MagWithin c (frameMix1 s))

theorem frame_limited (s : State) :
    (frame fogpad s).env = (frameGain s).2 ∧
      (frame fogpad s).out0 = output0 s (fmul (frameMix0 s) (frameGain s).1) ∧
      (frame fogpad s).out1 = output1 s (fmul (frameMix0 s) (frameGain s).1) (fmul (frameMix1 s) (frameGain s).1) :=
  ⟨rfl, rfl, rfl⟩

/-- What holds of zero and of lane 0's limited sample holds of OUT0. -/
theorem output0_of {P : Word → Prop} {s : State} {y0 : Word} (hzero : P 0x00000000#32) (h0 : P y0) :
    P (output0 s y0) := by
  rw [output0_eq]
  split
  · exact hzero
  · exact h0

/-- What holds of zero and of the limited samples of the lanes in use holds of OUT1. -/
theorem output1_of {P : Word → Prop} {s : State} {y0 y1 : Word} (hzero : P 0x00000000#32) (h0 : P y0)
    (h1 : stereo s = true → P y1) : P (output1 s y0 y1) := by
  rw [output1_eq]
  split
  · exact hzero
  · split
    next hst => exact h1 hst
    next => exact h0

theorem fs_pos_of_activeInv {s : State} (h : s.ActiveInv fogpad) : 0 < s.fs.toNat :=
  lt_of_lt_of_le (by decide : 0 < fogpad.fsMin) h.fsLow

/-- The one gain of the frame takes every sample below the peak to at most 1.0. -/
theorem frame_ceiling {s : State} (h : s.ActiveInv fogpad) (hmix : MixesWithin 0x7E800000#32 s) :
    MagWithin fOne (frame fogpad s).out0 ∧ MagWithin fOne (frame fogpad s).out1 := by
  obtain ⟨h0, h1⟩ := hmix
  obtain ⟨⟨hpn, hpm⟩, hp0, hle0, hle1⟩ := framePeak_bounds h0 h1
  have hlimited {a : Word} (ha : mag a ≤ mag (framePeak s (frameMix0 s) (frameMix1 s))) :
      MagWithin fOne (fmul a (frameGain s).1) :=
    limiterGain_ceiling (fs_pos_of_activeInv h) h.env hpn hp0 hpm ha
  have hzero : MagWithin fOne 0x00000000#32 := ⟨by decide, Nat.zero_le _⟩
  obtain ⟨_, hout0, hout1⟩ := frame_limited s
  rw [hout0, hout1]
  exact ⟨output0_of hzero (hlimited hle0), output1_of hzero (hlimited hle0) fun hst => hlimited (hle1 hst)⟩

/-- With an envelope of 1.0 and a peak of at most 1.0 the release adds a zero. -/
theorem limiterGain_quiet {fs : BitVec 24} {peak : Word} (hfs : 0 < fs.toNat) (hpeak : fgt peak fOne = false) :
    limiterGain fogpad fs peak fOne = (fOne, fOne) := by
  have hmove : moveTowards fOne (releaseCoef fogpad fs) fOne = fOne := by
    rw [moveTowards, fsub_self isFinite_fOne]
    exact fadd_zero_right isFinite_fOne (mag_fmul_posZero (isFinite_of_inUnit (releaseCoef_inUnit hfs))) (by decide)
  rw [limiterGain_release hpeak, hmove, if_pos (by decide +kernel)]

theorem frameGain_quiet {s : State} (h : s.ActiveInv fogpad) (henv : s.env = fOne) (hmix : MixesWithin fOne s) :
    frameGain s = (fOne, fOne) := by
  obtain ⟨h0, h1⟩ := hmix
  obtain ⟨⟨hpn, hpm⟩, _⟩ := framePeak_bounds h0 h1
  have hle : value (framePeak s (frameMix0 s) (frameMix1 s)) ≤ value fOne := by
    rw [value_fOne, ← mag_fOne]
    have := natAbs_value (framePeak s (frameMix0 s) (frameMix1 s))
    omega
  rw [frameGain, henv]
  exact limiterGain_quiet (fs_pos_of_activeInv h) ((fgt_eq_false_iff hpn (by decide)).mpr hle)

/-- A gain of 1.0 leaves the mixed samples as they are. -/
theorem frame_quiet {s : State} (h : s.ActiveInv fogpad) (henv : s.env = fOne) (hmix : MixesWithin fOne s) :
    (frame fogpad s).env = fOne ∧ (frame fogpad s).out0 = output0 s (frameMix0 s) ∧
      (frame fogpad s).out1 = output1 s (frameMix0 s) (frameMix1 s) := by
  obtain ⟨henv', hout0, hout1⟩ := frame_limited s
  rw [henv', hout0, hout1, frameGain_quiet h henv hmix, fmul_one hmix.1.1]
  refine ⟨rfl, rfl, ?_⟩
  cases hst : stereo s with
  | false => simp only [output1, hst, Bool.false_eq_true, if_false]
  | true => rw [fmul_one (hmix.2 hst).1]

/-! ### The statements -/

/-- Settles O57: under the invariant the frame is performed, and its one gain serves both outputs. -/
theorem outputsNeverExceedTheThreshold : Obligations.OutputsNeverExceedTheThreshold := by
  intro w s h hl hr wf0 wf1 hn0 hm0 h1
  have hmix : MixesWithin 0x7E800000#32 s := ⟨⟨hn0, hm0⟩, fun hst => h1 ((stereo_iff s).mp hst)⟩
  obtain ⟨⟨hout0, hmag0⟩, hout1, hmag1⟩ := frame_ceiling (h.active hl) hmix
  exact ⟨_, exec_wrFrame_admitted (admitted_of_inv h hl hr) w, hout0, hmag0, hout1, hmag1⟩

/-- Settles O58: the gain of a quiet frame is 1.0. -/
theorem quietFramesPassTheLimiterUnchanged : Obligations.QuietFramesPassTheLimiterUnchanged := by
  intro w s h hl hr henv wf0 wf1 m0 m1 hn0 hm0 h1
  have hmix : MixesWithin fOne s := ⟨⟨hn0, hm0⟩, fun hst => h1 ((stereo_iff s).mp hst)⟩
  obtain ⟨henv', hout0, hout1⟩ := frame_quiet (h.active hl) henv hmix
  rw [output0_eq] at hout0
  rw [output1_eq] at hout1
  simp only [stereo_iff] at hout1
  exact ⟨_, exec_wrFrame_admitted (admitted_of_inv h hl hr) w, henv', hout0, hout1⟩

/-- Settles O59: the branches of R231, the direction of each move, and R230's and V52's words by evaluation. -/
theorem limiterAttacksHoldsAndReleases : Obligations.LimiterAttacksHoldsAndReleases := by
  refine ⟨fun fs peak env => ⟨limiterGain_attack, limiterGain_hold, limiterGain_release⟩,
    fun fs peak env hlow _ he => ⟨limiterGain_env_le (by omega) he, le_limiterGain_env (by omega) he⟩, ?_, ?_, ?_, ?_⟩
  all_goals decide +kernel

end Sys2Proof.Proofs
end

section
/-! The exceptions of spec/60_exceptions.md and what CONFIG leaves of the state before it (spec/70_reset_and_hazards.md R321):
E_ADDR on what the opcode map leaves out (R291), E_SEQ (R292), one flag at a time (R296, R297), WR.ERR (R265) and the system
registers that show the flags (R262 to R266). First the laws of the decoder's refusals and of the flags, then the statements. -/

open Sys2Proof Sys2Proof.Machine Sys2Proof.Claims

namespace Sys2Proof.Proofs

/-! ### What the opcode map leaves out (R85, R86, R291) -/

/-- The opcodes of R291's three conditions, stated on W and ADDR. -/
def RefusedOpcode (op : BitVec 9) : Prop :=
  let a := op.extractLsb' 0 8
  isReservedAddr a = true ∨ (op.getLsbD 8 = true ∧ isReadOnlyAddr a = true) ∨
    (op.getLsbD 8 = false ∧ isWriteOnlyAddr a = true)

/-- Whether an opcode spells an operation does not depend on DATA. -/
theorem opcodeMap_isNone (n : Nat) (w v : Word) : (opcodeMap n w).isNone = (opcodeMap n v).isNone := by
  unfold opcodeMap
  split <;> rfl

/-- The entries of the opcode map against R291, opcode by opcode. -/
theorem opcodeMap_zero_isNone_iff : ∀ op : BitVec 9, (opcodeMap op.toNat 0#32).isNone = true ↔ RefusedOpcode op := by
  unfold RefusedOpcode
  decide +kernel

theorem opcodeMap_eq_none_iff (op : BitVec 9) (w : Word) : opcodeMap op.toNat w = none ↔ RefusedOpcode op := by
  rw [← Option.isNone_iff_eq_none, opcodeMap_isNone _ w 0#32, opcodeMap_zero_isNone_iff]

theorem refusedOpcode_iff (x : Xact) : RefusedOpcode (xactOpcode x) ↔
    isReservedAddr (xactAddr x) = true ∨ (xactWrite x = true ∧ isReadOnlyAddr (xactAddr x) = true) ∨
      (xactWrite x = false ∧ isWriteOnlyAddr (xactAddr x) = true) := by
  rw [xactAddr_eq, xactWrite_eq]
  rfl

theorem decode_of_refused {x : Xact} (h : RefusedOpcode (xactOpcode x)) : decode x = .error (decodeErrorOf x) := by
  rw [decode, (opcodeMap_eq_none_iff _ _).mpr h]

theorem decode_of_not_refused {x : Xact} (h : ¬RefusedOpcode (xactOpcode x)) : ∃ i, decode x = .ok i := by
  obtain ⟨i, hi⟩ := Option.ne_none_iff_exists'.mp (mt (opcodeMap_eq_none_iff _ (xactData x)).mp h)
  exact ⟨i, by rw [decode, hi]⟩

/-- The ranges of R85 are the addresses that the register map (R29) does not list. -/
theorem isReservedAddr_iff : ∀ a : RegAddr, isReservedAddr a = true ↔ a ∉ [0x00#8, 0x01#8, 0x02#8, 0x03#8, 0x04#8, 0x08#8,
    0x09#8, 0x0A#8, 0x0B#8, 0x0C#8, 0x0D#8, 0x0E#8, 0x10#8, 0x11#8, 0x12#8, 0x13#8, 0x14#8, 0x15#8, 0x20#8, 0x21#8, 0x22#8,
    0x23#8, 0x24#8, 0x28#8, 0x29#8, 0x30#8, 0x31#8, 0x32#8, 0x33#8, 0x34#8] := by decide +kernel

theorem isReadOnlyAddr_iff (a : RegAddr) :
    isReadOnlyAddr a = true ↔ a ∈ [0x00#8, 0x01#8, 0x04#8, 0x0C#8, 0x0D#8, 0x0E#8] := List.contains_iff_mem

theorem isWriteOnlyAddr_iff (a : RegAddr) :
    isWriteOnlyAddr a = true ↔ a ∈ [0x08#8, 0x09#8, 0x24#8, 0x34#8] := List.contains_iff_mem

/-- A write of a read-only register meets that refusal (R86). -/
theorem decode_write_readOnly {op : BitVec 9} (d : Word) (hwrite : op.getLsbD 8 = true)
    (hro : isReadOnlyAddr (op.extractLsb' 0 8) = true) (hdefined : isReservedAddr (op.extractLsb' 0 8) = false) :
    decode (op ++ d : BitVec 41) = .error .writeOfReadOnly := by
  have hrefused : RefusedOpcode (xactOpcode (op ++ d : BitVec 41)) := by
    rw [xactOpcode_append]
    exact .inr (.inl ⟨hwrite, hro⟩)
  rw [decode_of_refused hrefused, decodeErrorOf, xactAddr_append, xactWrite_append, hdefined, hwrite]
  rfl

/-! ### The flags of one transaction (R290, R296, R297) -/

/-- Raising E_SEQ, E_CFG or E_NONFIN leaves E_ADDR as it is. -/
theorem errSet_bit0 {c : ErrCause} (hc : c ≠ .addr) (e : BitVec 4) : (errSet c e).getLsbD 0 = e.getLsbD 0 := by
  cases c with
  | addr => exact absurd rfl hc
  | seq | cfg | nonfin => simp [errSet, ErrCause.mask, ErrCause.code]

theorem errClear_bit0 (w : Word) (e : BitVec 4) :
    (errClear (errMaskOperand w) e).getLsbD 0 = (e.getLsbD 0 && !w.getLsbD 0) := by
  simp [errClear, errMaskOperand]

/-- An operation that is performed or refused raises no E_ADDR, and only WR.ERR clears it. -/
theorem exec_err_bit0 {i : Instr} {s t : State} (hi : ∀ w, i ≠ .wrErr w) (h : exec i s = .next t) :
    t.err.getLsbD 0 = s.err.getLsbD 0 := by
  cases performed_of_exec h with
  | answered | constructed => rfl
  | refused isRead => rw [raiseError_eq]; exact errSet_bit0 (by decide) _
  | cleared w hw => exact absurd hw (hi w)
  | rejected => exact errSet_bit0 (by decide) _
  | opened w =>
    rw [acknowledge_err, openBlock_eq]
    dsimp only
    split
    · rfl
    · exact errSet_bit0 (by decide) _
  | framed =>
    rw [acknowledge_err, frame_err]
    split
    · exact errSet_bit0 (by decide) _
    · rfl
  | wrote f hf => exact congrArg (·.getLsbD 0) (hf.err s)

theorem exec_wrErr (w : Word) (s : State) :
    exec (.wrErr w) s = .next { s with err := errClear (errMaskOperand w) s.err, resp := none } := rfl

/-- The code of a cause is a bit of ERR (R290). -/
theorem errSet_eq_or_shift (c : ErrCause) (e : BitVec 4) : ∃ k, k < 4 ∧ errSet c e = e ||| (1#4 <<< k) :=
  ⟨c.code, by cases c <;> decide, rfl⟩

/-! ### Refusals in IDLE (R292 a) -/

/-- What a write is: below 0x08, where IDLE refuses nothing, or refused in IDLE. -/
inductive WriteForm (i : Instr) : Prop
  | system (haddr : i.line.addr < 8)
  | frame (w : Word) (hi : i = .wrFrame w)
  | register (f : State → State) (h : ∀ s, exec i s = .next (writeActive f s))

theorem writeForm {i : Instr} (hwrite : i.line.write = true) : WriteForm i := by
  cases i with
  | wrErr | wrConfig => exact .system (of_decide_eq_true rfl)
  | wrFrame w => exact .frame w rfl
  | wrBlock | wrIn0 | wrIn1 | wrRoomsize | wrWidth | wrDry | wrWet | wrMode | wrPlayrate | wrBcAmount | wrBcLfoRate
  | wrBcLfoDepth | wrBcPostmix | wrBcLfoRst | wrDecBits | wrDecRate | wrFltCutoff | wrFltRes | wrFltLfoRate
  | wrFltLfoDepth | wrFltLfoRst => exact .register _ fun _ => rfl
  | rdId | rdStatus | rdErr | rdConfig | rdRem | rdIn0 | rdIn1 | rdOut0 | rdOut1 | rdGr | rdRoomsize | rdWidth | rdDry
  | rdWet | rdMode | rdPlayrate | rdBcAmount | rdBcLfoRate | rdBcLfoDepth | rdBcPostmix | rdDecBits | rdDecRate
  | rdFltCutoff | rdFltRes | rdFltLfoRate | rdFltLfoDepth => exact nomatch hwrite

/-- In IDLE every operation from 0x08 on is refused with E_SEQ. -/
theorem exec_idle_refused {i : Instr} {s : State} (hl : s.life = .idle) (haddr : 8 ≤ i.line.addr) :
    exec i s = .next (raiseError .seq (!i.line.write) s) := by
  cases hkind : i.line.write with
  | false =>
    cases readForm hkind with
    | system _ hlow => exact absurd haddr (by omega)
    | register v _ h => exact (h s).trans (congrArg _ (readActive_idle v hl))
  | true =>
    cases writeForm hkind with
    | system hlow => exact absurd haddr (by omega)
    | frame w hi => subst hi; exact exec_wrFrame_refused (.inl hl) w
    | register f h => exact (h s).trans (congrArg _ (writeActive_idle f hl))

/-! ### The views of an ACTIVE state (R24, R27) -/

theorem statusView_active {s : State} (hl : s.life = .active) :
    statusView s =
      ((s.params.mode ++ s.nch ++ (if s.rem = 0#16 then 0#1 else 1#1) ++ 1#1 : BitVec 5).setWidth 32) := by
  simp [statusView, hl]

/-- The six zero bits of R27. -/
theorem configView_active {s : State} (hl : s.life = .active) : configView s = 0#6 ++ s.nch ++ s.fs := by
  simp only [configView, hl]
  exact (BitVec.setWidth_eq_append (x := (s.nch ++ s.fs : BitVec 26)) (by decide)).trans BitVec.append_assoc.symm

/-! ### The statements -/

/-- Settles O4: the three conditions are the opcodes that the map leaves out; of the others WR.ERR alone touches bit 0. -/
theorem eAddrExactlyOutsideTheOpcodeMap : Obligations.EAddrExactlyOutsideTheOpcodeMap := by
  intro s x rest hp
  simp only [← isReservedAddr_iff, ← isReadOnlyAddr_iff, ← isWriteOnlyAddr_iff]
  have hiff := refusedOpcode_iff x
  refine ⟨fun h => ?_, fun h => ?_⟩
  · rw [step_refused_xact hp (decode_of_refused (hiff.mpr h)), refuseXact_eq]
    rfl
  · obtain ⟨i, hd⟩ := decode_of_not_refused (mt hiff.mp h)
    refine ⟨i, hd, fun t hstep => ?_⟩
    rw [step_decoded hp hd] at hstep
    refine ⟨fun hi => exec_err_bit0 (s := { s with port := rest }) hi hstep, ?_⟩
    rintro w rfl
    injection hstep with ht
    exact ht ▸ errClear_bit0 w s.err

/-- Settles O14: an operation's flag is one of the four, and so is E_ADDR. -/
theorem oneTransactionSetsAtMostOneFlag : Obligations.OneTransactionSetsAtMostOneFlag := by
  intro s t x rest hp hstep hx
  cases hd : decode x with
  | ok i =>
    rw [step_decoded hp hd] at hstep
    rcases exec_err hstep with ⟨w, hi, _⟩ | herr | ⟨c, herr⟩
    · exact absurd (hi ▸ hd) (hx w)
    · exact .inl herr
    · exact .inr (herr ▸ errSet_eq_or_shift c s.err)
  | error e =>
    rw [step_refused_xact hp hd, refuseXact_eq] at hstep
    injection hstep with ht
    exact .inr (ht ▸ errSet_eq_or_shift .addr s.err)

/-- Settles O19: (a) and (b) are refusals; (c) is BLOCK's effect where a block is open. -/
theorem outOfSequenceTransactions : Obligations.OutOfSequenceTransactions := by
  refine ⟨fun i s hl haddr => ?_, fun w s _ hr => ?_, fun w s hl hr => ?_⟩
  · rw [exec_idle_refused hl haddr, raiseError_eq]
    cases i.line.write <;> rfl
  · rw [exec_wrFrame_refused (.inr hr), raiseError_eq]
    rfl
  · have hopened := (blockOpensABlock w s).1 hl
    simp only [hr, if_false] at hopened
    exact hopened

/-- Settles O20: the refused writes by their opcodes, the reads by their views of the state. -/
theorem systemReadsAnswer : Obligations.SystemReadsAnswer := by
  refine ⟨fun d => ⟨?_, ?_, ?_⟩, fun s => ⟨rfl, rfl, rfl, fun hl => ⟨?_, ?_⟩, fun hl => ⟨?_, ?_⟩⟩⟩
  · exact decode_write_readOnly d (by decide) (by decide) (by decide)
  · exact decode_write_readOnly d (by decide) (by decide) (by decide)
  · exact decode_write_readOnly d (by decide) (by decide) (by decide)
  · exact congrArg (fun d => Host.Outcome.next (answer d s)) (statusView_active hl)
  · exact congrArg (fun d => Host.Outcome.next (answer d s)) (configView_active hl)
  · exact exec_rdStatus_idle hl
  · exact exec_rdConfig_idle hl

/-- Settles O21. -/
theorem errWriteClearsTheWrittenOnes : Obligations.ErrWriteClearsTheWrittenOnes := exec_wrErr

/-- Settles O18: the constructed state takes ERR and the port alone from the state before. -/
theorem configIsAFunctionOfItsWord : Obligations.ConfigIsAFunctionOfItsWord := by
  intro w s s' t t' hw ht ht'
  rw [exec_wrConfig_accepted hw] at ht ht'
  injection ht with ht
  injection ht' with ht'
  subst ht ht'
  exact ⟨rfl, rfl, rfl⟩

end Sys2Proof.Proofs
end
